-- ==== Sys2Proof/Word.lean ====
section
/-! DEFINITION. The words of the block: a register is 64 bits wide and a byte is 8 bits (00_scope.md R5). -/

namespace Sys2Proof

/-- A register of the window, a latch field or a command word (R5: "Every register is 64 bits wide"). -/
abbrev Word := BitVec 64

/-- A byte of the engine memory space (R5: "A byte is 8 bits"). -/
abbrev Byte := BitVec 8

/-- ONES64 (R12), the RESULT of a search that found nothing (R110). -/
def ones64 : Word := 0xFFFFFFFFFFFFFFFF#64

/-- `b2v(c)` as a register value (R14). -/
def b2v (c : Bool) : Word := if c then 1#64 else 0#64

end Sys2Proof
end

