-- ==== Sys2Proof/Config.lean ====
section
/-! DEFINITION. The implementation parameters of 00_scope.md section 4, fixed for one machine. The spec leaves them
OPEN; State carries them as plain data, so a claim about every state is a claim about every value of them (log 4). -/

namespace Sys2Proof

/-- The OPEN parameters. -/
structure Config where
  /-- P_ADDR_W minus 1 (R6): the 64 values stand for 1 <= P_ADDR_W <= 64, and for nothing else. -/
  addrWidthPred : Fin 64
  /-- P_REG_BASE (R7): the host address of register offset 0x00. -/
  regBase : Nat
  /-- RUP_TOPBIT_ZERO (R8): whether round-up gives 0 where its result would be 2^(W-1) for a smaller input. -/
  rupTopbitZero : Bool
deriving DecidableEq, Repr

/-- P_ADDR_W (R6). -/
def Config.pAddrW (c : Config) : Nat := c.addrWidthPred.val + 1

/-- The number of byte addresses of the engine memory space, 2^P_ADDR_W (R39). -/
def Config.memSize (c : Config) : Nat := 2 ^ c.pAddrW

/-- The defaults of R6 and R8. DESIGN CHOICE: P_REG_BASE has no default in the spec; 0 here (log 4). -/
def Config.default : Config := { addrWidthPred := 63, regBase := 0, rupTopbitZero := false }

end Sys2Proof
end

