-- ==== Sys2Proof/Syntax.lean ====
section
/-! DEFINITION. The commands of the block: one constructor for each row of the opcode map (30_encoding.md R72).
No command has an immediate field: every operand is a latched register (R74), so no constructor has an argument. -/

namespace Sys2Proof

/-- The 18 commands of R72, in the table's order. -/
inductive Instr where
  | ffs          -- find first set bit in a range (R92)
  | ffc          -- find first clear bit in a range (R93)
  | hibit32      -- highest set bit, 32-bit (R111)
  | hibit64      -- highest set bit, 64-bit (R112)
  | lobit32      -- lowest set bit, 32-bit (R113)
  | lobit64      -- lowest set bit, 64-bit (R114)
  | parity32     -- parity of a 32-bit word (R120)
  | popcnt64     -- population count of a 64-bit word (R121)
  | rup32        -- round up to a power of two, 32-bit (R131)
  | rup64        -- round up to a power of two, 64-bit (R132)
  | rdn32        -- round down to a power of two, 32-bit (R133)
  | rdn64        -- round down to a power of two, 64-bit (R134)
  | peqbMsb      -- byte-buffer prefix equality, msb-first (R141)
  | peqbLsb      -- byte-buffer prefix equality, lsb-first (R142)
  | peq32Msb     -- 32-bit word prefix equality, msb-first (R144)
  | peq32Lsb     -- 32-bit word prefix equality, lsb-first (R145)
  | peq64Msb     -- 64-bit word prefix equality, msb-first (R146)
  | peq64Lsb     -- 64-bit word prefix equality, lsb-first (R147)
deriving DecidableEq, Repr

end Sys2Proof
end

