-- ==== Sys2Proof/Machine/State.lean ====
section
/-! DEFINITION. The state of the machine, as plain data: the block's own state (10_state.md R40), the parameters
(00_scope.md section 4), and the two other agents of R4, the memory and the host. -/

namespace Sys2Proof.Machine

/-- STATUS (R22), one 64-bit word; its fields are the accessors of Machine/Flags.lean. -/
abbrev Status := Word

/-- The register window (R20), under the names of `x[NAME]` (R13). -/
structure Window where
  cmd    : Word     -- offset 0x00, R21
  status : Status   -- offset 0x08, R22
  opa    : Word     -- offset 0x10, R24
  opb    : Word     -- offset 0x18, R24
  start  : Word     -- offset 0x20, R24
  endOff : Word     -- offset 0x28 (END), R24
  k      : Word     -- offset 0x30, R24
  result : Word     -- offset 0x38, R25
deriving DecidableEq, Repr

/-- The latch `lat` (R29): the operands as they stood at acceptance. -/
structure Latch where
  cmd    : Word
  opa    : Word
  opb    : Word
  start  : Word
  endOff : Word
  k      : Word
deriving DecidableEq, Repr

/-- The progress point of the running command (R30): where its pseudocode stands between two memory reads, with the
values of its local variables. -/
inductive Progress where
  | start                      -- the start of the pseudocode (R31)
  | scanAt (j : Nat)           -- SCAN (R91), before the read of byte j
  | pairA (j : Nat)            -- PEQB (R143), before the read of A[j]
  | pairB (j : Nat) (u : Byte) -- PEQB (R143), before the read of B[j]; u is the A byte already read
deriving DecidableEq, Repr

/-- The phase (R30): IDLE without a progress point, BUSY with one. -/
inductive Phase where
  | idle
  | busy (point : Progress)
deriving DecidableEq, Repr

/-- The engine memory space (R39): (address, byte) pairs in the canonical form of `Memory.wf` (log 3). -/
abbrev Memory := List Host.Cell

/-- How the memory agent answers the read of an engine step (R52), an oracle input (log 5). -/
inductive MemAnswer where
  | data (pick : Nat) -- data; `pick` chooses among the values the read may return (R64): 0 is the byte the memory holds
  | error             -- the read answers `error` (R162)
  | never             -- the read is never answered: the step that holds it is never enabled (R189)
deriving DecidableEq, Repr

/-- One read performed on the memory port (R58, R62). -/
structure PortRead where
  addr   : Nat
  answer : Option Byte -- the byte answered, none where the memory answered `error`
deriving DecidableEq, Repr

/-- The registers by name (R20, R77). -/
inductive Reg where
  | cmd | status | opa | opb | start | endOff | k | result
deriving DecidableEq, Repr

/-- What a bus access asks for (R27). -/
inductive BusOp where
  | read
  | write (v : Word)
deriving DecidableEq, Repr

/-- An access a host makes on its bus: a host address, a size in bits, and a read or a write (R27, R39). -/
structure BusAccess where
  addr : Nat
  bits : Nat
  op   : BusOp
deriving DecidableEq, Repr

/-- The register port's answer to a transaction (R27, R164). -/
inductive PortReply where
  | data (v : Word) -- an accepted Read returns 64 bits
  | written         -- an accepted Write
  | busError        -- the host bus error of a transaction the port does not accept
deriving DecidableEq, Repr

/-- The host statements of R78, with branch targets as positions in the program. -/
inductive Statement where
  | wr (r : Reg) (v : Word)                           -- wr REG, v
  | rd (r : Reg) (n : Fin 8)                          -- rd REG, hN
  | bset (n : Fin 8) (i : Fin 64) (target : Nat)      -- bset hN, i, L
  | bclr (n : Fin 8) (i : Fin 64) (target : Nat)      -- bclr hN, i, L
  | halt                                              -- halt
deriving DecidableEq, Repr

/-- The programmed host (R77, R78): its program, its place in it, and the temporaries h0 to h7, "64-bit values held
by the host, not state of the block" (log 9). -/
structure HostAgent where
  prog   : List Statement
  pc     : Nat
  h      : Vector Word 8
  halted : Bool
deriving DecidableEq, Repr

/-- One move of one agent (R4, R28, R180). A list of these in State says which agent moves next (log 1). -/
inductive Input where
  | bus (a : BusAccess)             -- some host makes an access on its bus (R27, R173)
  | program                         -- the programmed host executes its next statement (R78)
  | engine (a : MemAnswer)          -- the engine is scheduled; a read of its step is answered with `a` (R33, R52)
  | store (addr : Nat) (v : Byte)   -- a host or another agent stores a byte to memory (R63, R64)
  | publish                         -- every earlier store is made visible to the engine's port (R63; log 24)
  | reset                           -- the reset input (R180)
deriving DecidableEq, Repr

/-- The machine. -/
structure State where
  /-- The parameters R6 to R8. No step changes them. -/
  cfg         : Config
  /-- The register window `x` (R20). -/
  x           : Window
  /-- The latch (R29). -/
  lat         : Latch
  /-- The phase and the progress point (R30). -/
  phase       : Phase
  /-- The bytes the memory holds (R39, R52). -/
  mem         : Memory
  /-- Values replaced by stores that are not yet visible to the engine's port (R63). The model's own form (log 5). -/
  unpublished : List Host.Cell
  /-- Values replaced by stores since the running command's acceptance (R64). The model's own form (log 5). -/
  held        : List Host.Cell
  /-- How the memory answers the read of the current engine step (R52). The model's own field (log 5). -/
  answer      : MemAnswer
  /-- The address of the read that the memory never answers, while there is one: the engine step that holds it is never
  enabled, and only reset ends that (R52, R189). The memory agent's, and the model's own form (log 6). -/
  unanswered  : Option Nat
  /-- The reads performed on the memory port, newest first (R58, R62). The model's own field (log 16). -/
  reads       : List PortRead
  /-- What the agents do next (R28). The model's own field (log 1). -/
  inputs      : List Input
  /-- The port's answer to the last transaction (R27). The model's own field (log 8). -/
  reply       : Option PortReply
  /-- The programmed host (R77, R78). -/
  host        : HostAgent
deriving DecidableEq, Repr

/-- The one reason the model stops a step. -/
inductive Fault where
  /-- Raised by the meanings of FFS, FFC, PEQB_MSB and PEQB_LSB when exec is asked for the command in a state whose
  engine stands at no point of that command's pseudocode: "While BUSY = 0 the engine has no step" (R33). `step` never
  raises it from a state that meets the invariant of Safety.lean. Safe (log 12). -/
  | noProgressPoint
deriving DecidableEq, Repr

/-- The reasons to refuse. -/
inductive Refusal where
  /-- An instruction without a meaning. No arm of exec answers it: every command is modelled. Safe. -/
  | notModelled (mnemonic : String)
deriving DecidableEq, Repr

/-- The window after reset (R41). -/
def Window.reset : Window :=
  { cmd := 0, status := 0, opa := 0, opb := 0, start := 0, endOff := 0, k := 0, result := 0 }

/-- The latch after reset (R41). -/
def Latch.reset : Latch := { cmd := 0, opa := 0, opb := 0, start := 0, endOff := 0, k := 0 }

/-- The programmed host before any program is given to it. DESIGN CHOICE (log 9). -/
def HostAgent.initial : HostAgent :=
  { prog := [], pc := 0, h := #v[0, 0, 0, 0, 0, 0, 0, 0], halted := false }

/-- The machine right after reset: the block as R41 says; the parameters at their defaults (log 4); no input pending
(log 1), memory with nothing listed (log 3), no host program (log 9). -/
def State.reset : State :=
  { cfg := Config.default, x := Window.reset, lat := Latch.reset, phase := .idle, mem := [], unpublished := [],
    held := [], answer := .data 0, unanswered := none, reads := [], inputs := [], reply := none,
    host := HostAgent.initial }

end Sys2Proof.Machine
end

