-- ==== Sys2Proof/Machine/Flags.lean ====
section
/-! DEFINITION. STATUS (10_state.md R22): its fields, and the only four ways it changes (R37). -/

namespace Sys2Proof.Machine

/-- STATUS.BUSY, bit 0. -/
def Status.busy (w : Status) : Bool := w.getLsbD 0
/-- STATUS.DONE, bit 1. -/
def Status.done (w : Status) : Bool := w.getLsbD 1
/-- STATUS.FOUND, bit 2. -/
def Status.found (w : Status) : Bool := w.getLsbD 2
/-- STATUS.ERR, bit 3. -/
def Status.err (w : Status) : Bool := w.getLsbD 3
/-- STATUS.ERRCODE, bits 7:4. -/
def Status.errcode (w : Status) : BitVec 4 := w.extractLsb' 4 4
/-- STATUS.OVR, bit 8. -/
def Status.ovr (w : Status) : Bool := w.getLsbD 8
/-- STATUS bits 63:9, reserved, always read 0. -/
def Status.reserved (w : Status) : BitVec 55 := w.extractLsb' 9 55

/-- ERRCODE 0 = NONE (R22). -/
def errNone : BitVec 4 := 0#4
/-- ERRCODE 1 = ILLEGAL_CMD (R22, R160). -/
def errIllegalCmd : BitVec 4 := 1#4
/-- ERRCODE 2 = BUS_ERROR (R22, R160). -/
def errBusError : BitVec 4 := 2#4

/-- Write BUSY, DONE, FOUND, ERR and ERRCODE (bits 7:0); OVR and the reserved bits stay. -/
def Status.putCommandFields (w : Status) (busy done found err : Bool) (errcode : BitVec 4) : Status :=
  w.extractLsb' 8 56 ++
    (errcode ++ BitVec.ofBool err ++ BitVec.ofBool found ++ BitVec.ofBool done ++ BitVec.ofBool busy)

/-- Acceptance (R31): BUSY <- 1; DONE, FOUND, ERR, ERRCODE <- 0. -/
def Status.accepted (w : Status) : Status := w.putCommandFields true false false false errNone

/-- Successful completion (R34): FOUND <- found; ERR, ERRCODE <- 0; DONE <- 1; BUSY <- 0. -/
def Status.completed (w : Status) (found : Bool) : Status := w.putCommandFields false true found false errNone

/-- Error completion (R35): FOUND <- 0; ERR <- 1; ERRCODE <- code; DONE <- 1; BUSY <- 0. -/
def Status.failed (w : Status) (code : BitVec 4) : Status := w.putCommandFields false true false true code

/-- Overrun (R32): OVR <- 1. -/
def Status.setOvr (w : Status) : Status := w ||| 0x100#64

/-- A host write of v to STATUS (R23): v[8] = 1 sets OVR to 0; every other bit of v is ignored. -/
def Status.hostWrite (w : Status) (v : Word) : Status := if v.getLsbD 8 then w &&& ~~~0x100#64 else w

end Sys2Proof.Machine
end

