-- ==== Sys2Proof/Machine/Memory.lean ====
section
/-! DEFINITION. The engine memory space (10_state.md R39): reading and storing one byte, and the canonical form. -/

namespace Sys2Proof.Machine

/-- What an address that the list does not name reads as. The spec gives memory no contents (R59): DESIGN CHOICE 0x00
(log 3). -/
def unlistedByte : Byte := 0x00#8

/-- The byte the memory holds at an address. -/
def Memory.read : Memory → Nat → Byte
  | [], _ => unlistedByte
  | (b, u) :: rest, a => if a = b then u else Memory.read rest a

/-- Put a byte in front of a list, or leave it out where the address reads so unlisted. -/
def Memory.consByte (a : Nat) (v : Byte) (m : Memory) : Memory :=
  if v = unlistedByte then m else (a, v) :: m

/-- Store one byte, keeping the canonical form. -/
def Memory.write : Memory → Nat → Byte → Memory
  | [], a, v => Memory.consByte a v []
  | (b, u) :: rest, a, v =>
    if a < b then Memory.consByte a v ((b, u) :: rest)
    else if a = b then Memory.consByte a v rest
    else (b, u) :: Memory.write rest a v

/-- The canonical form over `size` addresses: addresses strictly rising, no entry that reads so unlisted, every address
in the space. Equal memories are then equal lists. -/
def Memory.wf (size : Nat) (m : Memory) : Bool :=
  decide (m.Pairwise (fun c d => c.1 < d.1)) && m.all (fun c => c.2 != unlistedByte && decide (c.1 < size))

end Sys2Proof.Machine
end

