-- ==== Sys2Proof/Machine/Bits.lean ====
section
/-! DEFINITION. The bit functions the commands share (00_scope.md R12; 41_word_bitsearch.md R110; 42_count_parity.md
R120, R121; 43_pow2_round.md R130; 44_prefix_equal.md, PEQW). Each is written from its closed form in the spec. -/

namespace Sys2Proof.Machine

/-- min { i | i < n and p i }, none when the set is empty. -/
def lowestIndex (p : Nat → Bool) : Nat → Option Nat
  | 0 => none
  | n + 1 =>
    match lowestIndex p n with
    | some i => some i
    | none => if p n then some n else none

/-- max { i | i < n and p i }, none when the set is empty. -/
def highestIndex (p : Nat → Bool) : Nat → Option Nat
  | 0 => none
  | n + 1 => if p n then some n else highestIndex p n

/-- HI_W(a) (R110). -/
def highestSetBit {w : Nat} (a : BitVec w) : Option Nat := highestIndex a.getLsbD w

/-- LO_W(a) (R110). -/
def lowestSetBit {w : Nat} (a : BitVec w) : Option Nat := lowestIndex a.getLsbD w

/-- The number of the low n bits of a that are 1. -/
def onesBelow {w : Nat} (a : BitVec w) : Nat → Nat
  | 0 => 0
  | n + 1 => onesBelow a n + (a.getLsbD n).toNat

/-- ones(a): the number of bits of a equal to 1 (R12). -/
def ones {w : Nat} (a : BitVec w) : Nat := onesBelow a w

/-- a[0] ^ a[1] ^ ... ^ a[n-1]. -/
def xorBelow {w : Nat} (a : BitVec w) : Nat → Bool
  | 0 => false
  | n + 1 => xorBelow a n ^^ a.getLsbD n

/-- a[0] ^ a[1] ^ ... ^ a[W-1] (R120). -/
def parityOf {w : Nat} (a : BitVec w) : Bool := xorBelow a w

/-- RUP_W(x) (R130) for x < 2^W; `topbitZero` is RUP_TOPBIT_ZERO (R8). Where neither exclusion holds the smallest power
of two at or above x is at most 2^(W-1), so the search below W finds it. -/
def roundUpPow2 (w : Nat) (topbitZero : Bool) (x : Nat) : Nat :=
  if x = 0 then 0
  else if x.testBit (w - 1) then 0
  else if topbitZero && decide (x > 2 ^ (w - 2)) then 0
  else
    match lowestIndex (fun n => decide (x ≤ 2 ^ n)) w with
    | some n => 2 ^ n
    | none => 0

/-- RDN_W(x) (R130) for x < 2^W. -/
def roundDownPow2 (w : Nat) (x : Nat) : Nat :=
  if x = 0 then 0
  else if x.testBit (w - 1) then 0
  else
    match highestIndex (fun n => decide (2 ^ n ≤ x)) w with
    | some n => 2 ^ n
    | none => 0

/-- `mask8(lo, hi)`: the byte with bits lo to hi-1 set (R12). -/
def mask8 (lo hi : Nat) : Byte := BitVec.ofNat 8 (1 <<< hi - 1 <<< lo)

/-- The two bit orders of the prefix commands (R140). -/
inductive BitOrder where
  | msb
  | lsb
deriving DecidableEq, Repr

/-- Equality of the first m bits of two W-bit values in the given order, for 0 < m < W, by the shift the spec writes:
right by W - m for msb-first; left by W - m, reduced mod 2^W, for lsb-first (R143, PEQW). -/
def shiftedEq {w : Nat} (order : BitOrder) (a b : BitVec w) (m : Nat) : Bool :=
  match order with
  | .msb => a >>> (w - m) == b >>> (w - m)
  | .lsb => a <<< (w - m) == b <<< (w - m)

/-- PEQW(W, order) (44_prefix_equal.md section 3): k = 0 is equal, k < W compares shifted words, k >= W compares the
words without a shift (R148). -/
def wordPrefixEq {w : Nat} (order : BitOrder) (a b : BitVec w) (k : Nat) : Bool :=
  if k = 0 then true
  else if k < w then shiftedEq order a b k
  else a == b

end Sys2Proof.Machine
end

