-- ==== Sys2Proof/Machine/Operands.lean ====
section
/-! DEFINITION. Operand assembly (30_encoding.md R74, R75): every operand of a command is a latched register value,
read whole or, for a 32-bit command, its bits 31:0. Then the byte addresses and bit positions of the memory commands. -/

namespace Sys2Proof.Machine

/-- The word operand a of a 32-bit command, lat[OPA][31:0] (R74, R75). -/
def State.wordA32 (s : State) : BitVec 32 := s.lat.opa.setWidth 32
/-- The word operand b of a 32-bit command, lat[OPB][31:0]. -/
def State.wordB32 (s : State) : BitVec 32 := s.lat.opb.setWidth 32
/-- The word operand a of a 64-bit command, lat[OPA]. -/
def State.wordA64 (s : State) : BitVec 64 := s.lat.opa
/-- The word operand b of a 64-bit command, lat[OPB]. -/
def State.wordB64 (s : State) : BitVec 64 := s.lat.opb
/-- start of a scan range, an unsigned bit offset, lat[START]. -/
def State.scanStart (s : State) : Nat := s.lat.start.toNat
/-- end of a scan range, an unsigned bit offset, lat[END]. -/
def State.scanEnd (s : State) : Nat := s.lat.endOff.toNat
/-- k, an unsigned bit count, lat[K]. -/
def State.prefixLen (s : State) : Nat := s.lat.k.toNat

/-- EA(b, j) = (b + j) mod 2^P_ADDR_W (20_memory.md R51). -/
def effectiveAddr (c : Config) (b : Word) (j : Nat) : Nat := (b.toNat + j) % c.memSize

/-- EA of byte j of the bitmap, or of buffer A: base lat[OPA] (R51). -/
def State.addrA (s : State) (j : Nat) : Nat := effectiveAddr s.cfg s.lat.opa j
/-- EA of byte j of buffer B: base lat[OPB] (R51). -/
def State.addrB (s : State) (j : Nat) : Nat := effectiveAddr s.cfg s.lat.opb j

/-- s of SCAN, the first byte index: start >> 3 (40_bitmap_scan.md R91). -/
def State.firstByte (s : State) : Nat := s.scanStart >>> 3
/-- e of SCAN, the last byte index: (end - 1) >> 3 (R91). -/
def State.lastByte (s : State) : Nat := (s.scanEnd - 1) >>> 3
/-- lo of SCAN at byte j (R91). -/
def State.scanLo (s : State) (j : Nat) : Nat := if j = s.firstByte then s.scanStart % 8 else 0
/-- hi of SCAN at byte j (R91). -/
def State.scanHi (s : State) (j : Nat) : Nat :=
  if j = s.lastByte then (if s.scanEnd % 8 = 0 then 8 else s.scanEnd % 8) else 8

/-- q of PEQB, the number of whole bytes: k >> 3 (44_prefix_equal.md R143). -/
def State.wholeBytes (s : State) : Nat := s.prefixLen >>> 3
/-- r of PEQB, the number of bits of the remainder byte: k & 7 (R143). -/
def State.remainderBits (s : State) : Nat := s.prefixLen % 8
/-- How many byte indexes PEQB can compare: q, and one more when r is not 0; ceil(k / 8) (R143). -/
def State.prefixBytes (s : State) : Nat := s.wholeBytes + (if s.remainderBits = 0 then 0 else 1)

end Sys2Proof.Machine
end

