-- ==== Sys2Proof/Machine/Ops.lean ====
section
/-! DEFINITION. The shared operations: the command lifecycle (10_state.md R31 to R35), the two errors a command can end
with (60_exceptions.md R161, R162), the memory read port (20_memory.md R52, R64), stores and their visibility (R63), and
reset (70_reset_and_hazards.md R180). The block has no trap and no return from one (R167, R168): `fail` is the whole
of error entry. -/

namespace Sys2Proof.Machine

/-- Acceptance of command word v (R31): CMD and the latch take v, the latch takes the operand registers, STATUS shows
BUSY, and the progress point is the start of the pseudocode. RESULT and OVR stay. The values that bytes held before
this acceptance are no longer candidates of a racing read (R64), and no read of the command is on the port. -/
def State.accept (s : State) (v : Word) : State :=
  { s with
    x := { s.x with cmd := v, status := s.x.status.accepted }
    lat := { cmd := v, opa := s.x.opa, opb := s.x.opb, start := s.x.start, endOff := s.x.endOff, k := s.x.k }
    phase := .busy .start
    held := []
    unanswered := none }

/-- Overrun (R32, R163): the CMD write is dropped and OVR is set; nothing else changes. -/
def State.overrun (s : State) : State := { s with x := { s.x with status := s.x.status.setOvr } }

/-- complete(found, result) (R34). The progress point is discarded and the phase is IDLE. -/
def State.complete (s : State) (found : Bool) (result : Word) : State :=
  { s with x := { s.x with result := result, status := s.x.status.completed found }, phase := .idle }

/-- fail(code, result) (R35). The progress point is discarded and the phase is IDLE. -/
def State.fail (s : State) (code : BitVec 4) (result : Word) : State :=
  { s with x := { s.x with result := result, status := s.x.status.failed code }, phase := .idle }

/-- raise IllegalCommand(c) (R161): fail(1, 0). CMD still holds c. -/
def State.raiseIllegalCommand (s : State) : State := s.fail errIllegalCmd 0#64

/-- raise BusError(addr) (R162): fail(2, zext_64(addr)). -/
def State.raiseBusError (s : State) (addr : Nat) : State := s.fail errBusError (BitVec.ofNat 64 addr)

/-- Completion of a search (R110, D7): a found index with FOUND = 1; otherwise FOUND = 0 and RESULT = ONES64. -/
def State.completeSearch (s : State) (index : Option Nat) : State :=
  match index with
  | some i => s.complete true (BitVec.ofNat 64 i)
  | none => s.complete false ones64

/-- Completion of a command that is no search: FOUND = 0 (D8). -/
def State.completeValue (s : State) (result : Word) : State := s.complete false result

/-- The pseudocode runs on up to the read at this progress point (R33). -/
def State.goto (s : State) (p : Progress) : State := { s with phase := .busy p }

/-- The values a list of replaced bytes names for one address. -/
def valuesAt (cells : List Host.Cell) (a : Nat) : List Byte := (cells.filter (fun c => c.1 == a)).map (fun c => c.2)

/-- The values a read of the byte at `a` may return: the byte the memory holds, and where a store races the command
(R64) or is not yet visible (R63), each value it replaced. -/
def State.readCandidates (s : State) (a : Nat) : List Byte :=
  Memory.read s.mem a :: (valuesAt s.held a ++ valuesAt s.unpublished a)

/-- The value the memory's answer picks among the candidates; with no race there is one candidate (R52). -/
def State.byteSeen (s : State) (a pick : Nat) : Byte := (s.readCandidates a).getD pick (Memory.read s.mem a)

/-- Record a read on the memory port (R58, R62). -/
def State.logRead (s : State) (a : Nat) (answer : Option Byte) : State :=
  { s with reads := { addr := a, answer := answer } :: s.reads }

/-- The read at `addr` stays on the memory port, and the memory never answers it (R52, R189). -/
def State.leaveUnanswered (s : State) (addr : Nat) : State := { s with unanswered := some addr }

/-- MemRead(addr, 1) (R13, R52): data goes to the rest of the pseudocode; `error` ends the command with BusError(addr); a
read that is never answered stays on the port, and from then on the step that holds it is not enabled: the engine stands
where it stood (R189; log 6). -/
def State.memRead (s : State) (addr : Nat) (cont : Byte → State → State) : State :=
  match s.unanswered with
  | some _ => s
  | none =>
    match s.answer with
    | .data pick => cont (s.byteSeen addr pick) (s.logRead addr (some (s.byteSeen addr pick)))
    | .error => (s.logRead addr none).raiseBusError addr
    | .never => s.leaveUnanswered addr

/-- A store of one byte by a host or another agent (R63, R64). The value it replaces may still be read until the store
is visible, and, while a command runs, for the rest of that command. An address outside the engine memory space is no
byte of it (log 11). -/
def State.storeByte (s : State) (a : Nat) (v : Byte) : State :=
  if a < s.cfg.memSize then
    { s with
      mem := Memory.write s.mem a v
      unpublished := (a, Memory.read s.mem a) :: s.unpublished
      held := if s.x.status.busy then (a, Memory.read s.mem a) :: s.held else s.held }
  else s

/-- Every earlier store is made visible to the engine's memory port (R63). DESIGN CHOICE: the grain. R63 speaks of one
host's writes to the bytes its command will read, and leaves the barrier to the platform; here one `publish` makes the
stores of every agent to every byte visible at once, and there is none for one host or one byte (log 24). For a running
command a publish comes after its acceptance, so the values those stores replaced can still be read for the rest of the
command (R63, R64; log 15). -/
def State.publishStores (s : State) : State :=
  { s with unpublished := [], held := if s.x.status.busy then s.unpublished ++ s.held else s.held }

/-- The reset input (R180, R41): every piece of the block's state takes its reset value, and a read that is outstanding
on the port is given up (R181). Memory, the hosts and the record of the reads performed are not state of the block
(log 10). -/
def State.applyReset (s : State) : State :=
  { s with x := Window.reset, lat := Latch.reset, phase := .idle, unanswered := none }

end Sys2Proof.Machine
end

