-- ==== Sys2Proof/Machine/BitmapScan.lean ====
section
/-! DEFINITION. The bitmap range scan: FFS and FFC (40_bitmap_scan.md R91 to R93). -/

namespace Sys2Proof.Machine

/-- t of SCAN(pol) for the byte v at index j: the matching bits of v inside the range (R91). -/
def State.scanBits (s : State) (pol : Bool) (j : Nat) (v : Byte) : Byte :=
  (if pol then v else ~~~v) &&& mask8 (s.scanLo j) (s.scanHi j)

/-- SCAN(pol) after byte v at index j has been read, up to the next read or the end (R91). -/
def scanAfterRead (pol : Bool) (j : Nat) (v : Byte) (s : State) : State :=
  match lowestSetBit (s.scanBits pol j v) with
  | some i => s.completeSearch (some (j * 8 + i))
  | none => if j < s.lastByte then s.goto (.scanAt (j + 1)) else s.completeSearch none

/-- SCAN(pol) from the read of byte j (R91). -/
def scanFrom (pol : Bool) (j : Nat) (s : State) : State := s.memRead (s.addrA j) (scanAfterRead pol j)

/-- One engine step of SCAN(pol), from its progress point (R33, R91). An empty range is not found without a read. -/
def scanStep (pol : Bool) (s : State) : Host.Outcome State Fault Refusal :=
  match s.phase with
  | .busy .start => .next (if s.scanStart < s.scanEnd then scanFrom pol s.firstByte s else s.completeSearch none)
  | .busy (.scanAt j) => .next (scanFrom pol j s)
  | .busy (.pairA _) => .fault .noProgressPoint
  | .busy (.pairB _ _) => .fault .noProgressPoint
  | .idle => .fault .noProgressPoint

/-- FFS: SCAN(1) (R92). -/
def execFfs (s : State) : Host.Outcome State Fault Refusal := scanStep true s

/-- FFC: SCAN(0) (R93). -/
def execFfc (s : State) : Host.Outcome State Fault Refusal := scanStep false s

end Sys2Proof.Machine
end

