-- ==== Sys2Proof/Machine/CountParity.lean ====
section
/-! DEFINITION. Parity and population count: PARITY32 and POPCNT64 (42_count_parity.md R120, R121). Each takes one engine
step, reads no memory and completes with FOUND = 0. -/

namespace Sys2Proof.Machine

/-- PARITY32 (R120). -/
def execParity32 (s : State) : Host.Outcome State Fault Refusal := .next (s.completeValue (b2v (parityOf s.wordA32)))

/-- POPCNT64 (R121). -/
def execPopcnt64 (s : State) : Host.Outcome State Fault Refusal :=
  .next (s.completeValue (BitVec.ofNat 64 (ones s.wordA64)))

end Sys2Proof.Machine
end

