-- ==== Sys2Proof/Machine/Pow2Round.lean ====
section
/-! DEFINITION. Power-of-two rounding: RUP32, RUP64, RDN32, RDN64 (43_pow2_round.md R130 to R134). Each takes one engine
step, reads no memory and completes with FOUND = 0. -/

namespace Sys2Proof.Machine

/-- RUP32 (R131). -/
def execRup32 (s : State) : Host.Outcome State Fault Refusal :=
  .next (s.completeValue (BitVec.ofNat 64 (roundUpPow2 32 s.cfg.rupTopbitZero s.wordA32.toNat)))

/-- RUP64 (R132). -/
def execRup64 (s : State) : Host.Outcome State Fault Refusal :=
  .next (s.completeValue (BitVec.ofNat 64 (roundUpPow2 64 s.cfg.rupTopbitZero s.wordA64.toNat)))

/-- RDN32 (R133). -/
def execRdn32 (s : State) : Host.Outcome State Fault Refusal :=
  .next (s.completeValue (BitVec.ofNat 64 (roundDownPow2 32 s.wordA32.toNat)))

/-- RDN64 (R134). -/
def execRdn64 (s : State) : Host.Outcome State Fault Refusal :=
  .next (s.completeValue (BitVec.ofNat 64 (roundDownPow2 64 s.wordA64.toNat)))

end Sys2Proof.Machine
end

