-- ==== Sys2Proof/Machine/PrefixEqual.lean ====
section
/-! DEFINITION. Prefix equality: PEQB_MSB, PEQB_LSB, PEQ32_MSB, PEQ32_LSB, PEQ64_MSB, PEQ64_LSB (44_prefix_equal.md R140
to R148). Every one completes with FOUND = 0, and RESULT = 1 for "equal" or 0 for "not equal". -/

namespace Sys2Proof.Machine

/-- Completion of a prefix command. -/
def State.completeEq (s : State) (eq : Bool) : State := s.completeValue (b2v eq)

/-- Whether the bytes u and v at index j agree: a whole byte before index q, and r bits of it at index q (R143). No
byte is shifted by its full width: where r = 0 there is no bit to compare (R148). -/
def State.pairEq (s : State) (order : BitOrder) (j : Nat) (u v : Byte) : Bool :=
  if j < s.wholeBytes then u == v
  else if s.remainderBits = 0 then true
  else shiftedEq order u v s.remainderBits

/-- PEQB(order) after A[j] = u has been read: on to the read of B[j] (R143). -/
def pairAfterA (j : Nat) (u : Byte) (s : State) : State := s.goto (.pairB j u)

/-- PEQB(order) after B[j] = v has been read, up to the next read or the end (R143). -/
def pairAfterB (order : BitOrder) (j : Nat) (u v : Byte) (s : State) : State :=
  if s.pairEq order j u v then
    if j + 1 < s.prefixBytes then s.goto (.pairA (j + 1)) else s.completeEq true
  else s.completeEq false

/-- One engine step of PEQB(order), from its progress point (R33, R143). k = 0 is equal without a read. -/
def pairStep (order : BitOrder) (s : State) : Host.Outcome State Fault Refusal :=
  match s.phase with
  | .busy .start => .next (if s.prefixLen = 0 then s.completeEq true else s.memRead (s.addrA 0) (pairAfterA 0))
  | .busy (.pairA j) => .next (s.memRead (s.addrA j) (pairAfterA j))
  | .busy (.pairB j u) => .next (s.memRead (s.addrB j) (pairAfterB order j u))
  | .busy (.scanAt _) => .fault .noProgressPoint
  | .idle => .fault .noProgressPoint

/-- PEQB_MSB: PEQB(MSB) (R141). -/
def execPeqbMsb (s : State) : Host.Outcome State Fault Refusal := pairStep .msb s

/-- PEQB_LSB: PEQB(LSB) (R142). -/
def execPeqbLsb (s : State) : Host.Outcome State Fault Refusal := pairStep .lsb s

/-- PEQ32_MSB: PEQW(32, MSB) (R144). -/
def execPeq32Msb (s : State) : Host.Outcome State Fault Refusal :=
  .next (s.completeEq (wordPrefixEq .msb s.wordA32 s.wordB32 s.prefixLen))

/-- PEQ32_LSB: PEQW(32, LSB) (R145). -/
def execPeq32Lsb (s : State) : Host.Outcome State Fault Refusal :=
  .next (s.completeEq (wordPrefixEq .lsb s.wordA32 s.wordB32 s.prefixLen))

/-- PEQ64_MSB: PEQW(64, MSB) (R146). -/
def execPeq64Msb (s : State) : Host.Outcome State Fault Refusal :=
  .next (s.completeEq (wordPrefixEq .msb s.wordA64 s.wordB64 s.prefixLen))

/-- PEQ64_LSB: PEQW(64, LSB) (R147). -/
def execPeq64Lsb (s : State) : Host.Outcome State Fault Refusal :=
  .next (s.completeEq (wordPrefixEq .lsb s.wordA64 s.wordB64 s.prefixLen))

end Sys2Proof.Machine
end

