-- ==== Sys2Proof/Machine/WordSearch.lean ====
section
/-! DEFINITION. The word bit search: HIBIT32, HIBIT64, LOBIT32, LOBIT64 (41_word_bitsearch.md R110 to R114). Each takes
one engine step and reads no memory (R33). -/

namespace Sys2Proof.Machine

/-- HIBIT32 (R111). -/
def execHibit32 (s : State) : Host.Outcome State Fault Refusal := .next (s.completeSearch (highestSetBit s.wordA32))

/-- HIBIT64 (R112). -/
def execHibit64 (s : State) : Host.Outcome State Fault Refusal := .next (s.completeSearch (highestSetBit s.wordA64))

/-- LOBIT32 (R113). -/
def execLobit32 (s : State) : Host.Outcome State Fault Refusal := .next (s.completeSearch (lowestSetBit s.wordA32))

/-- LOBIT64 (R114). -/
def execLobit64 (s : State) : Host.Outcome State Fault Refusal := .next (s.completeSearch (lowestSetBit s.wordA64))

end Sys2Proof.Machine
end

