-- ==== Sys2Proof/Machine/Dispatch.lean ====
section
/-! DEFINITION. exec: one engine step of a command (10_state.md R33), by command. -/

namespace Sys2Proof.Machine

-- The command i runs one engine step in s: from the progress point over at most one memory read, which the memory
-- answers with s.answer.
def exec (i : Instr) (s : State) : Host.Outcome State Fault Refusal :=
  match i with
  | .ffs => Sys2Proof.Machine.execFfs s
  | .ffc => Sys2Proof.Machine.execFfc s
  | .hibit32 => Sys2Proof.Machine.execHibit32 s
  | .hibit64 => Sys2Proof.Machine.execHibit64 s
  | .lobit32 => Sys2Proof.Machine.execLobit32 s
  | .lobit64 => Sys2Proof.Machine.execLobit64 s
  | .parity32 => Sys2Proof.Machine.execParity32 s
  | .popcnt64 => Sys2Proof.Machine.execPopcnt64 s
  | .rup32 => Sys2Proof.Machine.execRup32 s
  | .rup64 => Sys2Proof.Machine.execRup64 s
  | .rdn32 => Sys2Proof.Machine.execRdn32 s
  | .rdn64 => Sys2Proof.Machine.execRdn64 s
  | .peqbMsb => Sys2Proof.Machine.execPeqbMsb s
  | .peqbLsb => Sys2Proof.Machine.execPeqbLsb s
  | .peq32Msb => Sys2Proof.Machine.execPeq32Msb s
  | .peq32Lsb => Sys2Proof.Machine.execPeq32Lsb s
  | .peq64Msb => Sys2Proof.Machine.execPeq64Msb s
  | .peq64Lsb => Sys2Proof.Machine.execPeq64Lsb s

end Sys2Proof.Machine
end

