-- ==== Sys2Proof/WellFormed.lean ====
section
/-! DEFINITION. When a command word is well formed (30_encoding.md R70, R76). A term of `Instr` has no field that
could be wrong, so the checks are on the raw word in the format CMD. -/

namespace Sys2Proof

/-- A command word in the format CMD (R70), taken apart: OPC = bits 7:0, RSV = bits 63:8. -/
structure RawCommand where
  opc : BitVec 8
  rsv : BitVec 56
deriving DecidableEq, Repr

/-- The fields of a 64-bit command word (R70). -/
def RawCommand.ofWord (c : Word) : RawCommand := { opc := c.extractLsb' 0 8, rsv := c.extractLsb' 8 56 }

/-- The 18 assigned opcodes (R72). -/
def assignedOpcodes : List (BitVec 8) :=
  [0x01#8, 0x02#8] ++ [0x10#8, 0x11#8, 0x12#8, 0x13#8] ++ [0x20#8, 0x21#8] ++
  [0x30#8, 0x31#8, 0x32#8, 0x33#8] ++ [0x40#8, 0x41#8, 0x42#8, 0x43#8, 0x44#8, 0x45#8]

/-- "RSV: reserved; must be 0" (R70, R76). -/
def RawCommand.reservedZero (r : RawCommand) : Bool := r.rsv == 0#56

/-- The opcode is one that R72 lists (R76). -/
def RawCommand.opcodeAssigned (r : RawCommand) : Bool := assignedOpcodes.contains r.opc

/-- Well formed: neither of the two grounds of R76 for an illegal word holds. -/
def RawCommand.wf (r : RawCommand) : Bool := r.reservedZero && r.opcodeAssigned

end Sys2Proof
end

