-- ==== Sys2Proof/Decode.lean ====
section
/-! DEFINITION. Decoding a command word (30_encoding.md R71), total on every word, and the encoder (R72). -/

namespace Sys2Proof

/-- Why a command word is ILLEGAL (R76). -/
inductive IllegalWord where
  | reservedBits       -- RSV = c[63:8] is not 0, whatever the OPC
  | unassignedOpcode   -- RSV is 0 and the OPC is not listed in R72
deriving DecidableEq, Repr

/-- What a command word decodes to: a command, or ILLEGAL with the ground of R76. -/
inductive Decoded where
  | command (i : Instr)
  | illegal (why : IllegalWord)
deriving DecidableEq, Repr

/-- The opcode map of R72: the command an OPC stands for, none for the 238 unassigned values. -/
def commandOfOpcode (opc : BitVec 8) : Option Instr :=
  match opc.toNat with
  | 0x01 => some .ffs
  | 0x02 => some .ffc
  | 0x10 => some .hibit32
  | 0x11 => some .hibit64
  | 0x12 => some .lobit32
  | 0x13 => some .lobit64
  | 0x20 => some .parity32
  | 0x21 => some .popcnt64
  | 0x30 => some .rup32
  | 0x31 => some .rup64
  | 0x32 => some .rdn32
  | 0x33 => some .rdn64
  | 0x40 => some .peqbMsb
  | 0x41 => some .peqbLsb
  | 0x42 => some .peq32Msb
  | 0x43 => some .peq32Lsb
  | 0x44 => some .peq64Msb
  | 0x45 => some .peq64Lsb
  | _ => none

/-- decode(c) of R71: the command when RSV = 0 and the OPC is listed, otherwise ILLEGAL. It always reads the whole
64-bit word, and nothing else. -/
def decode (c : Word) : Decoded :=
  let r := RawCommand.ofWord c
  if r.reservedZero then
    match commandOfOpcode r.opc with
    | some i => .command i
    | none => .illegal .unassignedOpcode
  else .illegal .reservedBits

/-- The OPC of a command (R72). -/
def opcodeOf : Instr → BitVec 8
  | .ffs => 0x01#8
  | .ffc => 0x02#8
  | .hibit32 => 0x10#8
  | .hibit64 => 0x11#8
  | .lobit32 => 0x12#8
  | .lobit64 => 0x13#8
  | .parity32 => 0x20#8
  | .popcnt64 => 0x21#8
  | .rup32 => 0x30#8
  | .rup64 => 0x31#8
  | .rdn32 => 0x32#8
  | .rdn64 => 0x33#8
  | .peqbMsb => 0x40#8
  | .peqbLsb => 0x41#8
  | .peq32Msb => 0x42#8
  | .peq32Lsb => 0x43#8
  | .peq64Msb => 0x44#8
  | .peq64Lsb => 0x45#8

/-- The command word of a command: zext_64(OPC) (R72). -/
def encode (i : Instr) : Word := (opcodeOf i).setWidth 64

/-- The decoder on a word numbered as the opcode table numbers it. The block takes a command word whole (R70), so
there is no byte order: bit n of `w` is bit n of the command word; the bits above `nbits` are 0. A row wider than a
command word is no command word (log 23). -/
def decodeTableWord (nbits w : Nat) : Option Instr :=
  if nbits ≤ 64 then
    match decode (BitVec.ofNat 64 (w % 2 ^ nbits)) with
    | .command i => some i
    | .illegal _ => none
  else none

end Sys2Proof
end

