-- ==== Sys2Proof/Machine/Port.lean ====
section
/-! DEFINITION. The register port (10_state.md R20, R27, R39; 60_exceptions.md R164): reading and writing a register,
and a bus access at a host address. -/

namespace Sys2Proof.Machine

/-- The offset of a register (R20). -/
def Reg.offset : Reg → Nat
  | .cmd => 0x00
  | .status => 0x08
  | .opa => 0x10
  | .opb => 0x18
  | .start => 0x20
  | .endOff => 0x28
  | .k => 0x30
  | .result => 0x38

/-- The register at an offset; "no other offset belongs to the block" (R20). -/
def regAtOffset (off : Nat) : Option Reg :=
  match off with
  | 0x00 => some .cmd
  | 0x08 => some .status
  | 0x10 => some .opa
  | 0x18 => some .opb
  | 0x20 => some .start
  | 0x28 => some .endOff
  | 0x30 => some .k
  | 0x38 => some .result
  | _ => none

/-- The value a Read of a register returns (R21 to R25). -/
def State.regValue (s : State) : Reg → Word
  | .cmd => s.x.cmd
  | .status => s.x.status
  | .opa => s.x.opa
  | .opb => s.x.opb
  | .start => s.x.start
  | .endOff => s.x.endOff
  | .k => s.x.k
  | .result => s.x.result

/-- A Write of a register: CMD by R31 and R32, STATUS by R23, the operands by R24, RESULT ignored (R25). -/
def State.writeReg (s : State) (r : Reg) (v : Word) : State :=
  match r with
  | .cmd => if s.x.status.busy then s.overrun else s.accept v
  | .status => { s with x := { s.x with status := s.x.status.hostWrite v } }
  | .opa => { s with x := { s.x with opa := v } }
  | .opb => { s with x := { s.x with opb := v } }
  | .start => { s with x := { s.x with start := v } }
  | .endOff => { s with x := { s.x with endOff := v } }
  | .k => { s with x := { s.x with k := v } }
  | .result => s

/-- The port's answer to the host (R27); outside the block (log 8). -/
def State.answerHost (s : State) (p : PortReply) : State := { s with reply := some p }

/-- An accepted transaction (R27): `Read` returns 64 bits and changes no state of the block; `Write` writes. -/
def State.transaction (s : State) (r : Reg) (op : BusOp) : State :=
  match op with
  | .read => s.answerHost (.data (s.regValue r))
  | .write v => (s.writeReg r v).answerHost .written

/-- The offset of a host address in the register window, P_REG_BASE + 0x00 to P_REG_BASE + 0x3F (R39). -/
def windowOffset (c : Config) (addr : Nat) : Option Nat :=
  if c.regBase ≤ addr ∧ addr < c.regBase + 0x40 then some (addr - c.regBase) else none

/-- An access of a host's bus. In the window the port accepts it when its size is 64 bits and its offset is a
register's (R27); it answers every other one with a host bus error and changes no state of the block (R27, R164). An
access outside the window does not reach the block (R39; log 8). -/
def State.busAccess (s : State) (a : BusAccess) : State :=
  match windowOffset s.cfg a.addr with
  | none => s
  | some off =>
    match regAtOffset off with
    | some r => if a.bits = 64 then s.transaction r a.op else s.answerHost .busError
    | none => s.answerHost .busError

end Sys2Proof.Machine
end

