-- ==== Sys2Proof/Machine/HostProgram.lean ====
section
/-! DEFINITION. The programmed host: the host statements (30_encoding.md R78) and the assembly of a program from lines
with labels and pseudo-instructions (R77, R79). -/

namespace Sys2Proof.Machine

/-- What a `Read(off(REG))` of the host returns to it (R27, R78). -/
def repliedData (r : Option PortReply) : Word :=
  match r with
  | some (.data v) => v
  | _ => 0#64

/-- The bus access of a host statement on register r: 64 bits at P_REG_BASE + offset (R78). -/
def regAccess (c : Config) (r : Reg) (op : BusOp) : BusAccess := { addr := c.regBase + r.offset, bits := 64, op := op }

/-- The host goes on at a position of its program. -/
def State.hostGoto (s : State) (pc : Nat) : State := { s with host := { s.host with pc := pc } }

/-- One statement of the host program (R78). Every transaction is one host step (R28). -/
def State.hostStatement (s : State) (st : Statement) : State :=
  match st with
  | .wr r v => (s.busAccess (regAccess s.cfg r (.write v))).hostGoto (s.host.pc + 1)
  | .rd r n =>
    let t := s.busAccess (regAccess s.cfg r .read)
    { t with host := { s.host with pc := s.host.pc + 1, h := s.host.h.set n (repliedData t.reply) } }
  | .bset n i target => s.hostGoto (if s.host.h[n].getLsbD i then target else s.host.pc + 1)
  | .bclr n i target => s.hostGoto (if s.host.h[n].getLsbD i then s.host.pc + 1 else target)
  | .halt => { s with host := { s.host with halted := true } }

/-- The programmed host's turn: its next statement, or nothing when it has halted or has no statement left (log 9). -/
def State.hostTurn (s : State) : State :=
  if s.host.halted then s
  else
    match s.host.prog[s.host.pc]? with
    | some st => s.hostStatement st
    | none => s

/-- A statement or pseudo-instruction as a program writes it (R78, R79). A label is a number standing for its name.
DESIGN CHOICE (log 9), where R77 to R79 do not say: the v of `wr REG, v` is a number or a mnemonic, not a host temporary;
the OP of `run OP` is a mnemonic of R72, not a number. -/
inductive SourceStatement where
  | wr (r : Reg) (v : Word)
  | wrCommand (r : Reg) (i : Instr)                  -- wr REG, MNEMONIC: the mnemonic stands for zext_64(OPC) (R77)
  | rd (r : Reg) (n : Fin 8)
  | bset (n : Fin 8) (i : Fin 64) (label : Nat)
  | bclr (n : Fin 8) (i : Fin 64) (label : Nat)
  | halt
  | wait
  | run (i : Instr)
  | clrovr
  | get (n : Fin 8)
deriving DecidableEq, Repr

/-- One line of a host program: "a line may carry a label" (R77). -/
structure SourceLine where
  label : Option Nat
  body  : SourceStatement
deriving DecidableEq, Repr

/-- How many statements a line stands for (R79). -/
def SourceStatement.size : SourceStatement → Nat
  | .wait => 2
  | .run _ => 3
  | _ => 1

/-- The position a label names, counted from `at0`. -/
def labelPosition (label : Nat) : List SourceLine → Nat → Option Nat
  | [], _ => none
  | l :: rest, at0 => if l.label = some label then some at0 else labelPosition label rest (at0 + l.body.size)

/-- `wait` at a position (R79): `Lw: rd STATUS, h7` then `bset h7, 0, Lw`. -/
def expandWait (pos : Nat) : List Statement := [.rd .status 7, .bset 7 0 pos]

/-- The statements of a line that stands at a position; none where a branch names no label (R78, R79). -/
def expandStatement (prog : List SourceLine) (pos : Nat) : SourceStatement → Option (List Statement)
  | .wr r v => some [.wr r v]
  | .wrCommand r i => some [.wr r (encode i)]
  | .rd r n => some [.rd r n]
  | .bset n i l => (labelPosition l prog 0).map (fun t => [.bset n i t])
  | .bclr n i l => (labelPosition l prog 0).map (fun t => [.bclr n i t])
  | .halt => some [.halt]
  | .wait => some (expandWait pos)
  | .run i => some (.wr .cmd (encode i) :: expandWait (pos + 1))
  | .clrovr => some [.wr .status 0x100#64]
  | .get n => some [.rd .result n]

/-- The statements of the lines from a position on. -/
def assembleFrom (prog : List SourceLine) : List SourceLine → Nat → Option (List Statement)
  | [], _ => some []
  | l :: rest, pos =>
    match expandStatement prog pos l.body, assembleFrom prog rest (pos + l.body.size) with
    | some sts, some more => some (sts ++ more)
    | _, _ => none

/-- A host program, assembled (R77 to R79); none where a branch names a label no line carries. -/
def assemble (prog : List SourceLine) : Option (List Statement) := assembleFrom prog prog 0

/-- The host is given a program, to run from its first line. -/
def State.loadProgram (s : State) (prog : List Statement) : State :=
  { s with host := { s.host with prog := prog, pc := 0, halted := false } }

end Sys2Proof.Machine
end

