-- ==== Sys2Proof/Machine/Turn.lean ====
section
/-! DEFINITION. One move of one agent: the engine's step (10_state.md R33; 30_encoding.md R71), and every input. -/

namespace Sys2Proof.Machine

/-- The engine's turn (R33). While BUSY it decodes lat[CMD] (R71) and runs one step of the command, or of
`raise IllegalCommand` (R161); while IDLE it has no step, and nothing changes (log 7). R71 decodes in the first step only;
the latch does not change while the command runs, so decoding it again gives the same command (log 14). -/
def engineTurn (s : State) : Host.Outcome State Fault Refusal :=
  match s.phase with
  | .idle => .next s
  | .busy _ =>
    match decode s.lat.cmd with
    | .command i => exec i s
    | .illegal _ => .next s.raiseIllegalCommand

/-- The input that is due: the first of the list. DESIGN CHOICE: an exhausted list stands for hosts that do nothing, an
engine that is scheduled, and a memory that answers with the byte it holds (log 1); a read that was left unanswered stays
unanswered (log 6). -/
def State.dueInput (s : State) : Input :=
  match s.inputs with
  | i :: _ => i
  | [] => .engine (.data 0)

/-- The due input is taken off the list. -/
def State.takeInput (s : State) : State := { s with inputs := s.inputs.tail }

/-- The memory agent's answer to the read of this step is `a` (R52). -/
def State.withAnswer (s : State) (a : MemAnswer) : State := { s with answer := a }

/-- What an input does (R4, R28). -/
def applyInput (i : Input) (s : State) : Host.Outcome State Fault Refusal :=
  match i with
  | .bus a => .next (s.busAccess a)
  | .program => .next s.hostTurn
  | .engine a => engineTurn (s.withAnswer a)
  | .store addr v => .next (s.storeByte addr v)
  | .publish => .next s.publishStores
  | .reset => .next s.applyReset

/-- One step of the machine: the due input is taken and applied. -/
def turn (s : State) : Host.Outcome State Fault Refusal := applyInput s.dueInput s.takeInput

/-- s with the command of word `w` accepted (R31) and the engine due next (log 2). -/
def State.withCommand (s : State) (w : Word) : State :=
  { s.accept w with inputs := .engine (.data 0) :: s.inputs }

end Sys2Proof.Machine
end

