-- ==== Sys2Proof/Machine/Step.lean ====
section
/-! DEFINITION. The step of the machine, and the state in which a given command word is the next to run. -/

namespace Sys2Proof.Machine

/-- One step: one move of the agent that is due (10_state.md R28). -/
def step (s : State) : Host.Outcome State Fault Refusal := turn s

/-- s with the command word of table bits `w` next to run. The block has no fetch: "its only instruction source is a
write to the CMD register" (R4), so the word is accepted (R31) and the engine is due (log 2). -/
def State.withFetchWord (s : State) (nbits w : Nat) : State := s.withCommand (BitVec.ofNat 64 (w % 2 ^ nbits))

end Sys2Proof.Machine
end

