-- ==== Sys2Proof/Reference.lean ====
section
/-! DEFINITION. The closed forms of the spec, written bit by bit and without the machine's own bit functions: claims
compare the machine with these. Also the source's algorithms, which the spec calls informative (R115, R123). -/

namespace Sys2Proof.Reference

open Sys2Proof.Machine

/-- i = HI_W(a) (41_word_bitsearch.md R110). -/
def IsHighest {w : Nat} (a : BitVec w) (i : Nat) : Prop :=
  i < w ∧ a.getLsbD i = true ∧ ∀ j, j < w → a.getLsbD j = true → j ≤ i

/-- i = LO_W(a) (R110). -/
def IsLowest {w : Nat} (a : BitVec w) (i : Nat) : Prop :=
  i < w ∧ a.getLsbD i = true ∧ ∀ j, j < w → a.getLsbD j = true → i ≤ j

/-- ones(a) (00_scope.md R12): how many positions hold a 1. -/
def onesCount {w : Nat} (a : BitVec w) : Nat := ((List.range w).filter (fun i => a.getLsbD i)).length

/-- y = min { 2^n | n >= 0 and 2^n >= x } (43_pow2_round.md R130). -/
def IsPow2Ceil (x y : Nat) : Prop := (∃ n, y = 2 ^ n) ∧ x ≤ y ∧ ∀ n, x ≤ 2 ^ n → y ≤ 2 ^ n

/-- y = max { 2^n | n >= 0 and 2^n <= x } (R130). -/
def IsPow2Floor (x y : Nat) : Prop := (∃ n, y = 2 ^ n) ∧ y ≤ x ∧ ∀ n, 2 ^ n ≤ x → 2 ^ n ≤ y

/-- y = RUP_W(x) (R130), case by case. -/
def IsRoundUp (w : Nat) (topbitZero : Bool) (x y : Nat) : Prop :=
  if x = 0 ∨ 2 ^ (w - 1) ≤ x ∨ (topbitZero = true ∧ 2 ^ (w - 2) < x) then y = 0 else IsPow2Ceil x y

/-- y = RDN_W(x) (R130), case by case. -/
def IsRoundDown (w : Nat) (x y : Nat) : Prop :=
  if x = 0 ∨ 2 ^ (w - 1) ≤ x then y = 0 else IsPow2Floor x y

/-- PFX_MSB_W(a, b, k) = 1 (44_prefix_equal.md R140): the top min(k, W) bits agree. -/
def PrefixMsb {w : Nat} (a b : BitVec w) (k : Nat) : Prop :=
  ∀ i, i < w → w - min k w ≤ i → a.getLsbD i = b.getLsbD i

/-- PFX_LSB_W(a, b, k) = 1 (R140): the bottom min(k, W) bits agree. -/
def PrefixLsb {w : Nat} (a b : BitVec w) (k : Nat) : Prop := ∀ i, i < min k w → a.getLsbD i = b.getLsbD i

/-- bit(b, n) of the bitmap whose bytes are `byteAt` (40_bitmap_scan.md R90; 20_memory.md R53). -/
def bitmapBit (byteAt : Nat → Byte) (n : Nat) : Bool := (byteAt (n / 8)).getLsbD (n % 8)

/-- n = FIRST(pol, b, start, end) (R90). -/
def IsFirstMatch (pol : Bool) (byteAt : Nat → Byte) (start stop n : Nat) : Prop :=
  start ≤ n ∧ n < stop ∧ bitmapBit byteAt n = pol ∧ ∀ m, start ≤ m → m < n → bitmapBit byteAt m ≠ pol

/-- FIRST(pol, b, start, end) = none (R90). -/
def NoMatch (pol : Bool) (byteAt : Nat → Byte) (start stop : Nat) : Prop :=
  ∀ m, start ≤ m → m < stop → bitmapBit byteAt m ≠ pol

/-- sM(X, n) and sL(X, n) of a buffer whose bytes are `byteAt` (R140; R54). -/
def streamBit (order : BitOrder) (byteAt : Nat → Byte) (n : Nat) : Bool :=
  match order with
  | .msb => (byteAt (n / 8)).getLsbD (7 - n % 8)
  | .lsb => (byteAt (n / 8)).getLsbD (n % 8)

/-- PFXB_MSB(A, B, k) = 1, PFXB_LSB(A, B, k) = 1 (R140). -/
def BufferPrefix (order : BitOrder) (aByte bByte : Nat → Byte) (k : Nat) : Prop :=
  ∀ n, n < k → streamBit order aByte n = streamBit order bByte n

/-- The bytes of the bitmap, or of buffer A, that the running command sees: the memory at EA(lat[OPA], j) (R51). -/
def bytesA (s : State) (j : Nat) : Byte := Memory.read s.mem (s.addrA j)

/-- The bytes of buffer B: the memory at EA(lat[OPB], j) (R51). -/
def bytesB (s : State) (j : Nat) : Byte := Memory.read s.mem (s.addrB j)

/-- steps(W) of R115. -/
def subdivisionSteps (w : Nat) : List Nat := if w = 64 then [32, 16, 8, 4, 2, 1] else [16, 8, 4, 2, 1]

/-- "highest" of R115: r and a after the probing steps. -/
def subdivideHighest : List Nat → Nat → Nat → Nat
  | [], _, r => r
  | k :: ks, a, r => if 2 ^ k ≤ a then subdivideHighest ks (a >>> k) (r + k) else subdivideHighest ks a r

/-- "lowest" of R115. -/
def subdivideLowest : List Nat → Nat → Nat → Nat
  | [], _, r => r
  | k :: ks, a, r => if a % 2 ^ k = 0 then subdivideLowest ks (a >>> k) (r + k) else subdivideLowest ks a r

/-- The parity fold of R123, widths 16, 8, 4, 2, 1. -/
def parityFold (a : BitVec 32) : Bool :=
  let a1 := a ^^^ (a >>> 16)
  let a2 := a1 ^^^ (a1 >>> 8)
  let a3 := a2 ^^^ (a2 >>> 4)
  let a4 := a3 ^^^ (a3 >>> 2)
  let a5 := a4 ^^^ (a4 >>> 1)
  a5.getLsbD 0

/-- The population count of R123: clear the lowest set bit and count, at most `fuel` times. -/
def clearAndCount : Nat → BitVec 64 → Nat
  | 0, _ => 0
  | fuel + 1, a => if a = 0#64 then 0 else clearAndCount fuel (a &&& (a - 1#64)) + 1

end Sys2Proof.Reference
end

