-- ==== Sys2Proof/Safety.lean ====
section
/-! DEFINITION. What a run keeps: the invariant of the machine, and a run of n steps, in the terms the claims use. -/

namespace Sys2Proof.Machine

/-- The invariants of STATUS (10_state.md R22): "The engine keeps these invariants at every step." -/
structure StatusOk (w : Status) : Prop where
  /-- BUSY and DONE are never both 1. -/
  notBusyAndDone : ¬(w.busy = true ∧ w.done = true)
  /-- While BUSY=1, DONE, FOUND, ERR and ERRCODE are 0. -/
  clearWhileBusy : w.busy = true → w.done = false ∧ w.found = false ∧ w.err = false ∧ w.errcode = 0#4
  /-- ERR=1 exactly when ERRCODE != 0. -/
  errIffCode : w.err = true ↔ w.errcode ≠ 0#4
  /-- ERR=1 implies FOUND=0. -/
  errNotFound : w.err = true → w.found = false
  /-- The ERRCODE values 3 to 15 are never produced. -/
  codeProduced : w.errcode.toNat ≤ 2
  /-- Bits 63:9 always read 0. -/
  reservedZero : w.reserved = 0#55

/-- The phase is BUSY (R30). -/
def Phase.isBusy : Phase → Bool
  | .idle => false
  | .busy _ => true

/-- lat[CMD] selects the command i (R71). -/
def State.runsCommand (s : State) (i : Instr) : Prop := decode s.lat.cmd = .command i

/-- The progress point is one of the pseudocode of the command lat[CMD] selects, within its loop bounds, and the A byte
it holds is the last byte read (R30, R91, R143). -/
def State.progressOk (s : State) : Prop :=
  match s.phase with
  | .idle => True
  | .busy .start => True
  | .busy (.scanAt j) =>
    (s.runsCommand .ffs ∨ s.runsCommand .ffc) ∧ s.scanStart < s.scanEnd ∧ s.firstByte < j ∧ j ≤ s.lastByte
  | .busy (.pairA j) => (s.runsCommand .peqbMsb ∨ s.runsCommand .peqbLsb) ∧ 0 < j ∧ j < s.prefixBytes
  | .busy (.pairB j u) =>
    (s.runsCommand .peqbMsb ∨ s.runsCommand .peqbLsb) ∧ j < s.prefixBytes ∧
      s.reads.head? = some { addr := s.addrA j, answer := some u }

/-- The address of the read that the running command's next engine step holds; none where that step reads nothing
(R33, R91, R143). -/
def State.nextRead (s : State) : Option Nat :=
  match s.phase with
  | .idle => none
  | .busy (.scanAt j) => some (s.addrA j)
  | .busy (.pairA j) => some (s.addrA j)
  | .busy (.pairB j _) => some (s.addrB j)
  | .busy .start =>
    match decode s.lat.cmd with
    | .command .ffs => if s.scanStart < s.scanEnd then some (s.addrA s.firstByte) else none
    | .command .ffc => if s.scanStart < s.scanEnd then some (s.addrA s.firstByte) else none
    | .command .peqbMsb => if s.prefixLen = 0 then none else some (s.addrA 0)
    | .command .peqbLsb => if s.prefixLen = 0 then none else some (s.addrA 0)
    | _ => none

/-- The invariant of the machine. -/
structure State.Inv (s : State) : Prop where
  /-- R22. -/
  statusOk : StatusOk s.x.status
  /-- The phase equals STATUS.BUSY at every step (R30). -/
  phaseIsBusy : s.phase.isBusy = s.x.status.busy
  /-- CMD is the latched command word: R31 writes both, and nothing else does (R21, R29). -/
  cmdLatched : s.x.cmd = s.lat.cmd
  /-- R30. -/
  progress : s.progressOk
  /-- A read that is never answered is the one the engine's next step holds (R189). -/
  hangs : ∀ a, s.unanswered = some a → s.nextRead = some a
  /-- The memory keeps its canonical form. -/
  memoryWf : Memory.wf s.cfg.memSize s.mem = true

/-- The step that is due writes v to register r through the register port: by a bus access that the port accepts, or by
a `wr` statement of the programmed host (R27, R78). -/
def State.writesReg (s : State) (r : Reg) (v : Word) : Prop :=
  s.dueInput = .bus { addr := s.cfg.regBase + r.offset, bits := 64, op := .write v } ∨
  (s.dueInput = .program ∧ s.host.halted = false ∧ s.host.prog[s.host.pc]? = some (.wr r v))

/-- The step that is due completes the running command, with or without an error (R34, R35). -/
def State.completesInto (s t : State) : Prop :=
  (∃ a, s.dueInput = .engine a) ∧ s.phase.isBusy = true ∧ t.phase = .idle ∧ t.x.status.done = true

/-- n steps, stopping at the first that is not a next state. -/
def stepN : Nat → State → Host.Outcome State Fault Refusal
  | 0, s => .next s
  | n + 1, s =>
    match step s with
    | .next t => stepN n t
    | .fault r => .fault r
    | .refused r => .refused r

/-- The inputs of a run in which the engine alone moves and every read is answered with data. -/
def engineTurns (picks : List Nat) : List Input := picks.map (fun p => .engine (.data p))

/-- How many of a list of inputs are turns of the engine. -/
def countEngineTurns : List Input → Nat
  | [] => 0
  | .engine _ :: rest => countEngineTurns rest + 1
  | _ :: rest => countEngineTurns rest

/-- No reset, and no turn of the engine in which the memory never answers (the fairness assumption of R193). -/
def isFairInput : Input → Bool
  | .reset => false
  | .engine .never => false
  | _ => true

/-- No reset, and no turn of the engine in which the memory does not answer with data (R52). -/
def isAnsweredInput : Input → Bool
  | .reset => false
  | .engine .error => false
  | .engine .never => false
  | _ => true

/-- No store races a read of the byte at `a` during the inputs l: none among l stores to it, and every earlier store to
it was visible before the running command was accepted (R63, R64). -/
def State.Unraced (s : State) (l : List Input) (a : Nat) : Prop :=
  (∀ c ∈ s.held, c.1 ≠ a) ∧ (∀ c ∈ s.unpublished, c.1 ≠ a) ∧ ∀ v, Input.store a v ∉ l

/-- Command i was accepted and no engine step of it has run; the inputs l are due next, the engine has at least n turns
among them, and every read is answered with data. What the hosts do among l is open (R28). -/
structure State.Starts (s : State) (i : Instr) (l : List Input) (n : Nat) : Prop where
  phase : s.phase = .busy .start
  busy : s.x.status.busy = true
  command : s.runsCommand i
  answering : s.unanswered = none
  due : ∃ rest, s.inputs = l ++ rest
  answered : ∀ x ∈ l, isAnsweredInput x = true
  turns : n ≤ countEngineTurns l

/-- The command that runs in s completes without an error within the inputs l, into t: t is the first state of the run
in which the command runs no more. -/
structure State.CompletesWithin (s : State) (l : List Input) (t : State) : Prop where
  run : ∃ n, n ≤ l.length ∧ stepN n s = .next t ∧ ∀ m, m < n → ∃ u, stepN m s = .next u ∧ u.phase.isBusy = true
  phase : t.phase = .idle
  busy : t.x.status.busy = false
  done : t.x.status.done = true
  err : t.x.status.err = false
  errcode : t.x.status.errcode = 0#4
  lat : t.lat = s.lat

/-- A bound on the engine turns the running command still needs, when every read is answered: one for each byte of a
scan not yet read, two for each byte index of a buffer comparison (R33, R192); 0 when IDLE. -/
def State.turnsLeft (s : State) : Nat :=
  match s.phase with
  | .idle => 0
  | .busy (.scanAt j) => s.lastByte - j + 1
  | .busy (.pairA j) => 2 * (s.prefixBytes - j)
  | .busy (.pairB j _) => 2 * (s.prefixBytes - j) - 1
  | .busy .start =>
    match decode s.lat.cmd with
    | .command .ffs => if s.scanStart < s.scanEnd then s.lastByte - s.firstByte + 1 else 1
    | .command .ffc => if s.scanStart < s.scanEnd then s.lastByte - s.firstByte + 1 else 1
    | .command .peqbMsb => max 1 (2 * s.prefixBytes)
    | .command .peqbLsb => max 1 (2 * s.prefixBytes)
    | _ => 1

end Sys2Proof.Machine
end

