-- ==== Sys2Proof/Certificates/Slice0/Obligations.lean ====
section
/-! DEFINITION. The statements for the provers. Each docstring names the rules it formalises. A statement over every
state is over every value of the parameters of Config, every memory, every list of inputs and every answer of the memory. -/

open Sys2Proof Sys2Proof.Machine Sys2Proof.Reference

/-! ## Encoding -/

/-- A few words of R72, one of each family, written out from the map, decode to their commands; a word without an OPC
(R76), the unassigned 0x47 (R73) and a word with RSV != 0 (R76) are illegal. -/
def Obligations.SpecWordsDecode : Prop :=
  decode 0x0000000000000001#64 = .command .ffs ∧ decode 0x0000000000000013#64 = .command .lobit64 ∧
  decode 0x0000000000000021#64 = .command .popcnt64 ∧ decode 0x0000000000000032#64 = .command .rdn32 ∧
  decode 0x0000000000000045#64 = .command .peq64Lsb ∧ decode 0x0000000000000000#64 = .illegal .unassignedOpcode ∧
  decode 0x0000000000000047#64 = .illegal .unassignedOpcode ∧ decode 0x0000000100000001#64 = .illegal .reservedBits

/-- R71 with the map of R72: a word decodes to a command exactly when it is that command's row of the map. -/
def Obligations.DecodeIsTheOpcodeMap : Prop :=
  ∀ (c : Word) (i : Instr), decode c = .command i ↔
    (c.toNat, i) ∈ [(0x01, .ffs), (0x02, .ffc), (0x10, .hibit32), (0x11, .hibit64), (0x12, .lobit32), (0x13, .lobit64),
      (0x20, .parity32), (0x21, .popcnt64), (0x30, .rup32), (0x31, .rup64), (0x32, .rdn32), (0x33, .rdn64),
      (0x40, .peqbMsb), (0x41, .peqbLsb), (0x42, .peq32Msb), (0x43, .peq32Lsb), (0x44, .peq64Msb),
      ((0x45, .peq64Lsb) : Nat × Instr)]

/-- Decode and encode agree in both directions: the encoder's word decodes to the command, and no other word does. -/
def Obligations.DecodeEncodeInverse : Prop := ∀ (c : Word) (i : Instr), decode c = .command i ↔ c = encode i

/-- R76: the illegal words are those with RSV != 0 and those whose OPC is unassigned, 238 of the 256 OPC values, among
them 0x00; none is a no-op: an idle block accepts it, and the engine's next step ends it with ILLEGAL_CMD. -/
def Obligations.IllegalWords : Prop :=
  (∀ c : Word, (∃ why, decode c = .illegal why) ↔
    (c.extractLsb' 8 56 ≠ 0#56 ∨ c.extractLsb' 0 8 ∉ assignedOpcodes)) ∧
  ((List.range 256).filter (fun n => !assignedOpcodes.contains (BitVec.ofNat 8 n))).length = 238 ∧
  0x00#8 ∉ assignedOpcodes ∧
  (∀ (s : State) (c : Word) (why : IllegalWord) (a : MemAnswer) (rest : List Input), decode c = .illegal why →
    s.x.status.busy = false →
    s.inputs = .bus { addr := s.cfg.regBase, bits := 64, op := .write c } :: .engine a :: rest →
    ∃ t, stepN 2 s = .next t ∧ t.x.cmd = c ∧ t.x.status.busy = false ∧ t.x.status.done = true ∧
      t.x.status.err = true ∧ t.x.status.errcode = 1#4 ∧ t.x.result = 0#64 ∧ t.reads = s.reads)

/-! ## The step -/

/-- While BUSY the engine's turn runs the command that lat[CMD] decodes to (R33, R71): step is exec, after the due input
is taken and its answer stands in `answer`. The second clause is the model's choice for an exhausted list of inputs
(log 1). -/
def Obligations.StepRunsTheDecodedCommand : Prop :=
  ∀ (s : State) (p : Progress) (i : Instr), s.phase = .busy p → decode s.lat.cmd = .command i →
    (∀ (a : MemAnswer) (rest : List Input), s.inputs = .engine a :: rest →
      step s = exec i { s with inputs := rest, answer := a }) ∧
    (s.inputs = [] → step s = exec i { s with answer := .data 0 })

/-- R161: an illegal word ends in one step with ERR = 1, ERRCODE = 1, RESULT = 0, FOUND = 0, DONE = 1, BUSY = 0, without
a read and whatever the other latch fields hold; CMD still holds it. -/
def Obligations.IllegalCommandCompletes : Prop :=
  ∀ (s : State) (p : Progress) (why : IllegalWord) (a : MemAnswer) (rest : List Input),
    s.phase = .busy p → decode s.lat.cmd = .illegal why → s.inputs = .engine a :: rest →
    ∃ t, step s = .next t ∧ t.x.status.err = true ∧ t.x.status.errcode = 1#4 ∧ t.x.result = 0#64 ∧
      t.x.status.found = false ∧ t.x.status.done = true ∧ t.x.status.busy = false ∧
      t.x.status.ovr = s.x.status.ovr ∧ t.reads = s.reads ∧ t.x.cmd = s.x.cmd ∧ t.lat = s.lat ∧ t.phase = .idle ∧
      t.mem = s.mem

/-- "While BUSY = 0 the engine has no step" (R33; R176): its turn takes the input off the list and changes nothing of
the block, the memory or the hosts. -/
def Obligations.IdleEngineHasNoStep : Prop :=
  ∀ (s : State) (a : MemAnswer) (rest : List Input), s.phase = .idle → s.inputs = .engine a :: rest →
    step s = .next { s with inputs := rest, answer := a }

/-! ## The register port and the command lifecycle -/

/-- R31: a host Write(0x00, v) while BUSY = 0. It never completes a command, whatever v is. -/
def Obligations.AcceptanceStartsTheCommand : Prop :=
  ∀ (s : State) (v : Word) (rest : List Input), s.x.status.busy = false →
    s.inputs = .bus { addr := s.cfg.regBase + 0x00, bits := 64, op := .write v } :: rest →
    ∃ t, step s = .next t ∧ t.x.cmd = v ∧
      t.lat = { cmd := v, opa := s.x.opa, opb := s.x.opb, start := s.x.start, endOff := s.x.endOff, k := s.x.k } ∧
      t.x.status.busy = true ∧ t.x.status.done = false ∧ t.x.status.found = false ∧ t.x.status.err = false ∧
      t.x.status.errcode = 0#4 ∧ t.phase = .busy .start ∧ t.x.result = s.x.result ∧
      t.x.status.ovr = s.x.status.ovr ∧ t.x.status.reserved = s.x.status.reserved ∧ t.x.opa = s.x.opa ∧
      t.x.opb = s.x.opb ∧ t.x.start = s.x.start ∧ t.x.endOff = s.x.endOff ∧ t.x.k = s.x.k ∧ t.mem = s.mem ∧
      t.reads = s.reads ∧ t.cfg = s.cfg ∧ t.host = s.host ∧ t.inputs = rest

/-- R32: a host Write(0x00, v) while BUSY = 1 is dropped; it sets OVR and changes nothing else. -/
def Obligations.OverrunDropsTheWrite : Prop :=
  ∀ (s : State) (v : Word) (rest : List Input), s.x.status.busy = true →
    s.inputs = .bus { addr := s.cfg.regBase + 0x00, bits := 64, op := .write v } :: rest →
    ∃ w : Status, step s = .next { s with x := { s.x with status := w }, inputs := rest, reply := some .written } ∧
      w.ovr = true ∧ w.busy = s.x.status.busy ∧ w.done = s.x.status.done ∧ w.found = s.x.status.found ∧
      w.err = s.x.status.err ∧ w.errcode = s.x.status.errcode ∧ w.reserved = s.x.status.reserved

/-- R23: a host Write(0x08, v) sets OVR to 0 if v[8] = 1, and does nothing else. -/
def Obligations.StatusWriteClearsOvrOnly : Prop :=
  ∀ (s : State) (v : Word) (rest : List Input),
    s.inputs = .bus { addr := s.cfg.regBase + 0x08, bits := 64, op := .write v } :: rest →
    ∃ w : Status, step s = .next { s with x := { s.x with status := w }, inputs := rest, reply := some .written } ∧
      (v.getLsbD 8 = true → w.ovr = false) ∧ (v.getLsbD 8 = false → w = s.x.status) ∧
      w.busy = s.x.status.busy ∧ w.done = s.x.status.done ∧ w.found = s.x.status.found ∧
      w.err = s.x.status.err ∧ w.errcode = s.x.status.errcode ∧ w.reserved = s.x.status.reserved

/-- R24 and R187. First clause: a host write at the offset of an operand register, at any time, sets that register and
changes nothing else of the block: not the running command, which reads its latched copy. Second clause: an operand
register changes in no other way but by reset, which sets it to 0; so it holds the last value written, or 0 after reset. -/
def Obligations.OperandWritesChangeOneRegister : Prop :=
  (∀ (s : State) (v : Word) (off : Nat) (x' : Window) (rest : List Input),
    (off, x') ∈ [(0x10, { s.x with opa := v }), (0x18, { s.x with opb := v }), (0x20, { s.x with start := v }),
      (0x28, { s.x with endOff := v }), (0x30, { s.x with k := v })] →
    s.inputs = .bus { addr := s.cfg.regBase + off, bits := 64, op := .write v } :: rest →
    step s = .next { s with x := x', inputs := rest, reply := some .written }) ∧
  (∀ s t : State, step s = .next t →
    ∀ (r : Reg) (old new : Word), (r, old, new) ∈ [(Reg.opa, s.x.opa, t.x.opa), (Reg.opb, s.x.opb, t.x.opb),
      (Reg.start, s.x.start, t.x.start), (Reg.endOff, s.x.endOff, t.x.endOff), (Reg.k, s.x.k, t.x.k)] →
    new ≠ old → s.writesReg r new ∨ (s.dueInput = .reset ∧ new = 0#64))

/-- R27 and R164: which transactions the port accepts and what the others do. A Read returns the register at its offset
(R20 to R25) and changes no state of the block; a Write writes it, which for RESULT changes nothing (R25); a transaction of
another size or at an offset that is not a multiple of 8 gets a host bus error and changes no state of the block. -/
def Obligations.PortAcceptsWholeAlignedRegisters : Prop :=
  ∀ (s : State) (off bits : Nat) (op : BusOp) (rest : List Input), off < 0x40 →
    s.inputs = .bus { addr := s.cfg.regBase + off, bits := bits, op := op } :: rest →
    (bits = 64 → off % 8 = 0 →
      (op = .read → ∃ value : Word,
        (off, value) ∈ [(0x00, s.x.cmd), (0x08, s.x.status), (0x10, s.x.opa), (0x18, s.x.opb), (0x20, s.x.start),
          (0x28, s.x.endOff), (0x30, s.x.k), (0x38, s.x.result)] ∧
        step s = .next { s with inputs := rest, reply := some (.data value) }) ∧
      (∀ v, op = .write v → ∃ r : Reg, r.offset = off ∧
        step s = .next { (State.writeReg { s with inputs := rest } r v) with reply := some .written }) ∧
      (∀ v, op = .write v → off = 0x38 → step s = .next { s with inputs := rest, reply := some .written })) ∧
    (bits ≠ 64 ∨ off % 8 ≠ 0 → step s = .next { s with inputs := rest, reply := some .busError })

/-- R34: complete(found, result), and everything it leaves as it was. -/
def Obligations.CompletionWrites : Prop :=
  ∀ (s : State) (found : Bool) (result : Word), ∃ w : Status,
    s.complete found result = { s with x := { s.x with result := result, status := w }, phase := .idle } ∧
    w.found = found ∧ w.err = false ∧ w.errcode = 0#4 ∧ w.done = true ∧ w.busy = false ∧ w.ovr = s.x.status.ovr ∧
    w.reserved = s.x.status.reserved

/-- R35: fail(code, result), and everything it leaves as it was. -/
def Obligations.ErrorCompletionWrites : Prop :=
  ∀ (s : State) (code : BitVec 4) (result : Word), ∃ w : Status,
    s.fail code result = { s with x := { s.x with result := result, status := w }, phase := .idle } ∧
    w.found = false ∧ w.err = true ∧ w.errcode = code ∧ w.done = true ∧ w.busy = false ∧ w.ovr = s.x.status.ovr ∧
    w.reserved = s.x.status.reserved

/-! ## Reset -/

/-- R180 and R181: reset, at any time, sets every piece of the block's state to its reset value, abandons a running
command, gives up a read that is never answered (log 6), and touches nothing else. -/
def Obligations.ResetClearsTheBlock : Prop :=
  ∀ (s : State) (rest : List Input), s.inputs = .reset :: rest →
    step s = .next { s with
      x := { cmd := 0#64, status := 0#64, opa := 0#64, opb := 0#64, start := 0#64, endOff := 0#64, k := 0#64,
             result := 0#64 }
      lat := { cmd := 0#64, opa := 0#64, opb := 0#64, start := 0#64, endOff := 0#64, k := 0#64 }
      phase := .idle
      unanswered := none
      inputs := rest }

/-- R41: the value of every piece of the block's state after reset. -/
def Obligations.ResetValues : Prop :=
  State.reset.x = { cmd := 0#64, status := 0#64, opa := 0#64, opb := 0#64, start := 0#64, endOff := 0#64, k := 0#64,
                    result := 0#64 } ∧
  State.reset.lat = { cmd := 0#64, opa := 0#64, opb := 0#64, start := 0#64, endOff := 0#64, k := 0#64 } ∧
  State.reset.phase = .idle

/-! ## The word commands: the result, which is also where each completes -/

/-- R111 and R112 with HI_W of R110: in every state HIBIT32 and HIBIT64 complete, with FOUND = 0 and RESULT = ONES64 for
a zero word, otherwise with FOUND = 1 and RESULT the index of the highest set bit. -/
def Obligations.HighestSetBitCommands : Prop :=
  ∀ s : State,
    decode 0x0000000000000010#64 = .command .hibit32 ∧ decode 0x0000000000000011#64 = .command .hibit64 ∧
    ((s.lat.opa.setWidth 32 = 0#32 ∧ exec .hibit32 s = .next (s.complete false 0xFFFFFFFFFFFFFFFF#64)) ∨
     (∃ i, IsHighest (s.lat.opa.setWidth 32) i ∧ exec .hibit32 s = .next (s.complete true (BitVec.ofNat 64 i)))) ∧
    ((s.lat.opa = 0#64 ∧ exec .hibit64 s = .next (s.complete false 0xFFFFFFFFFFFFFFFF#64)) ∨
     (∃ i, IsHighest s.lat.opa i ∧ exec .hibit64 s = .next (s.complete true (BitVec.ofNat 64 i))))

/-- R113 and R114 with LO_W of R110: LOBIT32 and LOBIT64, as HighestSetBitCommands with the lowest set bit. -/
def Obligations.LowestSetBitCommands : Prop :=
  ∀ s : State,
    decode 0x0000000000000012#64 = .command .lobit32 ∧ decode 0x0000000000000013#64 = .command .lobit64 ∧
    ((s.lat.opa.setWidth 32 = 0#32 ∧ exec .lobit32 s = .next (s.complete false 0xFFFFFFFFFFFFFFFF#64)) ∨
     (∃ i, IsLowest (s.lat.opa.setWidth 32) i ∧ exec .lobit32 s = .next (s.complete true (BitVec.ofNat 64 i)))) ∧
    ((s.lat.opa = 0#64 ∧ exec .lobit64 s = .next (s.complete false 0xFFFFFFFFFFFFFFFF#64)) ∨
     (∃ i, IsLowest s.lat.opa i ∧ exec .lobit64 s = .next (s.complete true (BitVec.ofNat 64 i))))

/-- R120 and R121: PARITY32 completes with ones(a) mod 2, POPCNT64 with ones(a), which is at most 64; FOUND = 0. -/
def Obligations.ParityAndPopulationCount : Prop :=
  ∀ s : State,
    decode 0x0000000000000020#64 = .command .parity32 ∧ decode 0x0000000000000021#64 = .command .popcnt64 ∧
    exec .parity32 s = .next (s.complete false (BitVec.ofNat 64 (onesCount (s.lat.opa.setWidth 32) % 2))) ∧
    onesCount s.lat.opa ≤ 64 ∧ exec .popcnt64 s = .next (s.complete false (BitVec.ofNat 64 (onesCount s.lat.opa)))

/-- R131 and R132 with RUP_W of R130, for both values of RUP_TOPBIT_ZERO. -/
def Obligations.RoundUpCommands : Prop :=
  ∀ s : State,
    decode 0x0000000000000030#64 = .command .rup32 ∧ decode 0x0000000000000031#64 = .command .rup64 ∧
    (∃ y, IsRoundUp 32 s.cfg.rupTopbitZero (s.lat.opa.setWidth 32).toNat y ∧ y < 2 ^ 32 ∧
      exec .rup32 s = .next (s.complete false (BitVec.ofNat 64 y))) ∧
    (∃ y, IsRoundUp 64 s.cfg.rupTopbitZero s.lat.opa.toNat y ∧ y < 2 ^ 64 ∧
      exec .rup64 s = .next (s.complete false (BitVec.ofNat 64 y)))

/-- R133 and R134 with RDN_W of R130. -/
def Obligations.RoundDownCommands : Prop :=
  ∀ s : State,
    decode 0x0000000000000032#64 = .command .rdn32 ∧ decode 0x0000000000000033#64 = .command .rdn64 ∧
    (∃ y, IsRoundDown 32 (s.lat.opa.setWidth 32).toNat y ∧ y < 2 ^ 32 ∧
      exec .rdn32 s = .next (s.complete false (BitVec.ofNat 64 y))) ∧
    (∃ y, IsRoundDown 64 s.lat.opa.toNat y ∧ y < 2 ^ 64 ∧
      exec .rdn64 s = .next (s.complete false (BitVec.ofNat 64 y)))

/-- R144 and R146 with PFX_MSB_W of R140: RESULT = 1 exactly when the top min(k, W) bits agree; FOUND = 0. -/
def Obligations.WordPrefixMsbCommands : Prop :=
  ∀ s : State,
    decode 0x0000000000000042#64 = .command .peq32Msb ∧ decode 0x0000000000000044#64 = .command .peq64Msb ∧
    (∃ eq : Bool, (eq = true ↔ PrefixMsb (s.lat.opa.setWidth 32 : BitVec 32) (s.lat.opb.setWidth 32) s.lat.k.toNat) ∧
      exec .peq32Msb s = .next (s.complete false (if eq then 1#64 else 0#64))) ∧
    (∃ eq : Bool, (eq = true ↔ PrefixMsb s.lat.opa s.lat.opb s.lat.k.toNat) ∧
      exec .peq64Msb s = .next (s.complete false (if eq then 1#64 else 0#64)))

/-- R145 and R147 with PFX_LSB_W of R140: RESULT = 1 exactly when the bottom min(k, W) bits agree; FOUND = 0. -/
def Obligations.WordPrefixLsbCommands : Prop :=
  ∀ s : State,
    decode 0x0000000000000043#64 = .command .peq32Lsb ∧ decode 0x0000000000000045#64 = .command .peq64Lsb ∧
    (∃ eq : Bool, (eq = true ↔ PrefixLsb (s.lat.opa.setWidth 32 : BitVec 32) (s.lat.opb.setWidth 32) s.lat.k.toNat) ∧
      exec .peq32Lsb s = .next (s.complete false (if eq then 1#64 else 0#64))) ∧
    (∃ eq : Bool, (eq = true ↔ PrefixLsb s.lat.opa s.lat.opb s.lat.k.toNat) ∧
      exec .peq64Lsb s = .next (s.complete false (if eq then 1#64 else 0#64)))

/-! ## The memory commands, one engine step -/

/-- R98: FFS and FFC over an empty range complete with not found, without a read. -/
def Obligations.ScanOfEmptyRange : Prop :=
  ∀ s : State, s.phase = .busy .start → s.lat.endOff.toNat ≤ s.lat.start.toNat →
    exec .ffs s = .next (s.complete false 0xFFFFFFFFFFFFFFFF#64) ∧
    exec .ffc s = .next (s.complete false 0xFFFFFFFFFFFFFFFF#64)

/-- One engine step of SCAN (R91) over a byte the memory answers. From the start of a non-empty range it is byte
s = start div 8, later the byte of the progress point. It reads EA(base, j), tests exactly the bits of byte j that lie in
[start, end), and either completes with the lowest match, or goes on to byte j + 1, or after byte (end - 1) div 8
completes with not found. Here FFS and FFC complete or move on. -/
def Obligations.ScanStepTestsOneByte : Prop :=
  ∀ (i : Instr) (pol : Bool), (i, pol) ∈ [(Instr.ffs, true), (Instr.ffc, false)] →
  ∀ (s : State) (p j : Nat), s.unanswered = none → s.answer = .data p → s.lat.start.toNat < s.lat.endOff.toNat →
    ((s.phase = .busy .start ∧ j = s.lat.start.toNat / 8) ∨
     (s.phase = .busy (.scanAt j) ∧ s.lat.start.toNat / 8 < j ∧ j ≤ (s.lat.endOff.toNat - 1) / 8)) →
    ∀ (addr : Nat) (v : Byte) (t : State), addr = (s.lat.opa.toNat + j) % 2 ^ s.cfg.pAddrW → v = s.byteSeen addr p →
      t = { s with reads := { addr := addr, answer := some v } :: s.reads } →
      (∀ n, n / 8 = j → s.lat.start.toNat ≤ n → n < s.lat.endOff.toNat → v.getLsbD (n % 8) = pol →
        (∀ m, m / 8 = j → s.lat.start.toNat ≤ m → m < n → v.getLsbD (m % 8) ≠ pol) →
        exec i s = .next (t.complete true (BitVec.ofNat 64 n))) ∧
      ((∀ n, n / 8 = j → s.lat.start.toNat ≤ n → n < s.lat.endOff.toNat → v.getLsbD (n % 8) ≠ pol) →
        exec i s = .next (if j < (s.lat.endOff.toNat - 1) / 8 then { t with phase := .busy (.scanAt (j + 1)) }
          else t.complete false 0xFFFFFFFFFFFFFFFF#64))

/-- The step of PEQB (R143) that reads A[j]: with k = 0 it completes with "equal", without a read; otherwise it reads
EA(A, j), and holds the byte the memory answers for the comparison with B[j]. -/
def Obligations.BufferPrefixReadsA : Prop :=
  ∀ (i : Instr), i ∈ [Instr.peqbMsb, Instr.peqbLsb] →
  ∀ s : State,
    (s.phase = .busy .start → s.lat.k.toNat = 0 → exec i s = .next (s.complete false 1#64)) ∧
    (∀ p j : Nat, s.unanswered = none → s.answer = .data p →
      ((s.phase = .busy .start ∧ 0 < s.lat.k.toNat ∧ j = 0) ∨ s.phase = .busy (.pairA j)) →
      ∀ (addr : Nat) (u : Byte), addr = (s.lat.opa.toNat + j) % 2 ^ s.cfg.pAddrW → u = s.byteSeen addr p →
        exec i s = .next { s with reads := { addr := addr, answer := some u } :: s.reads, phase := .busy (.pairB j u) })

/-- One engine step of PEQB (R143) over a B byte the memory answers: it reads EA(B, j), compares the stream bits of
byte j below k in the command's order (R140), and completes with 0 when they differ, goes on to A[j + 1] when more bits
are left, and otherwise completes with 1. -/
def Obligations.BufferPrefixComparesPair : Prop :=
  ∀ (i : Instr) (order : BitOrder), (i, order) ∈ [(Instr.peqbMsb, BitOrder.msb), (Instr.peqbLsb, BitOrder.lsb)] →
  ∀ (s : State) (p j : Nat) (u : Byte), s.unanswered = none → s.answer = .data p → s.phase = .busy (.pairB j u) →
    8 * j < s.lat.k.toNat →
    ∀ (addr : Nat) (v : Byte) (t : State), addr = (s.lat.opb.toNat + j) % 2 ^ s.cfg.pAddrW → v = s.byteSeen addr p →
      t = { s with reads := { addr := addr, answer := some v } :: s.reads } →
      ((∀ n, n / 8 = j → n < s.lat.k.toNat → streamBit order (fun _ => u) n = streamBit order (fun _ => v) n) →
        exec i s = .next (if 8 * (j + 1) < s.lat.k.toNat then { t with phase := .busy (.pairA (j + 1)) }
          else t.complete false 1#64)) ∧
      (∀ n, n / 8 = j → n < s.lat.k.toNat → streamBit order (fun _ => u) n ≠ streamBit order (fun _ => v) n →
        exec i s = .next (t.complete false 0#64))

/-- R162: a read of FFS, FFC or PEQB that answers `error` ends the command with ERR = 1, ERRCODE = 2 and RESULT = the
effective address, zero-extended; no further read is issued. -/
def Obligations.BusErrorEndsTheCommand : Prop :=
  ∀ (s : State) (i : Instr) (addr : Nat), s.unanswered = none → s.answer = .error →
    ((i ∈ [Instr.ffs, Instr.ffc] ∧
        ((s.phase = .busy .start ∧ s.lat.start.toNat < s.lat.endOff.toNat ∧
            addr = (s.lat.opa.toNat + s.lat.start.toNat / 8) % 2 ^ s.cfg.pAddrW) ∨
         (∃ j, s.phase = .busy (.scanAt j) ∧ addr = (s.lat.opa.toNat + j) % 2 ^ s.cfg.pAddrW))) ∨
     (i ∈ [Instr.peqbMsb, Instr.peqbLsb] ∧
        ((s.phase = .busy .start ∧ 0 < s.lat.k.toNat ∧ addr = s.lat.opa.toNat % 2 ^ s.cfg.pAddrW) ∨
         (∃ j, s.phase = .busy (.pairA j) ∧ addr = (s.lat.opa.toNat + j) % 2 ^ s.cfg.pAddrW) ∨
         (∃ j u, s.phase = .busy (.pairB j u) ∧ addr = (s.lat.opb.toNat + j) % 2 ^ s.cfg.pAddrW)))) →
    ∃ t, exec i s = .next t ∧ t.x.status.err = true ∧ t.x.status.errcode = 2#4 ∧ t.x.result.toNat = addr ∧
      t.x.status.found = false ∧ t.x.status.done = true ∧ t.x.status.busy = false ∧ t.phase = .idle ∧
      t.reads = { addr := addr, answer := none } :: s.reads ∧ t.x.cmd = s.x.cmd ∧ t.lat = s.lat

/-- R189 with R52. First clause: at every point where a command reads, a read that the memory never answers stays on the
port, and nothing else changes. Second: from then on no step but reset lets the engine move: BUSY, the phase, the latch, the
reads and RESULT stay, and a CMD write sets OVR and is dropped. Third: so no run without a reset completes the command,
however long, and whatever the memory would answer later. Last: reset makes the engine idle. That the read stands in
`unanswered`, and that the stuck engine's turn changes nothing, is the model's form (DESIGN CHOICE, log 6). -/
def Obligations.UnansweredReadHangsUntilReset : Prop :=
  (∀ (s : State) (i : Instr) (addr : Nat), s.unanswered = none → s.answer = .never →
    ((i ∈ [Instr.ffs, Instr.ffc] ∧
        ((s.phase = .busy .start ∧ s.lat.start.toNat < s.lat.endOff.toNat ∧
            addr = (s.lat.opa.toNat + s.lat.start.toNat / 8) % 2 ^ s.cfg.pAddrW) ∨
         (∃ j, s.phase = .busy (.scanAt j) ∧ addr = (s.lat.opa.toNat + j) % 2 ^ s.cfg.pAddrW))) ∨
     (i ∈ [Instr.peqbMsb, Instr.peqbLsb] ∧
        ((s.phase = .busy .start ∧ 0 < s.lat.k.toNat ∧ addr = s.lat.opa.toNat % 2 ^ s.cfg.pAddrW) ∨
         (∃ j, s.phase = .busy (.pairA j) ∧ addr = (s.lat.opa.toNat + j) % 2 ^ s.cfg.pAddrW) ∨
         (∃ j u, s.phase = .busy (.pairB j u) ∧ addr = (s.lat.opb.toNat + j) % 2 ^ s.cfg.pAddrW)))) →
    exec i s = .next { s with unanswered := some addr }) ∧
  (∀ s t : State, s.Inv → s.unanswered ≠ none → s.dueInput ≠ .reset → step s = .next t →
    t.unanswered = s.unanswered ∧ t.x.status.busy = true ∧ t.phase = s.phase ∧ t.lat = s.lat ∧ t.reads = s.reads ∧
    t.x.result = s.x.result ∧ ∀ v, s.writesReg .cmd v → t.x.status.ovr = true ∧ t.x.cmd = s.x.cmd) ∧
  (∀ (n : Nat) (s : State), s.Inv → s.unanswered ≠ none → .reset ∉ s.inputs.take n →
    ∃ t, stepN n s = .next t ∧ t.unanswered = s.unanswered ∧ t.x.status.busy = true ∧ t.phase = s.phase ∧
      t.reads = s.reads) ∧
  (∀ s : State, s.dueInput = .reset →
    ∃ t, step s = .next t ∧ t.unanswered = none ∧ t.x.status.busy = false ∧ t.phase = .idle)

/-! ## The memory commands, whole -/

/-- R94, with R91 to R93: FFS and FFC, from acceptance on, whatever the hosts do meanwhile (R28), complete with FIRST(pol)
of R90 when every read is answered with data and no store races a byte of [s, e]. The reads are the bytes s, s + 1, ... up
to the byte of the match, or up to e, each once (R91). One engine turn for each byte of [s, e] is enough. -/
def Obligations.ScanComputesFirstMatch : Prop :=
  ∀ (i : Instr) (pol : Bool), (i, pol) ∈ [(Instr.ffs, true), (Instr.ffc, false)] →
  ∀ (s : State) (l : List Input) (start stop : Nat) (ea : Nat → Nat) (readOf : Nat → PortRead),
    start = s.lat.start.toNat → stop = s.lat.endOff.toNat → ea = (fun j => (s.lat.opa.toNat + j) % 2 ^ s.cfg.pAddrW) →
    readOf = (fun j => { addr := ea j, answer := some (bytesA s j) }) →
    s.Starts i l ((stop - 1) / 8 - start / 8 + 1) →
    (∀ j, start / 8 ≤ j → j ≤ (stop - 1) / 8 → s.Unraced l (ea j)) →
    ∃ t, s.CompletesWithin l t ∧
      ((∃ n, IsFirstMatch pol (bytesA s) start stop n ∧ t.x.status.found = true ∧ t.x.result.toNat = n ∧
          t.reads = ((List.range' (start / 8) (n / 8 - start / 8 + 1)).map readOf).reverse ++ s.reads) ∨
       (NoMatch pol (bytesA s) start stop ∧ t.x.status.found = false ∧ t.x.result = 0xFFFFFFFFFFFFFFFF#64 ∧
          t.reads = (if start < stop then
            ((List.range' (start / 8) ((stop - 1) / 8 - start / 8 + 1)).map readOf).reverse else []) ++ s.reads))

/-- R141 and R142: PEQB_MSB and PEQB_LSB, from acceptance on, whatever the hosts do meanwhile (R28), complete with
PFXB_MSB and PFXB_LSB of R140 when every read is answered with data and no store races a byte of either prefix. The reads
are A[0], B[0], A[1], B[1], ... (R143): of every index below ceil(k / 8) when the prefixes agree, and otherwise up to the
first index at which they differ. -/
def Obligations.BufferPrefixComparesStreams : Prop :=
  ∀ (i : Instr) (order : BitOrder), (i, order) ∈ [(Instr.peqbMsb, BitOrder.msb), (Instr.peqbLsb, BitOrder.lsb)] →
  ∀ (s : State) (l : List Input) (k : Nat) (eaA eaB : Nat → Nat) (readsOf : Nat → List PortRead),
    k = s.lat.k.toNat → eaA = (fun j => (s.lat.opa.toNat + j) % 2 ^ s.cfg.pAddrW) →
    eaB = (fun j => (s.lat.opb.toNat + j) % 2 ^ s.cfg.pAddrW) →
    readsOf = (fun j => [{ addr := eaA j, answer := some (bytesA s j) }, { addr := eaB j, answer := some (bytesB s j) }]) →
    s.Starts i l (max 1 (2 * ((k + 7) / 8))) →
    (∀ j, j < (k + 7) / 8 → s.Unraced l (eaA j) ∧ s.Unraced l (eaB j)) →
    ∃ t m, s.CompletesWithin l t ∧ t.x.status.found = false ∧
      t.reads = ((List.range m).flatMap readsOf).reverse ++ s.reads ∧
      ((BufferPrefix order (bytesA s) (bytesB s) k ∧ t.x.result = 1#64 ∧ m = (k + 7) / 8) ∨
       (¬BufferPrefix order (bytesA s) (bytesB s) k ∧ t.x.result = 0#64 ∧ 0 < m ∧ m ≤ (k + 7) / 8 ∧
          BufferPrefix order (bytesA s) (bytesB s) (8 * (m - 1)) ∧
          ¬BufferPrefix order (bytesA s) (bytesB s) (min k (8 * m))))

/-- R96: FFS over a bitmap and FFC over its byte-wise complement give the same FOUND and the same RESULT, whatever the
hosts do meanwhile; the two blocks may differ in everything else. -/
def Obligations.ScanComplementSymmetry : Prop :=
  ∀ (s s' : State) (l l' : List Input) (start stop : Nat),
    start = s.lat.start.toNat → stop = s.lat.endOff.toNat → s'.lat.start = s.lat.start → s'.lat.endOff = s.lat.endOff →
    s.Starts .ffs l ((stop - 1) / 8 - start / 8 + 1) → s'.Starts .ffc l' ((stop - 1) / 8 - start / 8 + 1) →
    (∀ j, start / 8 ≤ j → j ≤ (stop - 1) / 8 →
      s.Unraced l (s.addrA j) ∧ s'.Unraced l' (s'.addrA j) ∧ bytesA s' j = ~~~ bytesA s j) →
    ∃ t t', s.CompletesWithin l t ∧ s'.CompletesWithin l' t' ∧
      t.x.status.found = t'.x.status.found ∧ t.x.result = t'.x.result

/-- R97: FFS over [start, end), and FFS over [start', end) of the same bitmap, both complete; where the first returned
index n and start' = n + 1, the second returns an index greater than n, or not found. The same for FFC. -/
def Obligations.ScanForwardProgress : Prop :=
  ∀ (i : Instr), i ∈ [Instr.ffs, Instr.ffc] →
  ∀ (s s' : State) (l l' : List Input) (start start' stop : Nat),
    start = s.lat.start.toNat → start' = s'.lat.start.toNat → stop = s.lat.endOff.toNat → s'.lat.endOff = s.lat.endOff →
    s.Starts i l ((stop - 1) / 8 - start / 8 + 1) → s'.Starts i l' ((stop - 1) / 8 - start' / 8 + 1) →
    (∀ j, start / 8 ≤ j → j ≤ (stop - 1) / 8 → s.Unraced l (s.addrA j)) →
    (∀ j, start' / 8 ≤ j → j ≤ (stop - 1) / 8 → s'.Unraced l' (s'.addrA j) ∧ bytesA s' j = bytesA s j) →
    ∃ t t', s.CompletesWithin l t ∧ s'.CompletesWithin l' t' ∧
      (t.x.status.found = true → start' = t.x.result.toNat + 1 → t'.x.status.found = true →
        t.x.result.toNat < t'.x.result.toNat)

/-! ## Memory, races and visibility -/

/-- R52 and R64: the value a read returns is the byte the memory holds, or one that a racing or unpublished store
replaced; every such value is admitted by some pick; with neither, it is the byte the memory holds. The lists `held` and
`unpublished` are the model's form of R63 and R64 (log 5). -/
def Obligations.ReadReturnsAValueTheByteHeld : Prop :=
  ∀ (s : State) (a : Nat),
    (∀ p, s.byteSeen a p = Memory.read s.mem a ∨ (a, s.byteSeen a p) ∈ s.held ∨ (a, s.byteSeen a p) ∈ s.unpublished) ∧
    (∀ v, v = Memory.read s.mem a ∨ (a, v) ∈ s.held ∨ (a, v) ∈ s.unpublished → ∃ p, s.byteSeen a p = v) ∧
    ((∀ c ∈ s.held, c.1 ≠ a) → (∀ c ∈ s.unpublished, c.1 ≠ a) → ∀ p, s.byteSeen a p = Memory.read s.mem a)

/-- R63 and R64: after a store, its byte reads as stored and every other byte as before; the value it replaced can still
be read until it is made visible, and, when a command runs, for the rest of that command. -/
def Obligations.StoreReplacesOneByte : Prop :=
  ∀ (s : State) (a : Nat) (v : Byte) (rest : List Input), s.Inv → a < s.cfg.memSize →
    s.inputs = .store a v :: rest →
    ∃ t, step s = .next t ∧ (∀ a', Memory.read t.mem a' = if a' = a then v else Memory.read s.mem a') ∧
      t.unpublished = (a, Memory.read s.mem a) :: s.unpublished ∧
      t.held = (if s.x.status.busy then (a, Memory.read s.mem a) :: s.held else s.held) ∧
      t.x = s.x ∧ t.lat = s.lat ∧ t.phase = s.phase ∧ t.unanswered = s.unanswered ∧ t.reads = s.reads ∧
      t.cfg = s.cfg ∧ t.host = s.host

/-- R63: a command accepted after every store was made visible reads the bytes the memory holds, until a store races
it. The candidate lists (log 5) and a publish of every store at once (log 24) are the model's choices. -/
def Obligations.PublishedStoresAreRead : Prop :=
  ∀ (s : State) (v : Word) (rest : List Input), s.x.status.busy = false →
    s.inputs = .publish :: .bus { addr := s.cfg.regBase, bits := 64, op := .write v } :: rest →
    ∃ t, stepN 2 s = .next t ∧ t.mem = s.mem ∧ t.lat.cmd = v ∧ ∀ a p, t.byteSeen a p = Memory.read s.mem a

/-- While a command runs on, every value that a read of a byte could return it can still return, so a racing read may
return "any one 8-bit value that the byte held between acceptance and the read" (R64). The lists of candidate values are
the model's form of R63 and R64 (DESIGN CHOICE, log 5), and that stores made visible in the middle of a command leave the
values they replaced admitted is the model's inference (DEDUCED, log 15). -/
def Obligations.HeldValuesStayAdmitted : Prop :=
  ∀ s t : State, step s = .next t → s.x.status.busy = true → t.x.status.busy = true →
    ∀ a p, ∃ p', t.byteSeen a p' = s.byteSeen a p

/-- No step but a store changes a byte of memory. That no command of the engine writes memory is R3 and R39. That the
reset input leaves memory is the model's inference (R180 names only the block's state; DEDUCED, log 10), and that a read
leaves every byte as it was is the model's choice (DESIGN CHOICE, log 17). -/
def Obligations.OnlyStoresWriteMemory : Prop :=
  ∀ s t : State, step s = .next t → (∀ a v, s.dueInput ≠ .store a v) →
    t.mem = s.mem ∧ ∀ a, Memory.read t.mem a = Memory.read s.mem a

/-- R33, R61 and R62: a step performs at most one read, and only an engine step of a running memory command does; so no
read of a command is performed before its acceptance or after its completion. -/
def Obligations.ReadsOnlyWhileTheCommandRuns : Prop :=
  ∀ s t : State, step s = .next t → t.reads ≠ s.reads →
    (∃ r, t.reads = r :: s.reads) ∧ (∃ a, s.dueInput = .engine a) ∧ s.phase.isBusy = true ∧
      ∃ i, decode s.lat.cmd = .command i ∧ i ∈ [Instr.ffs, Instr.ffc, Instr.peqbMsb, Instr.peqbLsb]

/-! ## Frames -/

/-- What an engine step of any command leaves unchanged: CMD, the operand registers, OVR and the reserved bits of STATUS,
the latch, the parameters, every byte of memory, and the hosts. Only RESULT, the command fields of STATUS, the phase and
the record of reads can change; and while the command runs on, RESULT and STATUS do not change either. A read that the
memory never answers is left on the port, and then nothing else changes at all (log 6). -/
def Obligations.ExecFrame : Prop :=
  ∀ (i : Instr) (s t : State), exec i s = .next t →
    t.x.cmd = s.x.cmd ∧ t.x.opa = s.x.opa ∧ t.x.opb = s.x.opb ∧ t.x.start = s.x.start ∧ t.x.endOff = s.x.endOff ∧
    t.x.k = s.x.k ∧ t.x.status.ovr = s.x.status.ovr ∧ t.x.status.reserved = s.x.status.reserved ∧ t.lat = s.lat ∧
    t.cfg = s.cfg ∧ t.mem = s.mem ∧ (∀ a, Memory.read t.mem a = Memory.read s.mem a) ∧ t.unpublished = s.unpublished ∧
    t.held = s.held ∧ t.answer = s.answer ∧ t.inputs = s.inputs ∧ t.reply = s.reply ∧ t.host = s.host ∧
    (t.unanswered = s.unanswered ∨
      (s.unanswered = none ∧ s.answer = .never ∧ t = { s with unanswered := t.unanswered })) ∧
    (t.phase ≠ .idle → t.x = s.x)

/-- R22 (FOUND) with D8: a command that completes with FOUND = 1 is a search, and it completed without an error. -/
def Obligations.FoundOnlyBySearches : Prop :=
  ∀ (i : Instr) (s t : State), s.phase.isBusy = true → exec i s = .next t → t.phase = .idle →
    t.x.status.found = true →
    i ∈ [Instr.ffs, Instr.ffc, Instr.hibit32, Instr.hibit64, Instr.lobit32, Instr.lobit64] ∧ t.x.status.err = false

/-- R50, R160 and R166: the word commands complete in one step without an error and without a read, whatever the
memory would answer. -/
def Obligations.WordCommandsTakeOneStep : Prop :=
  ∀ (i : Instr) (s : State), i ∉ [Instr.ffs, Instr.ffc, Instr.peqbMsb, Instr.peqbLsb] →
    ∃ t, exec i s = .next t ∧ t.phase = .idle ∧ t.x.status.busy = false ∧ t.x.status.done = true ∧
      t.x.status.err = false ∧ t.x.status.errcode = 0#4 ∧ t.reads = s.reads

/-- R28 and R166: a CMD write that meets a completion takes effect in the order of the two moves. The completion is any:
of a word command, of the last step of FFS, FFC or PEQB with a data or an error answer, of an illegal word. Before it the
write is dropped with OVR, and the command completes as it would have; after it the write is accepted. -/
def Obligations.WriteAndCompletionInEitherOrder : Prop :=
  ∀ (s u : State) (v : Word) (a : MemAnswer) (rest : List Input) (write : Input),
    s.phase.isBusy = true → s.x.status.busy = true →
    step { s with inputs := .engine a :: rest } = .next u → u.phase = .idle →
    write = .bus { addr := s.cfg.regBase, bits := 64, op := .write v } →
    (∃ t, stepN 2 { s with inputs := write :: .engine a :: rest } = .next t ∧ t.phase = .idle ∧ t.x.cmd = s.x.cmd ∧
      t.x.result = u.x.result ∧ t.x.status.busy = false ∧ t.x.status.done = true ∧ t.x.status.ovr = true ∧
      t.x.status.found = u.x.status.found ∧ t.x.status.err = u.x.status.err ∧
      t.x.status.errcode = u.x.status.errcode ∧ t.lat = s.lat ∧ t.reads = u.reads) ∧
    (∃ t, stepN 2 { s with inputs := .engine a :: write :: rest } = .next t ∧ t.phase = .busy .start ∧ t.x.cmd = v ∧
      t.lat = { cmd := v, opa := s.x.opa, opb := s.x.opb, start := s.x.start, endOff := s.x.endOff, k := s.x.k } ∧
      t.x.status.busy = true ∧ t.x.status.done = false ∧ t.x.result = u.x.result ∧
      t.x.status.ovr = s.x.status.ovr ∧ t.reads = u.reads)

/-! ## Rules of the whole machine -/

/-- The invariant of the model holds at reset. -/
def Obligations.ResetMeetsTheInvariant : Prop := State.reset.Inv

/-- Every step of every agent keeps the invariant: STATUS as R22 says, the phase equal to STATUS.BUSY (R30), CMD the
latched command word, the progress point one of the running command (R30), a read that is never answered the one the
engine's next step holds (R189), and the memory canonical. -/
def Obligations.StepKeepsTheInvariant : Prop := ∀ s t : State, s.Inv → step s = .next t → t.Inv

/-- From every state that meets the invariant the machine goes on: no step faults or refuses, whatever agent is due and
however the memory answers. -/
def Obligations.StepNeverStops : Prop := ∀ s : State, s.Inv → ∃ t, step s = .next t

/-- R29: the latch changes only by an acceptance, or by reset. -/
def Obligations.LatchChangesOnlyByAcceptance : Prop :=
  ∀ s t : State, step s = .next t → t.lat ≠ s.lat →
    (∃ v, s.writesReg .cmd v ∧ s.x.status.busy = false ∧
      t.lat = { cmd := v, opa := s.x.opa, opb := s.x.opb, start := s.x.start, endOff := s.x.endOff, k := s.x.k }) ∨
    (s.dueInput = .reset ∧ t.lat = { cmd := 0#64, opa := 0#64, opb := 0#64, start := 0#64, endOff := 0#64, k := 0#64 })

/-- R25: RESULT is read only: a host write to it changes nothing of the window, and only a completion, or reset, changes
it; its reset value is 0. -/
def Obligations.ResultChangesOnlyByCompletion : Prop :=
  (∀ (s t : State) (v : Word), s.writesReg .result v → step s = .next t → t.x = s.x) ∧
  (∀ s t : State, step s = .next t → t.x.result ≠ s.x.result →
    s.completesInto t ∨ (s.dueInput = .reset ∧ t.x.result = 0#64)) ∧
  State.reset.x.result = 0#64

/-- R37: which steps change which flag. -/
def Obligations.FlagsChangeOnlyByTheirRules : Prop :=
  ∀ s t : State, step s = .next t →
    (s.x.status.busy = false → t.x.status.busy = true → ∃ v, s.writesReg .cmd v) ∧
    (s.x.status.busy = true → t.x.status.busy = false → s.completesInto t ∨ s.dueInput = .reset) ∧
    (s.x.status.done = false → t.x.status.done = true → s.completesInto t) ∧
    (s.x.status.done = true → t.x.status.done = false →
      (∃ v, s.writesReg .cmd v ∧ s.x.status.busy = false) ∨ s.dueInput = .reset) ∧
    (s.x.status.found = false → t.x.status.found = true → s.completesInto t) ∧
    (s.x.status.found = true → t.x.status.found = false →
      (∃ v, s.writesReg .cmd v ∧ s.x.status.busy = false) ∨ s.completesInto t ∨ s.dueInput = .reset) ∧
    (t.x.status.err ≠ s.x.status.err ∨ t.x.status.errcode ≠ s.x.status.errcode →
      (∃ v, s.writesReg .cmd v ∧ s.x.status.busy = false) ∨ s.completesInto t ∨ s.dueInput = .reset) ∧
    (s.x.status.ovr = false → t.x.status.ovr = true → ∃ v, s.writesReg .cmd v ∧ s.x.status.busy = true) ∧
    (s.x.status.ovr = true → t.x.status.ovr = false →
      (∃ v, s.writesReg .status v ∧ v.getLsbD 8 = true) ∨ s.dueInput = .reset)

/-- R190: from a completion on, RESULT, FOUND, ERR and ERRCODE stay until the next acceptance or reset: while the engine
is IDLE no other step changes them. -/
def Obligations.ResultIsStableWhileIdle : Prop :=
  ∀ s t : State, s.phase = .idle → step s = .next t → (∀ v, ¬s.writesReg .cmd v) → s.dueInput ≠ .reset →
    t.phase = .idle ∧ t.x.result = s.x.result ∧ t.x.status.found = s.x.status.found ∧
    t.x.status.err = s.x.status.err ∧ t.x.status.errcode = s.x.status.errcode

/-- R36: what the window shows while BUSY = 1: BUSY = 1, DONE, FOUND, ERR and ERRCODE 0, the current OVR, and the RESULT
of the previous completion, which no step changes while BUSY stays 1. -/
def Obligations.WindowWhileBusy : Prop :=
  ∀ s : State, s.Inv → s.x.status.busy = true →
    s.x.status = (if s.x.status.ovr then 0x101#64 else 0x001#64) ∧
    ∀ t, step s = .next t → t.x.status.busy = true → t.x.result = s.x.result

/-- R33 with R192 and R193: whatever the hosts do in between, when no reset comes and the memory answers every read, a
running command completes within the engine turns its reads need. `turnsLeft` is one for a word or illegal command. That no
read is left unanswered when it starts is a premise too (R193; UnansweredReadHangsUntilReset says what happens then). -/
def Obligations.FairTurnsCompleteTheCommand : Prop :=
  ∀ (s : State) (l rest : List Input), s.Inv → s.x.status.busy = true → s.unanswered = none →
    s.inputs = l ++ rest → (∀ i ∈ l, isFairInput i = true) → s.turnsLeft ≤ countEngineTurns l →
    ∃ n t, n ≤ l.length ∧ stepN n s = .next t ∧ t.x.status.busy = false ∧ t.x.status.done = true ∧ t.phase = .idle

/-! ## Laws of the commands -/

/-- R116: the laws of HI_W and LO_W, and that the 32-bit and the 64-bit searches agree on a zero-extended word. -/
def Obligations.BitSearchLaws : Prop :=
  (∀ (w : Nat) (a : BitVec w), a ≠ 0#w → ∃ h l, highestSetBit a = some h ∧ lowestSetBit a = some l ∧ l ≤ h ∧
    (h = w - 1 ↔ a.getLsbD (w - 1) = true) ∧ highestSetBit (a &&& (0#w - a)) = some l) ∧
  (∀ w i : Nat, i < w → highestSetBit (BitVec.twoPow w i) = some i ∧ lowestSetBit (BitVec.twoPow w i) = some i) ∧
  (∀ (s : State) (a : BitVec 32), s.lat.opa = a.setWidth 64 →
    exec .hibit32 s = exec .hibit64 s ∧ exec .lobit32 s = exec .lobit64 s)

/-- R122 and R124: POPCNT64 is a pure function of lat[OPA], with its two laws; PARITY32 of x is POPCNT64 of zext_64(x),
modulo 2. -/
def Obligations.PopulationCountLaws : Prop :=
  ∃ count : Word → Nat,
    (∀ s : State, exec .popcnt64 s = .next (s.complete false (BitVec.ofNat 64 (count s.lat.opa)))) ∧
    (∀ a, count a ≤ 64) ∧ (∀ a, count a + count (~~~a) = 64) ∧
    (∀ a, a ≠ 0#64 → count (a &&& (a - 1#64)) = count a - 1) ∧
    (∀ (s : State) (x : BitVec 32), s.lat.opa = x.setWidth 64 →
      ∃ t t', exec .parity32 s = .next t ∧ exec .popcnt64 s = .next t' ∧ t.x.result.toNat = t'.x.result.toNat % 2)

/-- R135 and R136: rounding by the highest set bit, and the laws of rounding. -/
def Obligations.RoundingLaws : Prop :=
  ∀ (w : Nat) (x : BitVec w) (topbitZero : Bool) (up down : Nat), w ∈ [32, 64] → x ≠ 0#w →
    x.getLsbD (w - 1) = false → up = roundUpPow2 w topbitZero x.toNat → down = roundDownPow2 w x.toNat →
    (∃ h, highestSetBit x = some h ∧ down = 2 ^ h) ∧
    (x = 1#w → topbitZero = false → up = 1) ∧
    (∀ h, highestSetBit (x - 1#w) = some h → topbitZero = false → up = 2 ^ (h + 1)) ∧
    (up ≠ 0 →
      down ≤ x.toNat ∧ x.toNat ≤ up ∧ (up = down ↔ ∃ n, x.toNat = 2 ^ n) ∧
      ((¬∃ n, x.toNat = 2 ^ n) → up = 2 * down) ∧ roundDownPow2 w down = down ∧
      (up < 2 ^ (w - 1) → roundUpPow2 w topbitZero up = up) ∧
      (up = 2 ^ (w - 1) → roundUpPow2 w topbitZero up = 0))

/-- The laws of 44_prefix_equal.md section 4 for the word commands: k = 0 is equal, k >= W is full equality, the result
is symmetric in A and B, and equality for k gives equality for every smaller k. -/
def Obligations.WordPrefixLaws : Prop :=
  ∀ (w : Nat) (order : BitOrder) (a b : BitVec w) (k : Nat),
    wordPrefixEq order a b 0 = true ∧ (0 < k → w ≤ k → wordPrefixEq order a b k = (a == b)) ∧
    wordPrefixEq order a b k = wordPrefixEq order b a k ∧
    (∀ k', k' < k → wordPrefixEq order a b k = true → wordPrefixEq order a b k' = true)

/-- R115: the source's binary subdivision gives HI_W(a) and LO_W(a) for W = 32 and W = 64. -/
def Obligations.SubdivisionFindsTheBits : Prop :=
  (∀ a : BitVec 32, a ≠ 0#32 →
    highestSetBit a = some (subdivideHighest (subdivisionSteps 32) a.toNat 0) ∧
    lowestSetBit a = some (subdivideLowest (subdivisionSteps 32) a.toNat 0)) ∧
  (∀ a : BitVec 64, a ≠ 0#64 →
    highestSetBit a = some (subdivideHighest (subdivisionSteps 64) a.toNat 0) ∧
    lowestSetBit a = some (subdivideLowest (subdivisionSteps 64) a.toNat 0))

/-- R123: the source's fold gives the parity, and clearing the lowest set bit until zero counts the ones. -/
def Obligations.FoldAndClearCompute : Prop :=
  (∀ a : BitVec 32, parityOf a = parityFold a) ∧ (∀ a : BitVec 64, ones a = clearAndCount 64 a)

/-! ## The host -/

/-- R78: the host statements. A register name stands for its offset (R77). `wr` and `rd` are one transaction each, and `rd`
gives the temporary the register's value; the branches test one bit of a temporary; `halt` ends the program. Its labels are
positions (log 9). -/
def Obligations.HostStatementsRun : Prop :=
  ∀ (s : State) (st : Statement) (rest : List Input), s.inputs = .program :: rest → s.host.halted = false →
    s.host.prog[s.host.pc]? = some st →
    ([Reg.cmd, Reg.status, Reg.opa, Reg.opb, Reg.start, Reg.endOff, Reg.k, Reg.result].map Reg.offset =
      [0x00, 0x08, 0x10, 0x18, 0x20, 0x28, 0x30, 0x38]) ∧
    (∀ r v, st = .wr r v → step s = .next { (State.writeReg { s with inputs := rest } r v) with
      reply := some .written, host := { s.host with pc := s.host.pc + 1 } }) ∧
    (∀ r n, st = .rd r n → ∃ value : Word,
      (r, value) ∈ [(Reg.cmd, s.x.cmd), (Reg.status, s.x.status), (Reg.opa, s.x.opa), (Reg.opb, s.x.opb),
        (Reg.start, s.x.start), (Reg.endOff, s.x.endOff), (Reg.k, s.x.k), (Reg.result, s.x.result)] ∧
      step s = .next { s with
        inputs := rest
        reply := some (.data value)
        host := { s.host with pc := s.host.pc + 1, h := s.host.h.set n value } }) ∧
    (∀ n i l, st = .bset n i l → step s = .next { s with
      inputs := rest, host := { s.host with pc := if s.host.h[n].getLsbD i then l else s.host.pc + 1 } }) ∧
    (∀ n i l, st = .bclr n i l → step s = .next { s with
      inputs := rest, host := { s.host with pc := if s.host.h[n].getLsbD i then s.host.pc + 1 else l } }) ∧
    (st = .halt → step s = .next { s with inputs := rest, host := { s.host with halted := true } })

/-- R79: the expansions of the pseudo-instructions, at any position of any program; labels are positions (log 9). -/
def Obligations.PseudoInstructionsExpand : Prop :=
  ∀ (prog : List SourceLine) (pos : Nat) (i : Instr) (n : Fin 8),
    expandStatement prog pos .wait = some [.rd .status 7, .bset 7 0 pos] ∧
    expandStatement prog pos (.run i) = some [.wr .cmd (encode i), .rd .status 7, .bset 7 0 (pos + 1)] ∧
    expandStatement prog pos .clrovr = some [.wr .status 0x100#64] ∧
    expandStatement prog pos (.get n) = some [.rd .result n]
end

