-- ==== Sys2Proof/Laws/Bits.lean ====
section
/-! SUPPORT. What the shared bit functions compute, said once for each (00_scope.md R12; 41_word_bitsearch.md R110). -/

namespace Sys2Proof.Machine

theorem lowestIndex_eq_none_iff (p : Nat → Bool) (n : Nat) :
    lowestIndex p n = none ↔ ∀ j, j < n → p j = false := by
  induction n with
  | zero => simp [lowestIndex]
  | succ n ih =>
    unfold lowestIndex
    cases h : lowestIndex p n with
    | some i =>
      have : ¬ ∀ j, j < n → p j = false := fun h' => by rw [ih.2 h'] at h; exact absurd h (by simp)
      simp only [reduceCtorEq, false_iff]
      exact fun h' => this fun j hj => h' j (by omega)
    | none =>
      cases hp : p n with
      | true =>
        simp only [if_true, reduceCtorEq, false_iff]
        exact fun h' => by rw [h' n (by omega)] at hp; exact absurd hp (by simp)
      | false =>
        simp only [Bool.false_eq_true, if_false, true_iff]
        intro j hj
        rcases Nat.lt_succ_iff_lt_or_eq.1 hj with h1 | rfl
        · exact ih.1 h j h1
        · exact hp

theorem lowestIndex_eq_some_iff (p : Nat → Bool) (n i : Nat) :
    lowestIndex p n = some i ↔ i < n ∧ p i = true ∧ ∀ j, j < i → p j = false := by
  induction n with
  | zero => simp [lowestIndex]
  | succ n ih =>
    unfold lowestIndex
    cases h : lowestIndex p n with
    | some k =>
      rw [h] at ih
      simp only [Option.some.injEq] at ih ⊢
      constructor
      · intro hk
        obtain ⟨h1, h2, h3⟩ := ih.1 hk
        exact ⟨by omega, h2, h3⟩
      · rintro ⟨h1, h2, h3⟩
        by_cases hin : i < n
        · exact ih.2 ⟨hin, h2, h3⟩
        · have hk := (lowestIndex_eq_none_iff p n).2 fun j hj => h3 j (by omega)
          rw [hk] at h; exact absurd h (by simp)
    | none =>
      have hn := (lowestIndex_eq_none_iff p n).1 h
      cases hp : p n with
      | true =>
        simp only [if_true, Option.some.injEq]
        constructor
        · rintro rfl; exact ⟨by omega, hp, hn⟩
        · rintro ⟨h1, h2, -⟩
          by_contra hne
          rw [hn i (by omega)] at h2; exact absurd h2 (by simp)
      | false =>
        simp only [Bool.false_eq_true, if_false, reduceCtorEq, false_iff]
        rintro ⟨h1, h2, -⟩
        rcases Nat.lt_succ_iff_lt_or_eq.1 h1 with h' | rfl
        · rw [hn i h'] at h2; exact absurd h2 (by simp)
        · rw [hp] at h2; exact absurd h2 (by simp)

theorem highestIndex_eq_none_iff (p : Nat → Bool) (n : Nat) :
    highestIndex p n = none ↔ ∀ j, j < n → p j = false := by
  induction n with
  | zero => simp [highestIndex]
  | succ n ih =>
    unfold highestIndex
    cases hp : p n with
    | true =>
      simp only [if_true, reduceCtorEq, false_iff]
      exact fun h' => by rw [h' n (by omega)] at hp; exact absurd hp (by simp)
    | false =>
      simp only [Bool.false_eq_true, if_false]
      rw [ih]
      constructor
      · intro h j hj
        rcases Nat.lt_succ_iff_lt_or_eq.1 hj with h1 | rfl
        · exact h j h1
        · exact hp
      · exact fun h j hj => h j (by omega)

theorem highestIndex_eq_some_iff (p : Nat → Bool) (n i : Nat) :
    highestIndex p n = some i ↔ i < n ∧ p i = true ∧ ∀ j, j < n → i < j → p j = false := by
  induction n with
  | zero => simp [highestIndex]
  | succ n ih =>
    unfold highestIndex
    cases hp : p n with
    | true =>
      simp only [if_true, Option.some.injEq]
      constructor
      · rintro rfl; exact ⟨by omega, hp, fun j h1 h2 => by omega⟩
      · rintro ⟨h1, -, h3⟩
        by_contra hne
        rw [h3 n (by omega) (by omega)] at hp; exact absurd hp (by simp)
    | false =>
      simp only [Bool.false_eq_true, if_false]
      rw [ih]
      constructor
      · rintro ⟨h1, h2, h3⟩
        refine ⟨by omega, h2, fun j hj hij => ?_⟩
        rcases Nat.lt_succ_iff_lt_or_eq.1 hj with h' | rfl
        · exact h3 j h' hij
        · exact hp
      · rintro ⟨h1, h2, h3⟩
        rcases Nat.lt_succ_iff_lt_or_eq.1 h1 with h' | rfl
        · exact ⟨h', h2, fun j hj hij => h3 j (by omega) hij⟩
        · rw [hp] at h2; exact absurd h2 (by simp)

/-- A word none of whose positions holds a 1 is zero. -/
theorem eq_zero_iff_no_bit {w : Nat} (a : BitVec w) : a = 0#w ↔ ∀ j, j < w → a.getLsbD j = false := by
  constructor
  · rintro rfl j _; simp
  · intro h; apply BitVec.eq_of_getLsbD_eq; intro i hi; simp [h i hi]

theorem highestSetBit_eq_none_iff {w : Nat} (a : BitVec w) : highestSetBit a = none ↔ a = 0#w := by
  rw [eq_zero_iff_no_bit]; exact highestIndex_eq_none_iff _ _

theorem lowestSetBit_eq_none_iff {w : Nat} (a : BitVec w) : lowestSetBit a = none ↔ a = 0#w := by
  rw [eq_zero_iff_no_bit]; exact lowestIndex_eq_none_iff _ _

theorem lowestSetBit_eq_some_iff {w : Nat} (a : BitVec w) (i : Nat) :
    lowestSetBit a = some i ↔ i < w ∧ a.getLsbD i = true ∧ ∀ j, j < i → a.getLsbD j = false :=
  lowestIndex_eq_some_iff a.getLsbD w i

theorem highestSetBit_eq_some_iff {w : Nat} (a : BitVec w) (i : Nat) :
    highestSetBit a = some i ↔ i < w ∧ a.getLsbD i = true ∧ ∀ j, j < w → i < j → a.getLsbD j = false :=
  highestIndex_eq_some_iff a.getLsbD w i

/-- The bits of `mask8(lo, hi)` (R12). -/
theorem getLsbD_mask8 {lo hi i : Nat} (h : lo ≤ hi) (h8 : hi ≤ 8) :
    (mask8 lo hi).getLsbD i = (decide (lo ≤ i) && decide (i < hi)) := by
  by_cases hi8 : i < 8
  · have key : ∀ (l : Fin 9) (g : Fin 9) (k : Fin 8), l.val ≤ g.val →
        (mask8 l.val g.val).getLsbD k.val = (decide (l.val ≤ k.val) && decide (k.val < g.val)) := by decide
    exact key ⟨lo, by omega⟩ ⟨hi, by omega⟩ ⟨i, hi8⟩ h
  · rw [BitVec.getLsbD_of_ge _ _ (by omega)]
    simp [show ¬ i < hi by omega]

/-- The shifted comparison, msb-first: the top m bits agree (R148). -/
theorem shiftedEq_msb_iff {w : Nat} (a b : BitVec w) (m : Nat) :
    shiftedEq .msb a b m = true ↔ ∀ i, i < w → w - m ≤ i → a.getLsbD i = b.getLsbD i := by
  simp only [shiftedEq, beq_iff_eq]
  constructor
  · intro he i hi hm
    have := congrArg (fun c => BitVec.getLsbD c (i - (w - m))) he
    simpa only [BitVec.getLsbD_ushiftRight, show w - m + (i - (w - m)) = i by omega] using this
  · intro hb
    apply BitVec.eq_of_getLsbD_eq
    intro i hi
    rw [BitVec.getLsbD_ushiftRight, BitVec.getLsbD_ushiftRight]
    by_cases hw : w - m + i < w
    · exact hb _ hw (by omega)
    · rw [BitVec.getLsbD_of_ge _ _ (by omega), BitVec.getLsbD_of_ge _ _ (by omega)]

/-- The shifted comparison, lsb-first: the bottom m bits agree (R148). -/
theorem shiftedEq_lsb_iff {w : Nat} (a b : BitVec w) {m : Nat} (h : m ≤ w) :
    shiftedEq .lsb a b m = true ↔ ∀ i, i < m → a.getLsbD i = b.getLsbD i := by
  simp only [shiftedEq, beq_iff_eq]
  constructor
  · intro he i hi
    have := congrArg (fun c => BitVec.getLsbD c (w - m + i)) he
    simpa only [BitVec.getLsbD_shiftLeft, show w - m + i < w by omega, show ¬ w - m + i < w - m by omega,
      show w - m + i - (w - m) = i by omega, decide_true, decide_false, Bool.not_false, Bool.true_and] using this
  · intro hb
    apply BitVec.eq_of_getLsbD_eq
    intro i hi
    rw [BitVec.getLsbD_shiftLeft, BitVec.getLsbD_shiftLeft]
    by_cases hm : i < w - m
    · simp [hm]
    · rw [hb (i - (w - m)) (by omega)]

end Sys2Proof.Machine
end

