-- ==== Sys2Proof/Laws/Decode.lean ====
section
/-! SUPPORT. The opcode map and the encoder agree (30_encoding.md R70 to R72). -/

namespace Sys2Proof

theorem commandOfOpcode_opcodeOf (i : Instr) : commandOfOpcode (opcodeOf i) = some i := by
  cases i <;> rfl

/-- The fields of an encoded command: RSV is 0 and OPC is the command's opcode. -/
theorem ofWord_encode (i : Instr) : RawCommand.ofWord (encode i) = { opc := opcodeOf i, rsv := 0#56 } := by
  cases i <;> rfl

/-- A word is its two fields put together (R70). -/
theorem word_eq_append (c : Word) : c = (RawCommand.ofWord c).rsv ++ (RawCommand.ofWord c).opc := by
  apply BitVec.eq_of_getLsbD_eq
  intro i hi
  rw [BitVec.getLsbD_append]
  simp only [RawCommand.ofWord, BitVec.getLsbD_extractLsb']
  by_cases h : i < 8
  · simp [h]
  · simp [h, show i - 8 < 56 by omega, show 8 + (i - 8) = i by omega]

/-- An opcode that stands for a command is that command's. -/
theorem opcodeOf_of_commandOfOpcode {opc : BitVec 8} {i : Instr} (h : commandOfOpcode opc = some i) :
    opcodeOf i = opc := by
  unfold commandOfOpcode at h
  split at h
  case h_19 => cases h
  all_goals next hn => cases h; exact BitVec.eq_of_toNat_eq hn.symm

end Sys2Proof
end

