-- ==== Sys2Proof/Laws/Flags.lean ====
section
/-! SUPPORT. The fields of STATUS after each of the four ways it changes (10_state.md R22, R37). -/

namespace Sys2Proof.Machine

section Fields
variable (w : Status) (b d f e : Bool) (c : BitVec 4)

/-- Bit i of STATUS after the command fields are written. -/
theorem Status.putCommandFields_getLsbD (i : Nat) :
    (w.putCommandFields b d f e c).getLsbD i =
      if i = 0 then b else if i = 1 then d else if i = 2 then f else if i = 3 then e
      else if i < 8 then c.getLsbD (i - 4) else w.getLsbD i := by
  have h : (w.putCommandFields b d f e c).getLsbD i =
      BitVec.getLsbD (w := 56 + (4 + 1 + 1 + 1 + 1)) (w.extractLsb' 8 56 ++
        (c ++ BitVec.ofBool e ++ BitVec.ofBool f ++ BitVec.ofBool d ++ BitVec.ofBool b)) i := rfl
  rw [h]
  simp only [BitVec.getLsbD_append, BitVec.getLsbD_ofBool, BitVec.getLsbD_extractLsb']
  rcases (by omega : i = 0 ∨ i = 1 ∨ i = 2 ∨ i = 3 ∨ (4 ≤ i ∧ i < 8) ∨ 8 ≤ i) with
    rfl | rfl | rfl | rfl | ⟨h4, h8⟩ | h8
  · simp
  · simp
  · simp
  · simp
  · simp [show i < 4 + 1 + 1 + 1 + 1 by omega, show i ≠ 0 by omega, show i ≠ 1 by omega, show i ≠ 2 by omega,
      show i ≠ 3 by omega, show ¬ i - 1 < 1 by omega, show ¬ i - 1 - 1 < 1 by omega,
      show ¬ i - 1 - 1 - 1 < 1 by omega, show i - 1 - 1 - 1 - 1 = i - 4 by omega]
  · by_cases h64 : i < 64
    · simp [show ¬ i < 8 by omega, show i ≠ 0 by omega, show i ≠ 1 by omega, show i ≠ 2 by omega,
        show i ≠ 3 by omega, show 8 + (i - 8) = i by omega, show i - 8 < 56 by omega]
    · simp [show ¬ i < 8 by omega, show i ≠ 0 by omega, show i ≠ 1 by omega, show i ≠ 2 by omega,
        show i ≠ 3 by omega, show ¬ i - 8 < 56 by omega, BitVec.getLsbD_of_ge w i (by omega)]

@[simp] theorem Status.putCommandFields_busy : (w.putCommandFields b d f e c).busy = b := by
  rw [Status.busy, putCommandFields_getLsbD]; simp
@[simp] theorem Status.putCommandFields_done : (w.putCommandFields b d f e c).done = d := by
  rw [Status.done, putCommandFields_getLsbD]; simp
@[simp] theorem Status.putCommandFields_found : (w.putCommandFields b d f e c).found = f := by
  rw [Status.found, putCommandFields_getLsbD]; simp
@[simp] theorem Status.putCommandFields_err : (w.putCommandFields b d f e c).err = e := by
  rw [Status.err, putCommandFields_getLsbD]; simp
@[simp] theorem Status.putCommandFields_ovr : (w.putCommandFields b d f e c).ovr = w.ovr := by
  rw [Status.ovr, putCommandFields_getLsbD]; simp [Status.ovr]
@[simp] theorem Status.putCommandFields_errcode : (w.putCommandFields b d f e c).errcode = c := by
  apply BitVec.eq_of_getLsbD_eq
  intro i hi
  rw [Status.errcode, BitVec.getLsbD_extractLsb', putCommandFields_getLsbD]
  simp [hi, show 4 + i ≠ 1 by omega, show 4 + i ≠ 2 by omega, show 4 + i ≠ 3 by omega,
    show 4 + i < 8 by omega]
@[simp] theorem Status.putCommandFields_reserved : (w.putCommandFields b d f e c).reserved = w.reserved := by
  apply BitVec.eq_of_getLsbD_eq
  intro i hi
  rw [Status.reserved, BitVec.getLsbD_extractLsb', putCommandFields_getLsbD]
  simp [Status.reserved, show 9 + i ≠ 1 by omega, show 9 + i ≠ 2 by omega,
    show 9 + i ≠ 3 by omega, show ¬ 9 + i < 8 by omega]

@[simp] theorem Status.accepted_busy : w.accepted.busy = true := Status.putCommandFields_busy ..
@[simp] theorem Status.accepted_done : w.accepted.done = false := Status.putCommandFields_done ..
@[simp] theorem Status.accepted_found : w.accepted.found = false := Status.putCommandFields_found ..
@[simp] theorem Status.accepted_err : w.accepted.err = false := Status.putCommandFields_err ..
@[simp] theorem Status.accepted_errcode : w.accepted.errcode = 0#4 := Status.putCommandFields_errcode ..
@[simp] theorem Status.accepted_ovr : w.accepted.ovr = w.ovr := Status.putCommandFields_ovr ..
@[simp] theorem Status.accepted_reserved : w.accepted.reserved = w.reserved := Status.putCommandFields_reserved ..

@[simp] theorem Status.completed_busy : (w.completed f).busy = false := Status.putCommandFields_busy ..
@[simp] theorem Status.completed_done : (w.completed f).done = true := Status.putCommandFields_done ..
@[simp] theorem Status.completed_found : (w.completed f).found = f := Status.putCommandFields_found ..
@[simp] theorem Status.completed_err : (w.completed f).err = false := Status.putCommandFields_err ..
@[simp] theorem Status.completed_errcode : (w.completed f).errcode = 0#4 := Status.putCommandFields_errcode ..
@[simp] theorem Status.completed_ovr : (w.completed f).ovr = w.ovr := Status.putCommandFields_ovr ..
@[simp] theorem Status.completed_reserved : (w.completed f).reserved = w.reserved :=
  Status.putCommandFields_reserved ..

@[simp] theorem Status.failed_busy : (w.failed c).busy = false := Status.putCommandFields_busy ..
@[simp] theorem Status.failed_done : (w.failed c).done = true := Status.putCommandFields_done ..
@[simp] theorem Status.failed_found : (w.failed c).found = false := Status.putCommandFields_found ..
@[simp] theorem Status.failed_err : (w.failed c).err = true := Status.putCommandFields_err ..
@[simp] theorem Status.failed_errcode : (w.failed c).errcode = c := Status.putCommandFields_errcode ..
@[simp] theorem Status.failed_ovr : (w.failed c).ovr = w.ovr := Status.putCommandFields_ovr ..
@[simp] theorem Status.failed_reserved : (w.failed c).reserved = w.reserved := Status.putCommandFields_reserved ..

end Fields

/-- Bit i of STATUS after overrun. -/
theorem Status.setOvr_getLsbD (w : Status) (i : Nat) : w.setOvr.getLsbD i = (w.getLsbD i || decide (i = 8)) := by
  have h : (0x100#64).getLsbD i = decide (i = 8) := by
    rw [show (0x100#64) = BitVec.twoPow 64 8 from rfl, BitVec.getLsbD_twoPow]
    by_cases h : i = 8 <;> simp [h, eq_comm]
  simp only [Status.setOvr, BitVec.getLsbD_or, h]

@[simp] theorem Status.setOvr_busy (w : Status) : w.setOvr.busy = w.busy := by
  simp only [Status.busy, Status.setOvr_getLsbD]; simp
@[simp] theorem Status.setOvr_done (w : Status) : w.setOvr.done = w.done := by
  simp only [Status.done, Status.setOvr_getLsbD]; simp
@[simp] theorem Status.setOvr_found (w : Status) : w.setOvr.found = w.found := by
  simp only [Status.found, Status.setOvr_getLsbD]; simp
@[simp] theorem Status.setOvr_err (w : Status) : w.setOvr.err = w.err := by
  simp only [Status.err, Status.setOvr_getLsbD]; simp
@[simp] theorem Status.setOvr_ovr (w : Status) : w.setOvr.ovr = true := by
  simp only [Status.ovr, Status.setOvr_getLsbD]; simp
@[simp] theorem Status.setOvr_errcode (w : Status) : w.setOvr.errcode = w.errcode := by
  apply BitVec.eq_of_getLsbD_eq
  intro i hi
  have h : ¬ (4 + i = 8) := by omega
  simp only [Status.errcode, BitVec.getLsbD_extractLsb', Status.setOvr_getLsbD, h]; simp
@[simp] theorem Status.setOvr_reserved (w : Status) : w.setOvr.reserved = w.reserved := by
  apply BitVec.eq_of_getLsbD_eq
  intro i hi
  have h : ¬ (9 + i = 8) := by omega
  simp only [Status.reserved, BitVec.getLsbD_extractLsb', Status.setOvr_getLsbD, h]; simp

/-- Bit i of STATUS after a host write of v. -/
theorem Status.hostWrite_getLsbD (w : Status) (v : Word) (i : Nat) :
    (w.hostWrite v).getLsbD i = (w.getLsbD i && !(decide (i = 8) && v.getLsbD 8)) := by
  have h : (0x100#64).getLsbD i = decide (i = 8) := by
    rw [show (0x100#64) = BitVec.twoPow 64 8 from rfl, BitVec.getLsbD_twoPow]
    by_cases h : i = 8 <;> simp [h, eq_comm]
  by_cases hi : i < 64
  · cases hv : v.getLsbD 8
    · simp only [Status.hostWrite, hv]; simp
    · simp only [Status.hostWrite, hv, if_true, BitVec.getLsbD_and, BitVec.getLsbD_not, h, hi, decide_true,
        Bool.true_and, Bool.and_true]
  · rw [BitVec.getLsbD_of_ge _ _ (by omega), BitVec.getLsbD_of_ge _ _ (by omega)]; rfl

section HostWrite
variable (w : Status) (v : Word)

@[simp] theorem Status.hostWrite_busy : (w.hostWrite v).busy = w.busy := by
  simp only [Status.busy, Status.hostWrite_getLsbD]; simp
@[simp] theorem Status.hostWrite_done : (w.hostWrite v).done = w.done := by
  simp only [Status.done, Status.hostWrite_getLsbD]; simp
@[simp] theorem Status.hostWrite_found : (w.hostWrite v).found = w.found := by
  simp only [Status.found, Status.hostWrite_getLsbD]; simp
@[simp] theorem Status.hostWrite_err : (w.hostWrite v).err = w.err := by
  simp only [Status.err, Status.hostWrite_getLsbD]; simp
@[simp] theorem Status.hostWrite_ovr : (w.hostWrite v).ovr = (w.ovr && !v.getLsbD 8) := by
  simp only [Status.ovr, Status.hostWrite_getLsbD]; simp
@[simp] theorem Status.hostWrite_errcode : (w.hostWrite v).errcode = w.errcode := by
  apply BitVec.eq_of_getLsbD_eq
  intro i hi
  have h : ¬ (4 + i = 8) := by omega
  simp only [Status.errcode, BitVec.getLsbD_extractLsb', Status.hostWrite_getLsbD, h]; simp
@[simp] theorem Status.hostWrite_reserved : (w.hostWrite v).reserved = w.reserved := by
  apply BitVec.eq_of_getLsbD_eq
  intro i hi
  have h : ¬ (9 + i = 8) := by omega
  simp only [Status.reserved, BitVec.getLsbD_extractLsb', Status.hostWrite_getLsbD, h]; simp

end HostWrite

/-- A status word is determined by its fields. -/
theorem Status.ext_fields {w w' : Status} (hb : w.busy = w'.busy) (hd : w.done = w'.done) (hf : w.found = w'.found)
    (he : w.err = w'.err) (hc : w.errcode = w'.errcode) (ho : w.ovr = w'.ovr) (hr : w.reserved = w'.reserved) :
    w = w' := by
  apply BitVec.eq_of_getLsbD_eq
  intro i hi
  have hc' : ∀ j, j < 4 → w.getLsbD (4 + j) = w'.getLsbD (4 + j) := fun j hj => by
    have := congrArg (fun c => BitVec.getLsbD c j) hc
    simpa [Status.errcode, BitVec.getLsbD_extractLsb', hj] using this
  have hr' : ∀ j, j < 55 → w.getLsbD (9 + j) = w'.getLsbD (9 + j) := fun j hj => by
    have := congrArg (fun c => BitVec.getLsbD c j) hr
    simpa [Status.reserved, BitVec.getLsbD_extractLsb', hj] using this
  simp only [Status.busy, Status.done, Status.found, Status.err, Status.ovr] at hb hd hf he ho
  rcases (by omega : i = 0 ∨ i = 1 ∨ i = 2 ∨ i = 3 ∨ (4 ≤ i ∧ i < 8) ∨ i = 8 ∨ 9 ≤ i) with
    rfl | rfl | rfl | rfl | ⟨h, h'⟩ | rfl | h
  · exact hb
  · exact hd
  · exact hf
  · exact he
  · simpa [show 4 + (i - 4) = i by omega] using hc' (i - 4) (by omega)
  · exact ho
  · simpa [show 9 + (i - 9) = i by omega] using hr' (i - 9) (by omega)

/-- The invariant of R22 after each change of STATUS. -/
theorem StatusOk.accepted {w : Status} (h : StatusOk w) : StatusOk w.accepted := by
  constructor <;> simp [h.reservedZero]
theorem StatusOk.completed {w : Status} (h : StatusOk w) (f : Bool) : StatusOk (w.completed f) := by
  constructor <;> simp [h.reservedZero]
theorem StatusOk.failed {w : Status} (h : StatusOk w) {c : BitVec 4} (h0 : c ≠ 0#4) (h2 : c.toNat ≤ 2) :
    StatusOk (w.failed c) := by
  constructor <;> simp [h.reservedZero, h0, h2]
theorem StatusOk.setOvr {w : Status} (h : StatusOk w) : StatusOk w.setOvr := by
  obtain ⟨h1, h2, h3, h4, h5, h6⟩ := h
  exact ⟨by simpa using h1, by simpa using h2, by simpa using h3, by simpa using h4, by simpa using h5,
    by simpa using h6⟩
theorem StatusOk.hostWrite {w : Status} (h : StatusOk w) (v : Word) : StatusOk (w.hostWrite v) := by
  obtain ⟨h1, h2, h3, h4, h5, h6⟩ := h
  exact ⟨by simpa using h1, by simpa using h2, by simpa using h3, by simpa using h4, by simpa using h5,
    by simpa using h6⟩

end Sys2Proof.Machine
end

