-- ==== Sys2Proof/Laws/Memory.lean ====
section
/-! SUPPORT. The engine memory space: read after write, and that a store keeps the canonical form. -/

namespace Sys2Proof.Machine

/-- The canonical form, taken apart. -/
theorem Memory.wf_iff (size : Nat) (m : Memory) :
    Memory.wf size m = true ↔
      m.Pairwise (fun c d => c.1 < d.1) ∧ ∀ c ∈ m, c.2 ≠ unlistedByte ∧ c.1 < size := by
  simp [Memory.wf]

theorem Memory.wf_nil (size : Nat) : Memory.wf size [] = true := rfl

theorem Memory.wf_cons (size a : Nat) (v : Byte) (m : Memory) :
    Memory.wf size ((a, v) :: m) = true ↔
      (∀ c ∈ m, a < c.1) ∧ v ≠ unlistedByte ∧ a < size ∧ Memory.wf size m = true := by
  simp only [Memory.wf_iff, List.pairwise_cons, List.forall_mem_cons]
  tauto

/-- An address below every listed one reads as an unlisted one. -/
theorem Memory.read_of_lt {m : Memory} {a : Nat} (h : ∀ c ∈ m, a < c.1) : Memory.read m a = unlistedByte := by
  induction m with
  | nil => rfl
  | cons c rest ih =>
    obtain ⟨b, u⟩ := c
    have hb : a < b := h (b, u) (by simp)
    rw [Memory.read, if_neg (by omega)]
    exact ih fun c hc => h c (by simp [hc])

theorem Memory.read_consByte (m : Memory) (a : Nat) (v : Byte) (h : ∀ c ∈ m, a < c.1) (a' : Nat) :
    Memory.read (Memory.consByte a v m) a' = if a' = a then v else Memory.read m a' := by
  unfold Memory.consByte
  split
  · next hv =>
    split
    · next ha => rw [ha, Memory.read_of_lt h, hv]
    · rfl
  · rfl

theorem Memory.mem_consByte {m : Memory} {a : Nat} {v : Byte} {c : Host.Cell}
    (h : c ∈ Memory.consByte a v m) : c = (a, v) ∨ c ∈ m := by
  unfold Memory.consByte at h
  split at h
  · exact .inr h
  · simpa using h

theorem Memory.mem_write {m : Memory} {a : Nat} {v : Byte} {c : Host.Cell}
    (h : c ∈ Memory.write m a v) : c = (a, v) ∨ c ∈ m := by
  induction m with
  | nil => exact Memory.mem_consByte h
  | cons d rest ih =>
    obtain ⟨b, u⟩ := d
    rw [Memory.write] at h
    split at h
    · exact Memory.mem_consByte h
    · split at h
      · rcases Memory.mem_consByte h with h | h
        · exact .inl h
        · exact .inr (by simp [h])
      · rcases List.mem_cons.1 h with h | h
        · exact .inr (by simp [h])
        · rcases ih h with h | h
          · exact .inl h
          · exact .inr (by simp [h])

/-- Read after write, at the same address and at every other. -/
theorem Memory.read_write {size : Nat} {m : Memory} (hm : Memory.wf size m = true) (a : Nat) (v : Byte) (a' : Nat) :
    Memory.read (Memory.write m a v) a' = if a' = a then v else Memory.read m a' := by
  induction m with
  | nil => exact Memory.read_consByte [] a v (by simp) a'
  | cons c rest ih =>
    obtain ⟨b, u⟩ := c
    obtain ⟨hb, -, -, hrest⟩ := (Memory.wf_cons size b u rest).1 hm
    rw [Memory.write]
    split
    · next hab =>
      exact Memory.read_consByte _ a v (by
        intro c hc
        rcases List.mem_cons.1 hc with rfl | hc
        · exact hab
        · exact lt_trans hab (hb c hc)) a'
    · split
      · next hab =>
        subst hab
        rw [Memory.read_consByte _ a v hb, Memory.read]
        split <;> rfl
      · next hlt hne =>
        rw [Memory.read, Memory.read, ih hrest]
        split
        · next hab => rw [if_neg (by omega)]
        · rfl

/-- A store to another address leaves a byte as it was, whatever the form of the memory. -/
theorem Memory.read_write_ne {a a' : Nat} (h : a' ≠ a) (m : Memory) (v : Byte) :
    Memory.read (Memory.write m a v) a' = Memory.read m a' := by
  induction m with
  | nil => unfold Memory.write Memory.consByte; split <;> simp [Memory.read, h]
  | cons c m ih =>
    obtain ⟨b, u⟩ := c
    unfold Memory.write Memory.consByte
    split
    · split <;> simp [Memory.read, h]
    · split
      · next hb => subst hb; split <;> simp [Memory.read, h]
      · simp only [Memory.read, ih]

theorem Memory.wf_consByte {size a : Nat} {v : Byte} {m : Memory} (hm : Memory.wf size m = true) (ha : a < size)
    (h : ∀ c ∈ m, a < c.1) : Memory.wf size (Memory.consByte a v m) = true := by
  unfold Memory.consByte
  split
  · exact hm
  · next hv => exact (Memory.wf_cons size a v m).2 ⟨h, hv, ha, hm⟩

/-- A store keeps the canonical form. -/
theorem Memory.wf_write {size a : Nat} {m : Memory} (hm : Memory.wf size m = true) (ha : a < size) (v : Byte) :
    Memory.wf size (Memory.write m a v) = true := by
  induction m with
  | nil => exact Memory.wf_consByte hm ha (by simp)
  | cons c rest ih =>
    obtain ⟨b, u⟩ := c
    obtain ⟨hb, hu, hbs, hrest⟩ := (Memory.wf_cons size b u rest).1 hm
    rw [Memory.write]
    split
    · next hab =>
      exact Memory.wf_consByte hm ha (by
        intro c hc
        rcases List.mem_cons.1 hc with rfl | hc
        · exact hab
        · exact lt_trans hab (hb c hc))
    · split
      · next hab => subst hab; exact Memory.wf_consByte hrest ha hb
      · next hlt hne =>
        refine (Memory.wf_cons size b u _).2 ⟨?_, hu, hbs, ih hrest⟩
        intro c hc
        rcases Memory.mem_write hc with rfl | hc
        · show b < a; omega
        · exact hb c hc

/-- Two canonical memories that read the same at every address are the same list. -/
theorem Memory.eq_of_read_eq {size : Nat} {m m' : Memory} (hm : Memory.wf size m = true)
    (hm' : Memory.wf size m' = true) (h : ∀ a, Memory.read m a = Memory.read m' a) : m = m' := by
  induction m generalizing m' with
  | nil =>
    cases m' with
    | nil => rfl
    | cons c rest =>
      obtain ⟨b, u⟩ := c
      obtain ⟨-, hu, -, -⟩ := (Memory.wf_cons size b u rest).1 hm'
      exact absurd (by simpa [Memory.read] using (h b).symm) hu
  | cons c rest ih =>
    obtain ⟨b, u⟩ := c
    obtain ⟨hb, hu, -, hrest⟩ := (Memory.wf_cons size b u rest).1 hm
    cases m' with
    | nil => exact absurd (by simpa [Memory.read] using h b) hu
    | cons d rest' =>
      obtain ⟨b', u'⟩ := d
      obtain ⟨hb', hu', -, hrest'⟩ := (Memory.wf_cons size b' u' rest').1 hm'
      have hbb : b = b' := by
        rcases Nat.lt_trichotomy b b' with hlt | he | hlt
        · have h1 : Memory.read ((b', u') :: rest') b = unlistedByte := Memory.read_of_lt (by
            intro c hc
            rcases List.mem_cons.1 hc with rfl | hc
            · exact hlt
            · exact lt_trans hlt (hb' c hc))
          have h2 := h b
          rw [h1] at h2
          exact absurd (by simpa [Memory.read] using h2) hu
        · exact he
        · have h1 : Memory.read ((b, u) :: rest) b' = unlistedByte := Memory.read_of_lt (by
            intro c hc
            rcases List.mem_cons.1 hc with rfl | hc
            · exact hlt
            · exact lt_trans hlt (hb c hc))
          have h2 := h b'
          rw [h1] at h2
          exact absurd (by simpa [Memory.read] using h2.symm) hu'
      subst hbb
      have huu : u = u' := by simpa [Memory.read] using h b
      subst huu
      rw [ih hrest hrest' fun a => ?_]
      by_cases hab : a = b
      · subst hab; rw [Memory.read_of_lt hb, Memory.read_of_lt hb']
      · simpa [Memory.read, hab] using h a

end Sys2Proof.Machine
end

