-- ==== Sys2Proof/Laws/State.lean ====
section
/-! SUPPORT. One lemma for each field of State after each update, so that no proof unfolds a record update. -/

namespace Sys2Proof.Machine

/-! ### accept -/

@[simp] theorem State.accept_cfg (s : State) (v : Word) : (s.accept v).cfg = s.cfg := rfl
@[simp] theorem State.accept_x_cmd (s : State) (v : Word) : (s.accept v).x.cmd = v := rfl
@[simp] theorem State.accept_x_status (s : State) (v : Word) : (s.accept v).x.status = s.x.status.accepted := rfl
@[simp] theorem State.accept_x_opa (s : State) (v : Word) : (s.accept v).x.opa = s.x.opa := rfl
@[simp] theorem State.accept_x_opb (s : State) (v : Word) : (s.accept v).x.opb = s.x.opb := rfl
@[simp] theorem State.accept_x_start (s : State) (v : Word) : (s.accept v).x.start = s.x.start := rfl
@[simp] theorem State.accept_x_endOff (s : State) (v : Word) : (s.accept v).x.endOff = s.x.endOff := rfl
@[simp] theorem State.accept_x_k (s : State) (v : Word) : (s.accept v).x.k = s.x.k := rfl
@[simp] theorem State.accept_x_result (s : State) (v : Word) : (s.accept v).x.result = s.x.result := rfl
@[simp] theorem State.accept_lat (s : State) (v : Word) : (s.accept v).lat = { cmd := v, opa := s.x.opa, opb := s.x.opb, start := s.x.start, endOff := s.x.endOff, k := s.x.k } := rfl
@[simp] theorem State.accept_phase (s : State) (v : Word) : (s.accept v).phase = .busy .start := rfl
@[simp] theorem State.accept_mem (s : State) (v : Word) : (s.accept v).mem = s.mem := rfl
@[simp] theorem State.accept_unpublished (s : State) (v : Word) : (s.accept v).unpublished = s.unpublished := rfl
@[simp] theorem State.accept_held (s : State) (v : Word) : (s.accept v).held = [] := rfl
@[simp] theorem State.accept_answer (s : State) (v : Word) : (s.accept v).answer = s.answer := rfl
@[simp] theorem State.accept_unanswered (s : State) (v : Word) : (s.accept v).unanswered = none := rfl
@[simp] theorem State.accept_reads (s : State) (v : Word) : (s.accept v).reads = s.reads := rfl
@[simp] theorem State.accept_inputs (s : State) (v : Word) : (s.accept v).inputs = s.inputs := rfl
@[simp] theorem State.accept_reply (s : State) (v : Word) : (s.accept v).reply = s.reply := rfl
@[simp] theorem State.accept_host (s : State) (v : Word) : (s.accept v).host = s.host := rfl

/-! ### overrun -/

@[simp] theorem State.overrun_cfg (s : State) : (s.overrun).cfg = s.cfg := rfl
@[simp] theorem State.overrun_x_cmd (s : State) : (s.overrun).x.cmd = s.x.cmd := rfl
@[simp] theorem State.overrun_x_status (s : State) : (s.overrun).x.status = s.x.status.setOvr := rfl
@[simp] theorem State.overrun_x_opa (s : State) : (s.overrun).x.opa = s.x.opa := rfl
@[simp] theorem State.overrun_x_opb (s : State) : (s.overrun).x.opb = s.x.opb := rfl
@[simp] theorem State.overrun_x_start (s : State) : (s.overrun).x.start = s.x.start := rfl
@[simp] theorem State.overrun_x_endOff (s : State) : (s.overrun).x.endOff = s.x.endOff := rfl
@[simp] theorem State.overrun_x_k (s : State) : (s.overrun).x.k = s.x.k := rfl
@[simp] theorem State.overrun_x_result (s : State) : (s.overrun).x.result = s.x.result := rfl
@[simp] theorem State.overrun_lat (s : State) : (s.overrun).lat = s.lat := rfl
@[simp] theorem State.overrun_phase (s : State) : (s.overrun).phase = s.phase := rfl
@[simp] theorem State.overrun_mem (s : State) : (s.overrun).mem = s.mem := rfl
@[simp] theorem State.overrun_unpublished (s : State) : (s.overrun).unpublished = s.unpublished := rfl
@[simp] theorem State.overrun_held (s : State) : (s.overrun).held = s.held := rfl
@[simp] theorem State.overrun_answer (s : State) : (s.overrun).answer = s.answer := rfl
@[simp] theorem State.overrun_unanswered (s : State) : (s.overrun).unanswered = s.unanswered := rfl
@[simp] theorem State.overrun_reads (s : State) : (s.overrun).reads = s.reads := rfl
@[simp] theorem State.overrun_inputs (s : State) : (s.overrun).inputs = s.inputs := rfl
@[simp] theorem State.overrun_reply (s : State) : (s.overrun).reply = s.reply := rfl
@[simp] theorem State.overrun_host (s : State) : (s.overrun).host = s.host := rfl

/-! ### complete -/

@[simp] theorem State.complete_cfg (s : State) (f : Bool) (r : Word) : (s.complete f r).cfg = s.cfg := rfl
@[simp] theorem State.complete_x_cmd (s : State) (f : Bool) (r : Word) : (s.complete f r).x.cmd = s.x.cmd := rfl
@[simp] theorem State.complete_x_status (s : State) (f : Bool) (r : Word) : (s.complete f r).x.status = s.x.status.completed f := rfl
@[simp] theorem State.complete_x_opa (s : State) (f : Bool) (r : Word) : (s.complete f r).x.opa = s.x.opa := rfl
@[simp] theorem State.complete_x_opb (s : State) (f : Bool) (r : Word) : (s.complete f r).x.opb = s.x.opb := rfl
@[simp] theorem State.complete_x_start (s : State) (f : Bool) (r : Word) : (s.complete f r).x.start = s.x.start := rfl
@[simp] theorem State.complete_x_endOff (s : State) (f : Bool) (r : Word) : (s.complete f r).x.endOff = s.x.endOff := rfl
@[simp] theorem State.complete_x_k (s : State) (f : Bool) (r : Word) : (s.complete f r).x.k = s.x.k := rfl
@[simp] theorem State.complete_x_result (s : State) (f : Bool) (r : Word) : (s.complete f r).x.result = r := rfl
@[simp] theorem State.complete_lat (s : State) (f : Bool) (r : Word) : (s.complete f r).lat = s.lat := rfl
@[simp] theorem State.complete_phase (s : State) (f : Bool) (r : Word) : (s.complete f r).phase = .idle := rfl
@[simp] theorem State.complete_mem (s : State) (f : Bool) (r : Word) : (s.complete f r).mem = s.mem := rfl
@[simp] theorem State.complete_unpublished (s : State) (f : Bool) (r : Word) : (s.complete f r).unpublished = s.unpublished := rfl
@[simp] theorem State.complete_held (s : State) (f : Bool) (r : Word) : (s.complete f r).held = s.held := rfl
@[simp] theorem State.complete_answer (s : State) (f : Bool) (r : Word) : (s.complete f r).answer = s.answer := rfl
@[simp] theorem State.complete_unanswered (s : State) (f : Bool) (r : Word) : (s.complete f r).unanswered = s.unanswered := rfl
@[simp] theorem State.complete_reads (s : State) (f : Bool) (r : Word) : (s.complete f r).reads = s.reads := rfl
@[simp] theorem State.complete_inputs (s : State) (f : Bool) (r : Word) : (s.complete f r).inputs = s.inputs := rfl
@[simp] theorem State.complete_reply (s : State) (f : Bool) (r : Word) : (s.complete f r).reply = s.reply := rfl
@[simp] theorem State.complete_host (s : State) (f : Bool) (r : Word) : (s.complete f r).host = s.host := rfl

/-! ### fail -/

@[simp] theorem State.fail_cfg (s : State) (c : BitVec 4) (r : Word) : (s.fail c r).cfg = s.cfg := rfl
@[simp] theorem State.fail_x_cmd (s : State) (c : BitVec 4) (r : Word) : (s.fail c r).x.cmd = s.x.cmd := rfl
@[simp] theorem State.fail_x_status (s : State) (c : BitVec 4) (r : Word) : (s.fail c r).x.status = s.x.status.failed c := rfl
@[simp] theorem State.fail_x_opa (s : State) (c : BitVec 4) (r : Word) : (s.fail c r).x.opa = s.x.opa := rfl
@[simp] theorem State.fail_x_opb (s : State) (c : BitVec 4) (r : Word) : (s.fail c r).x.opb = s.x.opb := rfl
@[simp] theorem State.fail_x_start (s : State) (c : BitVec 4) (r : Word) : (s.fail c r).x.start = s.x.start := rfl
@[simp] theorem State.fail_x_endOff (s : State) (c : BitVec 4) (r : Word) : (s.fail c r).x.endOff = s.x.endOff := rfl
@[simp] theorem State.fail_x_k (s : State) (c : BitVec 4) (r : Word) : (s.fail c r).x.k = s.x.k := rfl
@[simp] theorem State.fail_x_result (s : State) (c : BitVec 4) (r : Word) : (s.fail c r).x.result = r := rfl
@[simp] theorem State.fail_lat (s : State) (c : BitVec 4) (r : Word) : (s.fail c r).lat = s.lat := rfl
@[simp] theorem State.fail_phase (s : State) (c : BitVec 4) (r : Word) : (s.fail c r).phase = .idle := rfl
@[simp] theorem State.fail_mem (s : State) (c : BitVec 4) (r : Word) : (s.fail c r).mem = s.mem := rfl
@[simp] theorem State.fail_unpublished (s : State) (c : BitVec 4) (r : Word) : (s.fail c r).unpublished = s.unpublished := rfl
@[simp] theorem State.fail_held (s : State) (c : BitVec 4) (r : Word) : (s.fail c r).held = s.held := rfl
@[simp] theorem State.fail_answer (s : State) (c : BitVec 4) (r : Word) : (s.fail c r).answer = s.answer := rfl
@[simp] theorem State.fail_unanswered (s : State) (c : BitVec 4) (r : Word) : (s.fail c r).unanswered = s.unanswered := rfl
@[simp] theorem State.fail_reads (s : State) (c : BitVec 4) (r : Word) : (s.fail c r).reads = s.reads := rfl
@[simp] theorem State.fail_inputs (s : State) (c : BitVec 4) (r : Word) : (s.fail c r).inputs = s.inputs := rfl
@[simp] theorem State.fail_reply (s : State) (c : BitVec 4) (r : Word) : (s.fail c r).reply = s.reply := rfl
@[simp] theorem State.fail_host (s : State) (c : BitVec 4) (r : Word) : (s.fail c r).host = s.host := rfl

/-! ### goto -/

@[simp] theorem State.goto_cfg (s : State) (p : Progress) : (s.goto p).cfg = s.cfg := rfl
@[simp] theorem State.goto_x (s : State) (p : Progress) : (s.goto p).x = s.x := rfl
@[simp] theorem State.goto_lat (s : State) (p : Progress) : (s.goto p).lat = s.lat := rfl
@[simp] theorem State.goto_phase (s : State) (p : Progress) : (s.goto p).phase = .busy p := rfl
@[simp] theorem State.goto_mem (s : State) (p : Progress) : (s.goto p).mem = s.mem := rfl
@[simp] theorem State.goto_unpublished (s : State) (p : Progress) : (s.goto p).unpublished = s.unpublished := rfl
@[simp] theorem State.goto_held (s : State) (p : Progress) : (s.goto p).held = s.held := rfl
@[simp] theorem State.goto_answer (s : State) (p : Progress) : (s.goto p).answer = s.answer := rfl
@[simp] theorem State.goto_unanswered (s : State) (p : Progress) : (s.goto p).unanswered = s.unanswered := rfl
@[simp] theorem State.goto_reads (s : State) (p : Progress) : (s.goto p).reads = s.reads := rfl
@[simp] theorem State.goto_inputs (s : State) (p : Progress) : (s.goto p).inputs = s.inputs := rfl
@[simp] theorem State.goto_reply (s : State) (p : Progress) : (s.goto p).reply = s.reply := rfl
@[simp] theorem State.goto_host (s : State) (p : Progress) : (s.goto p).host = s.host := rfl

/-! ### logRead -/

@[simp] theorem State.logRead_cfg (s : State) (a : Nat) (v : Option Byte) : (s.logRead a v).cfg = s.cfg := rfl
@[simp] theorem State.logRead_x (s : State) (a : Nat) (v : Option Byte) : (s.logRead a v).x = s.x := rfl
@[simp] theorem State.logRead_lat (s : State) (a : Nat) (v : Option Byte) : (s.logRead a v).lat = s.lat := rfl
@[simp] theorem State.logRead_phase (s : State) (a : Nat) (v : Option Byte) : (s.logRead a v).phase = s.phase := rfl
@[simp] theorem State.logRead_mem (s : State) (a : Nat) (v : Option Byte) : (s.logRead a v).mem = s.mem := rfl
@[simp] theorem State.logRead_unpublished (s : State) (a : Nat) (v : Option Byte) : (s.logRead a v).unpublished = s.unpublished := rfl
@[simp] theorem State.logRead_held (s : State) (a : Nat) (v : Option Byte) : (s.logRead a v).held = s.held := rfl
@[simp] theorem State.logRead_answer (s : State) (a : Nat) (v : Option Byte) : (s.logRead a v).answer = s.answer := rfl
@[simp] theorem State.logRead_unanswered (s : State) (a : Nat) (v : Option Byte) : (s.logRead a v).unanswered = s.unanswered := rfl
@[simp] theorem State.logRead_reads (s : State) (a : Nat) (v : Option Byte) : (s.logRead a v).reads = { addr := a, answer := v } :: s.reads := rfl
@[simp] theorem State.logRead_inputs (s : State) (a : Nat) (v : Option Byte) : (s.logRead a v).inputs = s.inputs := rfl
@[simp] theorem State.logRead_reply (s : State) (a : Nat) (v : Option Byte) : (s.logRead a v).reply = s.reply := rfl
@[simp] theorem State.logRead_host (s : State) (a : Nat) (v : Option Byte) : (s.logRead a v).host = s.host := rfl

/-! ### publishStores -/

@[simp] theorem State.publishStores_cfg (s : State) : (s.publishStores).cfg = s.cfg := rfl
@[simp] theorem State.publishStores_x (s : State) : (s.publishStores).x = s.x := rfl
@[simp] theorem State.publishStores_lat (s : State) : (s.publishStores).lat = s.lat := rfl
@[simp] theorem State.publishStores_phase (s : State) : (s.publishStores).phase = s.phase := rfl
@[simp] theorem State.publishStores_mem (s : State) : (s.publishStores).mem = s.mem := rfl
@[simp] theorem State.publishStores_unpublished (s : State) : (s.publishStores).unpublished = [] := rfl
@[simp] theorem State.publishStores_held (s : State) :
    (s.publishStores).held = if s.x.status.busy then s.unpublished ++ s.held else s.held := rfl
@[simp] theorem State.publishStores_answer (s : State) : (s.publishStores).answer = s.answer := rfl
@[simp] theorem State.publishStores_unanswered (s : State) : (s.publishStores).unanswered = s.unanswered := rfl
@[simp] theorem State.publishStores_reads (s : State) : (s.publishStores).reads = s.reads := rfl
@[simp] theorem State.publishStores_inputs (s : State) : (s.publishStores).inputs = s.inputs := rfl
@[simp] theorem State.publishStores_reply (s : State) : (s.publishStores).reply = s.reply := rfl
@[simp] theorem State.publishStores_host (s : State) : (s.publishStores).host = s.host := rfl

/-! ### applyReset -/

@[simp] theorem State.applyReset_cfg (s : State) : (s.applyReset).cfg = s.cfg := rfl
@[simp] theorem State.applyReset_x (s : State) : (s.applyReset).x = Window.reset := rfl
@[simp] theorem State.applyReset_lat (s : State) : (s.applyReset).lat = Latch.reset := rfl
@[simp] theorem State.applyReset_phase (s : State) : (s.applyReset).phase = .idle := rfl
@[simp] theorem State.applyReset_mem (s : State) : (s.applyReset).mem = s.mem := rfl
@[simp] theorem State.applyReset_unpublished (s : State) : (s.applyReset).unpublished = s.unpublished := rfl
@[simp] theorem State.applyReset_held (s : State) : (s.applyReset).held = s.held := rfl
@[simp] theorem State.applyReset_answer (s : State) : (s.applyReset).answer = s.answer := rfl
@[simp] theorem State.applyReset_unanswered (s : State) : (s.applyReset).unanswered = none := rfl
@[simp] theorem State.applyReset_reads (s : State) : (s.applyReset).reads = s.reads := rfl
@[simp] theorem State.applyReset_inputs (s : State) : (s.applyReset).inputs = s.inputs := rfl
@[simp] theorem State.applyReset_reply (s : State) : (s.applyReset).reply = s.reply := rfl
@[simp] theorem State.applyReset_host (s : State) : (s.applyReset).host = s.host := rfl

/-! ### leaveUnanswered -/

@[simp] theorem State.leaveUnanswered_cfg (s : State) (a : Nat) : (s.leaveUnanswered a).cfg = s.cfg := rfl
@[simp] theorem State.leaveUnanswered_x (s : State) (a : Nat) : (s.leaveUnanswered a).x = s.x := rfl
@[simp] theorem State.leaveUnanswered_lat (s : State) (a : Nat) : (s.leaveUnanswered a).lat = s.lat := rfl
@[simp] theorem State.leaveUnanswered_phase (s : State) (a : Nat) : (s.leaveUnanswered a).phase = s.phase := rfl
@[simp] theorem State.leaveUnanswered_mem (s : State) (a : Nat) : (s.leaveUnanswered a).mem = s.mem := rfl
@[simp] theorem State.leaveUnanswered_unpublished (s : State) (a : Nat) : (s.leaveUnanswered a).unpublished = s.unpublished := rfl
@[simp] theorem State.leaveUnanswered_held (s : State) (a : Nat) : (s.leaveUnanswered a).held = s.held := rfl
@[simp] theorem State.leaveUnanswered_answer (s : State) (a : Nat) : (s.leaveUnanswered a).answer = s.answer := rfl
@[simp] theorem State.leaveUnanswered_unanswered (s : State) (a : Nat) : (s.leaveUnanswered a).unanswered = some a := rfl
@[simp] theorem State.leaveUnanswered_reads (s : State) (a : Nat) : (s.leaveUnanswered a).reads = s.reads := rfl
@[simp] theorem State.leaveUnanswered_inputs (s : State) (a : Nat) : (s.leaveUnanswered a).inputs = s.inputs := rfl
@[simp] theorem State.leaveUnanswered_reply (s : State) (a : Nat) : (s.leaveUnanswered a).reply = s.reply := rfl
@[simp] theorem State.leaveUnanswered_host (s : State) (a : Nat) : (s.leaveUnanswered a).host = s.host := rfl

/-! ### answerHost -/

@[simp] theorem State.answerHost_cfg (s : State) (p : PortReply) : (s.answerHost p).cfg = s.cfg := rfl
@[simp] theorem State.answerHost_x (s : State) (p : PortReply) : (s.answerHost p).x = s.x := rfl
@[simp] theorem State.answerHost_lat (s : State) (p : PortReply) : (s.answerHost p).lat = s.lat := rfl
@[simp] theorem State.answerHost_phase (s : State) (p : PortReply) : (s.answerHost p).phase = s.phase := rfl
@[simp] theorem State.answerHost_mem (s : State) (p : PortReply) : (s.answerHost p).mem = s.mem := rfl
@[simp] theorem State.answerHost_unpublished (s : State) (p : PortReply) : (s.answerHost p).unpublished = s.unpublished := rfl
@[simp] theorem State.answerHost_held (s : State) (p : PortReply) : (s.answerHost p).held = s.held := rfl
@[simp] theorem State.answerHost_answer (s : State) (p : PortReply) : (s.answerHost p).answer = s.answer := rfl
@[simp] theorem State.answerHost_unanswered (s : State) (p : PortReply) : (s.answerHost p).unanswered = s.unanswered := rfl
@[simp] theorem State.answerHost_reads (s : State) (p : PortReply) : (s.answerHost p).reads = s.reads := rfl
@[simp] theorem State.answerHost_inputs (s : State) (p : PortReply) : (s.answerHost p).inputs = s.inputs := rfl
@[simp] theorem State.answerHost_reply (s : State) (p : PortReply) : (s.answerHost p).reply = some p := rfl
@[simp] theorem State.answerHost_host (s : State) (p : PortReply) : (s.answerHost p).host = s.host := rfl

/-! ### hostGoto -/

@[simp] theorem State.hostGoto_cfg (s : State) (n : Nat) : (s.hostGoto n).cfg = s.cfg := rfl
@[simp] theorem State.hostGoto_x (s : State) (n : Nat) : (s.hostGoto n).x = s.x := rfl
@[simp] theorem State.hostGoto_lat (s : State) (n : Nat) : (s.hostGoto n).lat = s.lat := rfl
@[simp] theorem State.hostGoto_phase (s : State) (n : Nat) : (s.hostGoto n).phase = s.phase := rfl
@[simp] theorem State.hostGoto_mem (s : State) (n : Nat) : (s.hostGoto n).mem = s.mem := rfl
@[simp] theorem State.hostGoto_unpublished (s : State) (n : Nat) : (s.hostGoto n).unpublished = s.unpublished := rfl
@[simp] theorem State.hostGoto_held (s : State) (n : Nat) : (s.hostGoto n).held = s.held := rfl
@[simp] theorem State.hostGoto_answer (s : State) (n : Nat) : (s.hostGoto n).answer = s.answer := rfl
@[simp] theorem State.hostGoto_unanswered (s : State) (n : Nat) : (s.hostGoto n).unanswered = s.unanswered := rfl
@[simp] theorem State.hostGoto_reads (s : State) (n : Nat) : (s.hostGoto n).reads = s.reads := rfl
@[simp] theorem State.hostGoto_inputs (s : State) (n : Nat) : (s.hostGoto n).inputs = s.inputs := rfl
@[simp] theorem State.hostGoto_reply (s : State) (n : Nat) : (s.hostGoto n).reply = s.reply := rfl
@[simp] theorem State.hostGoto_host (s : State) (n : Nat) : (s.hostGoto n).host = { s.host with pc := n } := rfl

/-! ### takeInput -/

@[simp] theorem State.takeInput_cfg (s : State) : (s.takeInput).cfg = s.cfg := rfl
@[simp] theorem State.takeInput_x (s : State) : (s.takeInput).x = s.x := rfl
@[simp] theorem State.takeInput_lat (s : State) : (s.takeInput).lat = s.lat := rfl
@[simp] theorem State.takeInput_phase (s : State) : (s.takeInput).phase = s.phase := rfl
@[simp] theorem State.takeInput_mem (s : State) : (s.takeInput).mem = s.mem := rfl
@[simp] theorem State.takeInput_unpublished (s : State) : (s.takeInput).unpublished = s.unpublished := rfl
@[simp] theorem State.takeInput_held (s : State) : (s.takeInput).held = s.held := rfl
@[simp] theorem State.takeInput_answer (s : State) : (s.takeInput).answer = s.answer := rfl
@[simp] theorem State.takeInput_unanswered (s : State) : (s.takeInput).unanswered = s.unanswered := rfl
@[simp] theorem State.takeInput_reads (s : State) : (s.takeInput).reads = s.reads := rfl
@[simp] theorem State.takeInput_inputs (s : State) : (s.takeInput).inputs = s.inputs.tail := rfl
@[simp] theorem State.takeInput_reply (s : State) : (s.takeInput).reply = s.reply := rfl
@[simp] theorem State.takeInput_host (s : State) : (s.takeInput).host = s.host := rfl

/-! ### withAnswer -/

@[simp] theorem State.withAnswer_cfg (s : State) (a : MemAnswer) : (s.withAnswer a).cfg = s.cfg := rfl
@[simp] theorem State.withAnswer_x (s : State) (a : MemAnswer) : (s.withAnswer a).x = s.x := rfl
@[simp] theorem State.withAnswer_lat (s : State) (a : MemAnswer) : (s.withAnswer a).lat = s.lat := rfl
@[simp] theorem State.withAnswer_phase (s : State) (a : MemAnswer) : (s.withAnswer a).phase = s.phase := rfl
@[simp] theorem State.withAnswer_mem (s : State) (a : MemAnswer) : (s.withAnswer a).mem = s.mem := rfl
@[simp] theorem State.withAnswer_unpublished (s : State) (a : MemAnswer) : (s.withAnswer a).unpublished = s.unpublished := rfl
@[simp] theorem State.withAnswer_held (s : State) (a : MemAnswer) : (s.withAnswer a).held = s.held := rfl
@[simp] theorem State.withAnswer_answer (s : State) (a : MemAnswer) : (s.withAnswer a).answer = a := rfl
@[simp] theorem State.withAnswer_unanswered (s : State) (a : MemAnswer) : (s.withAnswer a).unanswered = s.unanswered := rfl
@[simp] theorem State.withAnswer_reads (s : State) (a : MemAnswer) : (s.withAnswer a).reads = s.reads := rfl
@[simp] theorem State.withAnswer_inputs (s : State) (a : MemAnswer) : (s.withAnswer a).inputs = s.inputs := rfl
@[simp] theorem State.withAnswer_reply (s : State) (a : MemAnswer) : (s.withAnswer a).reply = s.reply := rfl
@[simp] theorem State.withAnswer_host (s : State) (a : MemAnswer) : (s.withAnswer a).host = s.host := rfl

/-! ### storeByte -/

/-- Everything a store of one byte can do. -/
theorem State.storeByte_cases (s : State) (a : Nat) (v : Byte) :
    (s.cfg.memSize ≤ a ∧ s.storeByte a v = s) ∨
    (a < s.cfg.memSize ∧ s.storeByte a v =
      { s with
        mem := Memory.write s.mem a v
        unpublished := (a, Memory.read s.mem a) :: s.unpublished
        held := if s.x.status.busy then (a, Memory.read s.mem a) :: s.held else s.held }) := by
  by_cases h : a < s.cfg.memSize
  · exact .inr ⟨h, by simp [State.storeByte, h]⟩
  · exact .inl ⟨by omega, by simp [State.storeByte, h]⟩

@[simp] theorem State.storeByte_cfg (s : State) (a : Nat) (v : Byte) : (s.storeByte a v).cfg = s.cfg := by
  unfold State.storeByte; split <;> rfl
@[simp] theorem State.storeByte_x (s : State) (a : Nat) (v : Byte) : (s.storeByte a v).x = s.x := by
  unfold State.storeByte; split <;> rfl
@[simp] theorem State.storeByte_lat (s : State) (a : Nat) (v : Byte) : (s.storeByte a v).lat = s.lat := by
  unfold State.storeByte; split <;> rfl
@[simp] theorem State.storeByte_phase (s : State) (a : Nat) (v : Byte) : (s.storeByte a v).phase = s.phase := by
  unfold State.storeByte; split <;> rfl
@[simp] theorem State.storeByte_answer (s : State) (a : Nat) (v : Byte) : (s.storeByte a v).answer = s.answer := by
  unfold State.storeByte; split <;> rfl
@[simp] theorem State.storeByte_unanswered (s : State) (a : Nat) (v : Byte) : (s.storeByte a v).unanswered = s.unanswered := by
  unfold State.storeByte; split <;> rfl
@[simp] theorem State.storeByte_reads (s : State) (a : Nat) (v : Byte) : (s.storeByte a v).reads = s.reads := by
  unfold State.storeByte; split <;> rfl
@[simp] theorem State.storeByte_inputs (s : State) (a : Nat) (v : Byte) : (s.storeByte a v).inputs = s.inputs := by
  unfold State.storeByte; split <;> rfl
@[simp] theorem State.storeByte_reply (s : State) (a : Nat) (v : Byte) : (s.storeByte a v).reply = s.reply := by
  unfold State.storeByte; split <;> rfl
@[simp] theorem State.storeByte_host (s : State) (a : Nat) (v : Byte) : (s.storeByte a v).host = s.host := by
  unfold State.storeByte; split <;> rfl

end Sys2Proof.Machine
end

