-- ==== Sys2Proof/Laws/Ops.lean ====
section
/-! SUPPORT. Everything the shared operations can do, said once: a memory read, an engine step of a command, and one step
of the machine. -/

namespace Sys2Proof.Machine

/-! ### The memory read port -/

theorem State.memRead_data {s : State} {p : Nat} (hu : s.unanswered = none) (h : s.answer = .data p) (a : Nat)
    (k : Byte → State → State) : s.memRead a k = k (s.byteSeen a p) (s.logRead a (some (s.byteSeen a p))) := by
  simp [State.memRead, hu, h]

theorem State.memRead_error {s : State} (hu : s.unanswered = none) (h : s.answer = .error) (a : Nat)
    (k : Byte → State → State) : s.memRead a k = (s.logRead a none).raiseBusError a := by
  simp [State.memRead, hu, h]

theorem State.memRead_never {s : State} (hu : s.unanswered = none) (h : s.answer = .never) (a : Nat)
    (k : Byte → State → State) : s.memRead a k = s.leaveUnanswered a := by
  simp [State.memRead, hu, h]

/-- While a read is on the port that is never answered, the step that holds it does nothing (R189). -/
theorem State.memRead_unanswered {s : State} {b : Nat} (hu : s.unanswered = some b) (a : Nat)
    (k : Byte → State → State) : s.memRead a k = s := by
  simp [State.memRead, hu]

/-- Everything a memory read can do. -/
theorem State.memRead_cases (s : State) (a : Nat) (k : Byte → State → State) :
    (∃ b, s.unanswered = some b ∧ s.memRead a k = s) ∨
    (s.unanswered = none ∧ ∃ p, s.answer = .data p ∧
      s.memRead a k = k (s.byteSeen a p) (s.logRead a (some (s.byteSeen a p)))) ∨
    (s.unanswered = none ∧ s.answer = .error ∧ s.memRead a k = (s.logRead a none).raiseBusError a) ∨
    (s.unanswered = none ∧ s.answer = .never ∧ s.memRead a k = s.leaveUnanswered a) := by
  cases hu : s.unanswered with
  | some b => exact .inl ⟨b, rfl, State.memRead_unanswered hu a k⟩
  | none =>
    cases ha : s.answer with
    | data p => exact .inr (.inl ⟨rfl, p, rfl, State.memRead_data hu ha a k⟩)
    | error => exact .inr (.inr (.inl ⟨rfl, rfl, State.memRead_error hu ha a k⟩))
    | never => exact .inr (.inr (.inr ⟨rfl, rfl, State.memRead_never hu ha a k⟩))

/-- A read that nothing races returns the byte the memory holds, whatever the memory's pick (R52). -/
theorem State.byteSeen_of_no_race {s : State} {a : Nat} (hh : valuesAt s.held a = [])
    (hu : valuesAt s.unpublished a = []) (p : Nat) : s.byteSeen a p = Memory.read s.mem a := by
  cases p <;> simp [State.byteSeen, State.readCandidates, hh, hu]

theorem State.byteSeen_mem_candidates (s : State) (a p : Nat) : s.byteSeen a p ∈ s.readCandidates a := by
  unfold State.byteSeen
  by_cases h : p < (s.readCandidates a).length
  · rw [List.getD_eq_getElem _ _ h]; exact List.getElem_mem h
  · rw [List.getD_eq_default _ _ (by omega)]; simp [State.readCandidates]

/-! ### An engine step of a command -/

/-- Everything an engine step of a command can do: nothing (its read is never answered), the issue of a read that is never
answered, one read and a move to the next progress point, or the end of the command with or without an error. Only the
window's RESULT and STATUS, the phase, the unanswered read and the record of reads can change. -/
inductive EngineEffect (s : State) : State → Prop
  | nothing : EngineEffect s s
  | hang (a : Nat) (hu : s.unanswered = none) (ha : s.answer = .never) : EngineEffect s (s.leaveUnanswered a)
  | move (rs : List PortRead) (p : Progress) (a : Nat) (v : Byte) (hu : s.unanswered = none)
      (h : rs = { addr := a, answer := some v } :: s.reads) : EngineEffect s (State.goto { s with reads := rs } p)
  | complete (rs : List PortRead) (f : Bool) (r : Word)
      (h : rs = s.reads ∨ ∃ a v, rs = { addr := a, answer := some v } :: s.reads) :
      EngineEffect s (State.complete { s with reads := rs } f r)
  | busError (a : Nat) (hu : s.unanswered = none) : EngineEffect s ((s.logRead a none).raiseBusError a)

theorem EngineEffect.of_complete (s : State) (f : Bool) (r : Word) : EngineEffect s (s.complete f r) :=
  .complete s.reads f r (.inl rfl)

theorem EngineEffect.of_completeSearch (s : State) (o : Option Nat) : EngineEffect s (s.completeSearch o) := by
  cases o <;> exact .of_complete s _ _

theorem EngineEffect.of_memRead (s : State) (a : Nat) (k : Byte → State → State)
    (h : ∀ v, s.unanswered = none → EngineEffect s (k v (s.logRead a (some v)))) : EngineEffect s (s.memRead a k) := by
  rcases s.memRead_cases a k with ⟨b, _, he⟩ | ⟨hu, p, _, he⟩ | ⟨hu, _, he⟩ | ⟨hu, ha, he⟩ <;> rw [he]
  · exact .nothing
  · exact h _ hu
  · exact .busError a hu
  · exact .hang a hu ha

theorem EngineEffect.of_scanFrom (s : State) (pol : Bool) (j : Nat) : EngineEffect s (scanFrom pol j s) := by
  refine .of_memRead s _ _ fun v hu => ?_
  unfold scanAfterRead
  split
  · exact .complete _ true _ (.inr ⟨_, _, rfl⟩)
  · split
    · exact .move _ _ _ _ hu rfl
    · exact .complete _ false _ (.inr ⟨_, _, rfl⟩)

theorem EngineEffect.of_scanStep {s t : State} {pol : Bool} (h : scanStep pol s = .next t) : EngineEffect s t := by
  unfold scanStep at h
  split at h
  · cases h
    split
    · exact .of_scanFrom s pol _
    · exact .of_completeSearch s none
  · cases h; exact .of_scanFrom s pol _
  all_goals cases h

theorem EngineEffect.of_pairStep {s t : State} {order : BitOrder} (h : pairStep order s = .next t) :
    EngineEffect s t := by
  unfold pairStep at h
  split at h
  · cases h
    split
    · exact .of_complete s _ _
    · exact .of_memRead s _ _ fun v hu => .move _ _ _ v hu rfl
  · cases h; exact .of_memRead s _ _ fun v hu => .move _ _ _ v hu rfl
  · cases h
    refine .of_memRead s _ _ fun v hu => ?_
    unfold pairAfterB
    split
    · split
      · exact .move _ _ _ _ hu rfl
      · exact .complete _ _ _ (.inr ⟨_, _, rfl⟩)
    · exact .complete _ _ _ (.inr ⟨_, _, rfl⟩)
  all_goals cases h

/-- The inversion lemma of exec. -/
theorem exec_effect {i : Instr} {s t : State} (h : exec i s = .next t) : EngineEffect s t := by
  cases i
  case ffs => exact .of_scanStep h
  case ffc => exact .of_scanStep h
  case peqbMsb => exact .of_pairStep h
  case peqbLsb => exact .of_pairStep h
  case hibit32 => cases h; exact .of_completeSearch s _
  case hibit64 => cases h; exact .of_completeSearch s _
  case lobit32 => cases h; exact .of_completeSearch s _
  case lobit64 => cases h; exact .of_completeSearch s _
  all_goals cases h; exact .of_complete s _ _

/-! ### One step of the machine -/

/-- Everything the engine's turn can do. -/
theorem engineTurn_cases {s t : State} (h : engineTurn s = .next t) :
    (s.phase = .idle ∧ t = s) ∨
    (∃ p i, s.phase = .busy p ∧ decode s.lat.cmd = .command i ∧ exec i s = .next t) ∨
    (∃ p why, s.phase = .busy p ∧ decode s.lat.cmd = .illegal why ∧ t = s.raiseIllegalCommand) := by
  unfold engineTurn at h
  split at h
  · next hp => cases h; exact .inl ⟨hp, rfl⟩
  · next p hp =>
    split at h
    · next i hi => exact .inr (.inl ⟨p, i, hp, hi, h⟩)
    · next why hw => cases h; exact .inr (.inr ⟨p, why, hp, hw, rfl⟩)

/-- Everything one step can do, by the input that is due. -/
theorem step_cases {s t : State} (h : step s = .next t) :
    (∃ a, s.dueInput = .bus a ∧ t = s.takeInput.busAccess a) ∨
    (s.dueInput = .program ∧ t = s.takeInput.hostTurn) ∨
    (∃ a, s.dueInput = .engine a ∧ engineTurn (s.takeInput.withAnswer a) = .next t) ∨
    (∃ a v, s.dueInput = .store a v ∧ t = s.takeInput.storeByte a v) ∨
    (s.dueInput = .publish ∧ t = s.takeInput.publishStores) ∨
    (s.dueInput = .reset ∧ t = s.takeInput.applyReset) := by
  unfold step turn applyInput at h
  split at h
  · next a hd => cases h; exact .inl ⟨a, hd, rfl⟩
  · next hd => cases h; exact .inr (.inl ⟨hd, rfl⟩)
  · next a hd => exact .inr (.inr (.inl ⟨a, hd, h⟩))
  · next a v hd => cases h; exact .inr (.inr (.inr (.inl ⟨a, v, hd, rfl⟩)))
  · next hd => cases h; exact .inr (.inr (.inr (.inr (.inl ⟨hd, rfl⟩))))
  · next hd => cases h; exact .inr (.inr (.inr (.inr (.inr ⟨hd, rfl⟩))))

@[simp] theorem State.dueInput_cons (s : State) (i : Input) (rest : List Input) (h : s.inputs = i :: rest) :
    s.dueInput = i := by simp [State.dueInput, h]

/-- The register at an offset, and the offset of a register. -/
@[simp] theorem regAtOffset_offset (r : Reg) : regAtOffset r.offset = some r := by cases r <;> rfl

theorem offset_of_regAtOffset {off : Nat} {r : Reg} (h : regAtOffset off = some r) : r.offset = off := by
  unfold regAtOffset at h
  split at h
  case h_9 => cases h
  all_goals cases h; rfl

theorem windowOffset_offset (c : Config) (r : Reg) : windowOffset c (c.regBase + r.offset) = some r.offset := by
  have h : r.offset < 0x40 := by cases r <;> decide
  rw [windowOffset, if_pos ⟨by omega, by omega⟩, show c.regBase + r.offset - c.regBase = r.offset by omega]

/-- A 64-bit access to a register is accepted (R27). -/
theorem State.busAccess_reg (s : State) (r : Reg) (op : BusOp) :
    s.busAccess { addr := s.cfg.regBase + r.offset, bits := 64, op := op } = s.transaction r op := by
  simp [State.busAccess, windowOffset_offset]

/-- Everything a bus access can do: nothing, an answer to the host, or a write of a register and an answer. -/
theorem State.busAccess_cases (s : State) (a : BusAccess) :
    s.busAccess a = s ∨ (∃ p, s.busAccess a = s.answerHost p) ∨
    (∃ r v, a = { addr := s.cfg.regBase + r.offset, bits := 64, op := .write v } ∧
      s.busAccess a = (s.writeReg r v).answerHost .written) := by
  obtain ⟨addr, bits, op⟩ := a
  unfold State.busAccess
  split
  · exact .inl rfl
  · next off hoff =>
    have hoff' : addr = s.cfg.regBase + off := by
      unfold windowOffset at hoff
      split at hoff
      · next h =>
        have h1 : s.cfg.regBase ≤ addr := h.1
        have h2 : addr - s.cfg.regBase = off := Option.some.inj hoff
        omega
      · cases hoff
    subst hoff'
    split
    · next r hr =>
      have hr' := offset_of_regAtOffset hr
      subst hr'
      split
      · next h64 =>
        cases op with
        | read => exact .inr (.inl ⟨_, rfl⟩)
        | write v =>
          have h64' : bits = 64 := h64
          subst h64'
          exact .inr (.inr ⟨r, v, rfl, rfl⟩)
      · exact .inr (.inl ⟨_, rfl⟩)
    · exact .inr (.inl ⟨_, rfl⟩)

/-- Everything a write of a register can do to the block. -/
theorem State.writeReg_cases (s : State) (r : Reg) (v : Word) :
    (r = .cmd ∧ s.x.status.busy = true ∧ s.writeReg r v = s.overrun) ∨
    (r = .cmd ∧ s.x.status.busy = false ∧ s.writeReg r v = s.accept v) ∨
    (r = .status ∧ s.writeReg r v = { s with x := { s.x with status := s.x.status.hostWrite v } }) ∨
    (r = .opa ∧ s.writeReg r v = { s with x := { s.x with opa := v } }) ∨
    (r = .opb ∧ s.writeReg r v = { s with x := { s.x with opb := v } }) ∨
    (r = .start ∧ s.writeReg r v = { s with x := { s.x with start := v } }) ∨
    (r = .endOff ∧ s.writeReg r v = { s with x := { s.x with endOff := v } }) ∨
    (r = .k ∧ s.writeReg r v = { s with x := { s.x with k := v } }) ∨
    (r = .result ∧ s.writeReg r v = s) := by
  cases r <;> simp [State.writeReg]
  cases h : s.x.status.busy <;> simp

/-- Everything the programmed host's turn can do: change its own state, read a register, or write one by a `wr`. -/
theorem State.hostTurn_cases (s : State) :
    (∃ h, s.hostTurn = { s with host := h }) ∨ (∃ p h, s.hostTurn = { s.answerHost p with host := h }) ∨
    (∃ r v h, s.host.halted = false ∧ s.host.prog[s.host.pc]? = some (.wr r v) ∧
      s.hostTurn = { (s.writeReg r v).answerHost .written with host := h }) := by
  unfold State.hostTurn
  split
  · exact .inl ⟨s.host, rfl⟩
  · next hh =>
    split
    · next st hst =>
      cases st
      case wr r v =>
        refine .inr (.inr ⟨r, v, { (s.writeReg r v).host with pc := s.host.pc + 1 }, by simpa using hh, hst, ?_⟩)
        rw [State.hostStatement, regAccess, State.busAccess_reg]; rfl
      case rd r n =>
        refine .inr (.inl ⟨.data (s.regValue r), ?_⟩)
        rw [State.hostStatement, regAccess, State.busAccess_reg]; exact ⟨_, rfl⟩
      all_goals exact .inl ⟨_, rfl⟩
    · exact .inl ⟨s.host, rfl⟩

end Sys2Proof.Machine
end

