-- ==== Sys2Proof/Laws/EngineAct.lean ====
section
/-! SUPPORT. An engine step is chosen by the engine's own part of the state: the latch, the phase, the memory's answer and
candidates, and a read that is never answered. Two states that differ only in the window, the inputs, the reply and the
host take the same step. -/

namespace Sys2Proof.Machine

/-- What one engine step does; `rs` is the record of reads after it. -/
inductive EngineAct where
  | stay
  | hang (a : Nat)
  | move (rs : List PortRead) (p : Progress)
  | complete (rs : List PortRead) (found : Bool) (result : Word)
  | fail (rs : List PortRead) (code : BitVec 4) (result : Word)
deriving DecidableEq, Repr

def EngineAct.apply (s : State) : EngineAct → State
  | .stay => s
  | .hang a => s.leaveUnanswered a
  | .move rs p => State.goto { s with reads := rs } p
  | .complete rs f r => State.complete { s with reads := rs } f r
  | .fail rs c r => State.fail { s with reads := rs } c r

/-- s with another window, other inputs, another reply and another host. -/
def State.withOutside (s : State) (x : Window) (l : List Input) (r : Option PortReply) (h : HostAgent) : State :=
  { s with x := x, inputs := l, reply := r, host := h }

/-- One act takes s to a and t to b. -/
def SameAct (s t a b : State) : Prop := ∃ act : EngineAct, a = act.apply s ∧ b = act.apply t

/-- The rest of a pseudocode after a read is one act, chosen by the latch alone. -/
def ActsByLatch (lat : Latch) (k : State → State) : Prop :=
  (∃ f r, ∀ t : State, t.lat = lat → k t = t.complete f r) ∨ (∃ p, ∀ t : State, t.lat = lat → k t = t.goto p)

theorem scanBits_of_lat {s t : State} (h : t.lat = s.lat) (pol : Bool) (j : Nat) (v : Byte) :
    t.scanBits pol j v = s.scanBits pol j v := by
  unfold State.scanBits State.scanLo State.scanHi State.firstByte State.lastByte State.scanStart State.scanEnd
  rw [h]

theorem lastByte_of_lat {s t : State} (h : t.lat = s.lat) : t.lastByte = s.lastByte := by
  simp only [State.lastByte, State.scanEnd, h]

theorem scanAfterRead_acts (s : State) (pol : Bool) (j : Nat) (v : Byte) :
    ActsByLatch s.lat (scanAfterRead pol j v) := by
  unfold ActsByLatch scanAfterRead
  cases hq : lowestSetBit (s.scanBits pol j v) with
  | some i => exact .inl ⟨true, BitVec.ofNat 64 (j * 8 + i), fun t h => by rw [scanBits_of_lat h, hq]; rfl⟩
  | none =>
    by_cases hj : j < s.lastByte
    · exact .inr ⟨.scanAt (j + 1), fun t h => by rw [scanBits_of_lat h, hq, lastByte_of_lat h]; simp [hj]⟩
    · exact .inl ⟨false, ones64, fun t h => by
        rw [scanBits_of_lat h, hq, lastByte_of_lat h]; simp [hj, State.completeSearch]⟩

theorem pairEq_of_lat {s t : State} (h : t.lat = s.lat) (order : BitOrder) (j : Nat) (u v : Byte) :
    t.pairEq order j u v = s.pairEq order j u v := by
  unfold State.pairEq State.wholeBytes State.remainderBits State.prefixLen
  rw [h]

theorem prefixBytes_of_lat {s t : State} (h : t.lat = s.lat) : t.prefixBytes = s.prefixBytes := by
  unfold State.prefixBytes State.wholeBytes State.remainderBits State.prefixLen
  rw [h]

theorem pairAfterB_acts (s : State) (order : BitOrder) (j : Nat) (u v : Byte) :
    ActsByLatch s.lat (pairAfterB order j u v) := by
  unfold ActsByLatch pairAfterB
  cases hq : s.pairEq order j u v with
  | false => exact .inl ⟨false, 0#64, fun t h => by
      rw [pairEq_of_lat h, hq]; simp [State.completeEq, State.completeValue, b2v]⟩
  | true =>
    by_cases hj : j + 1 < s.prefixBytes
    · exact .inr ⟨.pairA (j + 1), fun t h => by rw [pairEq_of_lat h, hq, prefixBytes_of_lat h]; simp [hj]⟩
    · exact .inl ⟨false, 1#64, fun t h => by
        rw [pairEq_of_lat h, hq, prefixBytes_of_lat h]; simp [hj, State.completeEq, State.completeValue, b2v]⟩

section
variable (s : State) (x : Window) (l : List Input) (r : Option PortReply) (h : HostAgent)

theorem SameAct.of_memRead (a : Nat) (k : Byte → State → State) (hk : ∀ v, ActsByLatch s.lat (k v)) :
    SameAct s (s.withOutside x l r h) (s.memRead a k) ((s.withOutside x l r h).memRead a k) := by
  rcases s.memRead_cases a k with ⟨b, hu, he⟩ | ⟨hu, p, ha, he⟩ | ⟨hu, ha, he⟩ | ⟨hu, ha, he⟩ <;> rw [he]
  · rw [State.memRead_unanswered (s := s.withOutside x l r h) hu]
    exact ⟨.stay, rfl, rfl⟩
  · rw [State.memRead_data (s := s.withOutside x l r h) hu ha,
      show (s.withOutside x l r h).byteSeen a p = s.byteSeen a p from rfl]
    rcases hk (s.byteSeen a p) with ⟨f, v, hk⟩ | ⟨q, hk⟩
    · rw [hk _ (by rfl), hk _ (by rfl)]; exact ⟨.complete (s.logRead a (some (s.byteSeen a p))).reads f v, rfl, rfl⟩
    · rw [hk _ (by rfl), hk _ (by rfl)]; exact ⟨.move (s.logRead a (some (s.byteSeen a p))).reads q, rfl, rfl⟩
  · rw [State.memRead_error (s := s.withOutside x l r h) hu ha]
    exact ⟨.fail (s.logRead a none).reads errBusError (BitVec.ofNat 64 a), rfl, rfl⟩
  · rw [State.memRead_never (s := s.withOutside x l r h) hu ha]
    exact ⟨.hang a, rfl, rfl⟩

theorem SameAct.of_complete (f : Bool) (v : Word) :
    SameAct s (s.withOutside x l r h) (s.complete f v) ((s.withOutside x l r h).complete f v) :=
  ⟨.complete s.reads f v, rfl, rfl⟩

theorem scanStep_withOutside {t : State} {pol : Bool} (ht : scanStep pol s = .next t) :
    ∃ t', scanStep pol (s.withOutside x l r h) = .next t' ∧ SameAct s (s.withOutside x l r h) t t' := by
  cases hp : s.phase with
  | idle => simp [scanStep, hp] at ht
  | busy p =>
    cases p with
    | start =>
      by_cases hlt : s.scanStart < s.scanEnd
      · refine ⟨scanFrom pol s.firstByte (s.withOutside x l r h), ?_, ?_⟩
        · have h1 : (s.withOutside x l r h).scanStart < (s.withOutside x l r h).scanEnd := hlt
          have h2 : (s.withOutside x l r h).phase = .busy .start := hp
          simp only [scanStep, h2, h1, if_true]; rfl
        · simp only [scanStep, hp, hlt, if_true] at ht
          cases ht
          exact .of_memRead s x l r h _ _ fun v => scanAfterRead_acts s pol _ v
      · refine ⟨(s.withOutside x l r h).completeSearch none, ?_, ?_⟩
        · have h1 : ¬(s.withOutside x l r h).scanStart < (s.withOutside x l r h).scanEnd := hlt
          have h2 : (s.withOutside x l r h).phase = .busy .start := hp
          simp only [scanStep, h2, h1, if_false]
        · simp only [scanStep, hp, hlt, if_false] at ht
          cases ht
          exact .of_complete s x l r h false ones64
    | scanAt j =>
      refine ⟨scanFrom pol j (s.withOutside x l r h), ?_, ?_⟩
      · have h2 : (s.withOutside x l r h).phase = .busy (.scanAt j) := hp
        simp only [scanStep, h2]
      · simp only [scanStep, hp] at ht
        cases ht
        exact .of_memRead s x l r h _ _ fun v => scanAfterRead_acts s pol _ v
    | pairA j => simp [scanStep, hp] at ht
    | pairB j u => simp [scanStep, hp] at ht

theorem pairStep_withOutside {t : State} {order : BitOrder} (ht : pairStep order s = .next t) :
    ∃ t', pairStep order (s.withOutside x l r h) = .next t' ∧ SameAct s (s.withOutside x l r h) t t' := by
  have hA : ∀ j u, ActsByLatch s.lat (pairAfterA j u) := fun j u => .inr ⟨_, fun _ _ => rfl⟩
  cases hp : s.phase with
  | idle => simp [pairStep, hp] at ht
  | busy p =>
    cases p with
    | start =>
      have h2 : (s.withOutside x l r h).phase = .busy .start := hp
      by_cases hk : s.prefixLen = 0
      · have h1 : (s.withOutside x l r h).prefixLen = 0 := hk
        refine ⟨(s.withOutside x l r h).completeEq true, by simp only [pairStep, h2, h1, if_true], ?_⟩
        simp only [pairStep, hp, hk, if_true] at ht
        cases ht
        exact .of_complete s x l r h false _
      · have h1 : ¬(s.withOutside x l r h).prefixLen = 0 := hk
        refine ⟨(s.withOutside x l r h).memRead (s.addrA 0) (pairAfterA 0), by simp only [pairStep, h2, h1, if_false]; rfl, ?_⟩
        simp only [pairStep, hp, hk, if_false] at ht
        cases ht
        exact .of_memRead s x l r h _ _ fun v => hA 0 v
    | pairA j =>
      have h2 : (s.withOutside x l r h).phase = .busy (.pairA j) := hp
      refine ⟨(s.withOutside x l r h).memRead (s.addrA j) (pairAfterA j), by simp only [pairStep, h2]; rfl, ?_⟩
      simp only [pairStep, hp] at ht
      cases ht
      exact .of_memRead s x l r h _ _ fun v => hA j v
    | pairB j u =>
      have h2 : (s.withOutside x l r h).phase = .busy (.pairB j u) := hp
      refine ⟨(s.withOutside x l r h).memRead (s.addrB j) (pairAfterB order j u), by simp only [pairStep, h2]; rfl, ?_⟩
      simp only [pairStep, hp] at ht
      cases ht
      exact .of_memRead s x l r h _ _ fun v => pairAfterB_acts s order j u v
    | scanAt j => simp [pairStep, hp] at ht

/-- exec does the same act whatever stands outside the engine. -/
theorem exec_withOutside {i : Instr} {t : State} (ht : exec i s = .next t) :
    ∃ t', exec i (s.withOutside x l r h) = .next t' ∧ SameAct s (s.withOutside x l r h) t t' := by
  cases i
  case ffs => exact scanStep_withOutside s x l r h ht
  case ffc => exact scanStep_withOutside s x l r h ht
  case peqbMsb => exact pairStep_withOutside s x l r h ht
  case peqbLsb => exact pairStep_withOutside s x l r h ht
  case hibit32 | hibit64 | lobit32 | lobit64 =>
    cases ht
    refine ⟨_, rfl, ?_⟩
    simp only [State.wordA32, State.wordA64, State.withOutside, State.completeSearch]
    split <;> exact .of_complete s x l r h _ _
  all_goals cases ht; exact ⟨_, rfl, .of_complete s x l r h _ _⟩
end

end Sys2Proof.Machine
end

