-- ==== Sys2Proof/Laws/MemoryCommands.lean ====
section
/-! SUPPORT. The engine steps of SCAN (40_bitmap_scan.md R91) and PEQB (44_prefix_equal.md R143): where each can stand,
what each can do, and what the loop bounds and the tested bits are. -/

namespace Sys2Proof.Machine

open Sys2Proof.Reference

/-! ### Loop bounds -/

theorem State.firstByte_eq (s : State) : s.firstByte = s.scanStart / 8 := by
  simp [State.firstByte, Nat.shiftRight_eq_div_pow]

theorem State.lastByte_eq (s : State) : s.lastByte = (s.scanEnd - 1) / 8 := by
  simp [State.lastByte, Nat.shiftRight_eq_div_pow]

theorem State.wholeBytes_eq (s : State) : s.wholeBytes = s.prefixLen / 8 := by
  simp [State.wholeBytes, Nat.shiftRight_eq_div_pow]

/-- ceil(k / 8) (R143). -/
theorem State.prefixBytes_eq (s : State) : s.prefixBytes = (s.prefixLen + 7) / 8 := by
  have hr : s.remainderBits = s.prefixLen % 8 := rfl
  unfold State.prefixBytes
  rw [State.wholeBytes_eq]
  split <;> omega

theorem State.lt_prefixBytes_iff (s : State) (j : Nat) : j < s.prefixBytes ↔ 8 * j < s.prefixLen := by
  rw [State.prefixBytes_eq]; omega

/-- A non-empty range has its first byte at or before its last. -/
theorem State.firstByte_le_lastByte {s : State} (h : s.scanStart < s.scanEnd) : s.firstByte ≤ s.lastByte := by
  rw [State.firstByte_eq, State.lastByte_eq]; omega

/-! ### SCAN -/

/-- The engine stands before the read of byte j of a scan: at the start of a non-empty range, or in the loop. -/
def State.AtScanByte (s : State) (j : Nat) : Prop :=
  (s.phase = .busy .start ∧ s.scanStart < s.scanEnd ∧ j = s.firstByte) ∨ s.phase = .busy (.scanAt j)

theorem scanStep_at {s : State} {j : Nat} (h : s.AtScanByte j) (pol : Bool) :
    scanStep pol s = .next (scanFrom pol j s) := by
  rcases h with ⟨hp, hlt, rfl⟩ | hp
  · simp [scanStep, hp, hlt]
  · simp [scanStep, hp]

theorem scanStep_empty {s : State} (hp : s.phase = .busy .start) (h : ¬ s.scanStart < s.scanEnd) (pol : Bool) :
    scanStep pol s = .next (s.completeSearch none) := by
  simp [scanStep, hp, h]

/-- Where a step of SCAN can start. -/
theorem scanStep_cases {s t : State} {pol : Bool} (h : scanStep pol s = .next t) :
    (s.phase = .busy .start ∧ ¬ s.scanStart < s.scanEnd ∧ t = s.completeSearch none) ∨
    (∃ j, s.AtScanByte j ∧ t = scanFrom pol j s) := by
  unfold scanStep at h
  split at h
  · next hp =>
    cases h
    split
    · next hlt => exact .inr ⟨_, .inl ⟨hp, hlt, rfl⟩, rfl⟩
    · next hlt => exact .inl ⟨hp, hlt, rfl⟩
  · next j hp => cases h; exact .inr ⟨j, .inr hp, rfl⟩
  all_goals cases h

/-- What a step of SCAN does after the read. -/
theorem scanAfterRead_cases (pol : Bool) (j : Nat) (v : Byte) (s : State) :
    (∃ i, lowestSetBit (s.scanBits pol j v) = some i ∧
      scanAfterRead pol j v s = s.complete true (BitVec.ofNat 64 (j * 8 + i))) ∨
    (lowestSetBit (s.scanBits pol j v) = none ∧ j < s.lastByte ∧ scanAfterRead pol j v s = s.goto (.scanAt (j + 1))) ∨
    (lowestSetBit (s.scanBits pol j v) = none ∧ ¬ j < s.lastByte ∧ scanAfterRead pol j v s = s.complete false ones64) := by
  unfold scanAfterRead
  cases h : lowestSetBit (s.scanBits pol j v) with
  | some i => exact .inl ⟨i, rfl, rfl⟩
  | none =>
    by_cases hj : j < s.lastByte
    · exact .inr (.inl ⟨rfl, hj, by simp [hj]⟩)
    · exact .inr (.inr ⟨rfl, hj, by simp [hj, State.completeSearch]⟩)

/-- The bits SCAN tests in byte j: those of the byte that match and lie in [start, end) (R91, R94). -/
theorem State.getLsbD_scanBits {s : State} {j : Nat} (hlt : s.scanStart < s.scanEnd) (h1 : s.firstByte ≤ j)
    (h2 : j ≤ s.lastByte) (pol : Bool) (v : Byte) (i : Nat) (hi : i < 8) :
    (s.scanBits pol j v).getLsbD i = true ↔
      v.getLsbD i = pol ∧ s.scanStart ≤ j * 8 + i ∧ j * 8 + i < s.scanEnd := by
  rw [State.firstByte_eq] at h1
  rw [State.lastByte_eq] at h2
  have hlo : s.scanLo j ≤ s.scanHi j := by
    unfold State.scanLo State.scanHi
    rw [State.firstByte_eq, State.lastByte_eq]
    split <;> split <;> (try split) <;> omega
  have hhi : s.scanHi j ≤ 8 := by
    unfold State.scanHi
    split
    · split <;> omega
    · omega
  have hrange : (s.scanLo j ≤ i ∧ i < s.scanHi j) ↔ (s.scanStart ≤ j * 8 + i ∧ j * 8 + i < s.scanEnd) := by
    unfold State.scanLo State.scanHi
    rw [State.firstByte_eq, State.lastByte_eq]
    split <;> split <;> (try split) <;> omega
  rw [State.scanBits, BitVec.getLsbD_and, getLsbD_mask8 hlo hhi, ← hrange]
  cases pol
  · simp [hi]
  · simp

/-! ### PEQB -/

/-- The engine stands before the read of A[j]: at the start with k > 0, or in the loop. -/
def State.AtPairA (s : State) (j : Nat) : Prop :=
  (s.phase = .busy .start ∧ s.prefixLen ≠ 0 ∧ j = 0) ∨ s.phase = .busy (.pairA j)

theorem pairStep_atA {s : State} {j : Nat} (h : s.AtPairA j) (order : BitOrder) :
    pairStep order s = .next (s.memRead (s.addrA j) (pairAfterA j)) := by
  rcases h with ⟨hp, hk, rfl⟩ | hp
  · simp [pairStep, hp, hk]
  · simp [pairStep, hp]

theorem pairStep_atB {s : State} {j : Nat} {u : Byte} (h : s.phase = .busy (.pairB j u)) (order : BitOrder) :
    pairStep order s = .next (s.memRead (s.addrB j) (pairAfterB order j u)) := by
  simp [pairStep, h]

theorem pairStep_zero {s : State} (hp : s.phase = .busy .start) (h : s.prefixLen = 0) (order : BitOrder) :
    pairStep order s = .next (s.completeEq true) := by
  simp [pairStep, hp, h]

/-- Where a step of PEQB can start. -/
theorem pairStep_cases {s t : State} {order : BitOrder} (h : pairStep order s = .next t) :
    (s.phase = .busy .start ∧ s.prefixLen = 0 ∧ t = s.completeEq true) ∨
    (∃ j, s.AtPairA j ∧ t = s.memRead (s.addrA j) (pairAfterA j)) ∨
    (∃ j u, s.phase = .busy (.pairB j u) ∧ t = s.memRead (s.addrB j) (pairAfterB order j u)) := by
  unfold pairStep at h
  split at h
  · next hp =>
    cases h
    split
    · next hk => exact .inl ⟨hp, hk, rfl⟩
    · next hk => exact .inr (.inl ⟨0, .inl ⟨hp, hk, rfl⟩, rfl⟩)
  · next j hp => cases h; exact .inr (.inl ⟨j, .inr hp, rfl⟩)
  · next j u hp => cases h; exact .inr (.inr ⟨j, u, hp, rfl⟩)
  all_goals cases h

/-- What a step of PEQB does after the B byte is read. -/
theorem pairAfterB_cases (order : BitOrder) (j : Nat) (u v : Byte) (s : State) :
    (s.pairEq order j u v = true ∧ j + 1 < s.prefixBytes ∧ pairAfterB order j u v s = s.goto (.pairA (j + 1))) ∨
    (s.pairEq order j u v = true ∧ ¬ j + 1 < s.prefixBytes ∧ pairAfterB order j u v s = s.complete false 1#64) ∨
    (s.pairEq order j u v = false ∧ pairAfterB order j u v s = s.complete false 0#64) := by
  unfold pairAfterB
  cases h : s.pairEq order j u v with
  | true =>
    by_cases hj : j + 1 < s.prefixBytes
    · exact .inl ⟨rfl, hj, by simp [hj]⟩
    · exact .inr (.inl ⟨rfl, hj, by simp [hj, State.completeEq, State.completeValue, b2v]⟩)
  | false => exact .inr (.inr ⟨rfl, by simp [State.completeEq, State.completeValue, b2v]⟩)

/-- The bytes at index j agree exactly when their stream bits below k do (R140, R143). -/
theorem State.pairEq_iff {s : State} {j : Nat} (hj : j < s.prefixBytes) (order : BitOrder) (u v : Byte) :
    s.pairEq order j u v = true ↔
      ∀ n, n / 8 = j → n < s.prefixLen → streamBit order (fun _ => u) n = streamBit order (fun _ => v) n := by
  rw [State.lt_prefixBytes_iff] at hj
  unfold State.pairEq
  rw [State.wholeBytes_eq]
  split
  · next hq =>
    rw [beq_iff_eq]
    constructor
    · rintro rfl n _ _; rfl
    · intro h
      apply BitVec.eq_of_getLsbD_eq
      intro i hi
      cases order
      · have := h (8 * j + (7 - i)) (by omega) (by omega)
        simpa only [streamBit, show 7 - (8 * j + (7 - i)) % 8 = i by omega] using this
      · have := h (8 * j + i) (by omega) (by omega)
        simpa only [streamBit, show (8 * j + i) % 8 = i by omega] using this
  · next hq =>
    have hjq : j = s.prefixLen / 8 := by omega
    rw [State.remainderBits, if_neg (by omega)]
    have hr : s.prefixLen % 8 ≤ 8 := by omega
    cases order
    · rw [shiftedEq_msb_iff]
      constructor
      · intro h n hn hk
        exact h _ (by omega) (by omega)
      · intro h i hi hm
        have := h (8 * j + (7 - i)) (by omega) (by omega)
        simpa only [streamBit, show 7 - (8 * j + (7 - i)) % 8 = i by omega] using this
    · rw [shiftedEq_lsb_iff _ _ hr]
      constructor
      · intro h n hn hk
        exact h _ (by omega)
      · intro h i hi
        have := h (8 * j + i) (by omega) (by omega)
        simpa only [streamBit, show (8 * j + i) % 8 = i by omega] using this

/-! ### The read that the next engine step holds -/

/-- Everything an engine step of a running command can do with the port: it is the read that `nextRead` names, and the
pseudocode goes on from it, or it reads nothing and completes the command (R33, R91, R143). -/
theorem exec_reads_or_completes {s : State} {i : Instr} (hd : s.runsCommand i) (hb : s.phase.isBusy = true)
    (hp : s.progressOk) :
    (∃ a k, s.nextRead = some a ∧ exec i s = .next (s.memRead a k)) ∨
    (s.nextRead = none ∧ ∃ f r, exec i s = .next (s.complete f r)) := by
  have hu : ∀ j, s.runsCommand j → j = i := fun j hj => Decoded.command.inj (hj.symm.trans hd)
  cases hph : s.phase with
  | idle => rw [hph] at hb; cases hb
  | busy p =>
    cases p with
    | start =>
      have hn : s.nextRead = match i with
        | .ffs | .ffc => if s.scanStart < s.scanEnd then some (s.addrA s.firstByte) else none
        | .peqbMsb | .peqbLsb => if s.prefixLen = 0 then none else some (s.addrA 0)
        | _ => none := by
        simp only [State.nextRead, hph, show decode s.lat.cmd = .command i from hd]; cases i <;> rfl
      rw [hn]
      cases i
      case ffs | ffc =>
        by_cases h : s.scanStart < s.scanEnd
        · exact .inl ⟨_, _, if_pos h, scanStep_at (.inl ⟨hph, h, rfl⟩) _⟩
        · exact .inr ⟨if_neg h, _, _, scanStep_empty hph h _⟩
      case peqbMsb | peqbLsb =>
        by_cases h : s.prefixLen = 0
        · exact .inr ⟨if_pos h, _, _, pairStep_zero hph h _⟩
        · exact .inl ⟨_, _, if_neg h, pairStep_atA (.inl ⟨hph, h, rfl⟩) _⟩
      case hibit32 | hibit64 | lobit32 | lobit64 =>
        refine .inr ⟨rfl, ?_⟩
        simp only [exec, execHibit32, execHibit64, execLobit32, execLobit64, State.completeSearch]
        split <;> exact ⟨_, _, rfl⟩
      all_goals exact .inr ⟨rfl, _, _, rfl⟩
    | scanAt j =>
      simp only [State.progressOk, hph] at hp
      rcases hp.1 with h | h <;> obtain rfl := hu _ h <;>
        exact .inl ⟨_, _, by simp only [State.nextRead, hph], scanStep_at (.inr hph) _⟩
    | pairA j =>
      simp only [State.progressOk, hph] at hp
      rcases hp.1 with h | h <;> obtain rfl := hu _ h <;>
        exact .inl ⟨_, _, by simp only [State.nextRead, hph], pairStep_atA (.inr hph) _⟩
    | pairB j u =>
      simp only [State.progressOk, hph] at hp
      rcases hp.1 with h | h <;> obtain rfl := hu _ h <;>
        exact .inl ⟨_, _, by simp only [State.nextRead, hph], pairStep_atB hph _⟩

/-- While the read that the next engine step holds is never answered, that step does nothing (R189). -/
theorem exec_while_unanswered {s : State} {i : Instr} {a b : Nat} (hd : s.runsCommand i) (hb : s.phase.isBusy = true)
    (hp : s.progressOk) (hn : s.nextRead = some a) (hu : s.unanswered = some b) : exec i s = .next s := by
  rcases exec_reads_or_completes hd hb hp with ⟨c, k, _, he⟩ | ⟨h, _⟩
  · rw [he, State.memRead_unanswered hu]
  · rw [hn] at h; cases h

/-! ### Runs -/

theorem stepN_succ_of_step {s t : State} (h : step s = .next t) (n : Nat) : stepN (n + 1) s = stepN n t := by
  simp [stepN, h]

/-- The host's run of any machine, one step. -/
theorem run_succ (M : Host.Core) (n : Nat) (s : M.State) :
    (∀ t, M.step s = .next t → M.run (n + 1) s = M.run n t) ∧
    (∀ r, M.step s = .fault r → M.run (n + 1) s = .fault r) ∧
    (∀ r, M.step s = .refused r → M.run (n + 1) s = .refused r) :=
  ⟨fun t h => by simp [Host.Core.run, h], fun r h => by simp [Host.Core.run, h], fun r h => by simp [Host.Core.run, h]⟩

/-- A run of n steps is the host's run of the machine. -/
theorem run_eq_stepN (n : Nat) (s : State) : Host.Core.run Sys2Proof.core n s = stepN n s := by
  induction n generalizing s with
  | zero => rfl
  | succ n ih =>
    obtain ⟨h1, h2, h3⟩ := run_succ Sys2Proof.core n s
    cases hq : step s with
    | next t => rw [stepN_succ_of_step hq, ← ih t]; exact h1 t hq
    | fault r => rw [show stepN (n + 1) s = .fault r by simp [stepN, hq]]; exact h2 r hq
    | refused r => rw [show stepN (n + 1) s = .refused r by simp [stepN, hq]]; exact h3 r hq

end Sys2Proof.Machine
end

