-- ==== Sys2Proof/Laws/PerInstr.lean ====
section
/-! SUPPORT. One lemma for each constructor of Instr: the command word of every command has the form of
30_encoding.md R70 and R72. -/

namespace Sys2Proof.Laws.EncodingForm

/-- The command word of i is well formed, and equals its opcode zero-extended. -/
def Statement (i : Instr) : Prop :=
  (RawCommand.ofWord (encode i)).wf = true ∧ (encode i).toNat = (opcodeOf i).toNat

theorem ffs : Statement .ffs := by unfold Statement; decide
theorem ffc : Statement .ffc := by unfold Statement; decide
theorem hibit32 : Statement .hibit32 := by unfold Statement; decide
theorem hibit64 : Statement .hibit64 := by unfold Statement; decide
theorem lobit32 : Statement .lobit32 := by unfold Statement; decide
theorem lobit64 : Statement .lobit64 := by unfold Statement; decide
theorem parity32 : Statement .parity32 := by unfold Statement; decide
theorem popcnt64 : Statement .popcnt64 := by unfold Statement; decide
theorem rup32 : Statement .rup32 := by unfold Statement; decide
theorem rup64 : Statement .rup64 := by unfold Statement; decide
theorem rdn32 : Statement .rdn32 := by unfold Statement; decide
theorem rdn64 : Statement .rdn64 := by unfold Statement; decide
theorem peqbMsb : Statement .peqbMsb := by unfold Statement; decide
theorem peqbLsb : Statement .peqbLsb := by unfold Statement; decide
theorem peq32Msb : Statement .peq32Msb := by unfold Statement; decide
theorem peq32Lsb : Statement .peq32Lsb := by unfold Statement; decide
theorem peq64Msb : Statement .peq64Msb := by unfold Statement; decide
theorem peq64Lsb : Statement .peq64Lsb := by unfold Statement; decide

end Sys2Proof.Laws.EncodingForm
end

