-- ==== Sys2Proof/Laws/Step.lean ====
section
/-! SUPPORT. One step of the machine, seen from the block: nothing, one register write, one engine step, or reset. -/

namespace Sys2Proof.Machine

@[simp] theorem State.writeReg_cfg (s : State) (r : Reg) (v : Word) : (s.writeReg r v).cfg = s.cfg := by
  cases r <;> try rfl
  simp only [State.writeReg]; split <;> rfl

@[simp] theorem State.writeReg_mem (s : State) (r : Reg) (v : Word) : (s.writeReg r v).mem = s.mem := by
  cases r <;> try rfl
  simp only [State.writeReg]; split <;> rfl

@[simp] theorem State.writeReg_reads (s : State) (r : Reg) (v : Word) : (s.writeReg r v).reads = s.reads := by
  cases r <;> try rfl
  simp only [State.writeReg]; split <;> rfl

@[simp] theorem State.writeReg_host (s : State) (r : Reg) (v : Word) : (s.writeReg r v).host = s.host := by
  cases r <;> try rfl
  simp only [State.writeReg]; split <;> rfl

@[simp] theorem State.writeReg_inputs (s : State) (r : Reg) (v : Word) : (s.writeReg r v).inputs = s.inputs := by
  cases r <;> try rfl
  simp only [State.writeReg]; split <;> rfl

/-- A register write depends on the window and the phase only, so it commutes with taking the due input. -/
theorem State.writeReg_takeInput (s : State) (r : Reg) (v : Word) :
    s.takeInput.writeReg r v = (s.writeReg r v).takeInput := by
  cases r <;> try rfl
  show (if s.x.status.busy then _ else _) = State.takeInput (if s.x.status.busy then _ else _)
  split <;> rfl

/-- Two states agree on the block's own state (10_state.md R40), the parameters, the reads performed and the read that is
never answered. -/
structure SameBlock (s t : State) : Prop where
  x : t.x = s.x
  lat : t.lat = s.lat
  phase : t.phase = s.phase
  reads : t.reads = s.reads
  unanswered : t.unanswered = s.unanswered
  cfg : t.cfg = s.cfg

/-- The read that the next engine step holds is chosen by the block and the parameters. -/
theorem SameBlock.nextRead_eq {s t : State} (h : SameBlock s t) : t.nextRead = s.nextRead := by
  simp only [State.nextRead, State.scanStart, State.scanEnd, State.firstByte, State.prefixLen, State.addrA, State.addrB,
    h.phase, h.lat, h.cfg]
  rfl

/-- The inversion lemma of step, seen from the block. -/
theorem step_block_cases {s t : State} (h : step s = .next t) :
    SameBlock s t ∨ (∃ r v, s.writesReg r v ∧ SameBlock (s.writeReg r v) t) ∨
    (∃ a, s.dueInput = .engine a ∧ engineTurn (s.takeInput.withAnswer a) = .next t) ∨
    (s.dueInput = .reset ∧ SameBlock s.applyReset t) := by
  rcases step_cases h with ⟨a, hd, rfl⟩ | ⟨hd, rfl⟩ | ⟨a, hd, he⟩ | ⟨a, v, hd, rfl⟩ | ⟨hd, rfl⟩ | ⟨hd, rfl⟩
  · rcases s.takeInput.busAccess_cases a with he | ⟨p, he⟩ | ⟨r, v, ha, he⟩ <;> rw [he]
    · exact .inl ⟨rfl, rfl, rfl, rfl, rfl, rfl⟩
    · exact .inl ⟨rfl, rfl, rfl, rfl, rfl, rfl⟩
    · refine .inr (.inl ⟨r, v, .inl (by rw [hd, ha]; rfl), ?_⟩)
      rw [State.writeReg_takeInput]; exact ⟨rfl, rfl, rfl, rfl, rfl, rfl⟩
  · rcases s.takeInput.hostTurn_cases with ⟨x, he⟩ | ⟨p, x, he⟩ | ⟨r, v, x, hh, hs, he⟩ <;> rw [he]
    · exact .inl ⟨rfl, rfl, rfl, rfl, rfl, rfl⟩
    · exact .inl ⟨rfl, rfl, rfl, rfl, rfl, rfl⟩
    · refine .inr (.inl ⟨r, v, .inr ⟨hd, hh, hs⟩, ?_⟩)
      rw [State.writeReg_takeInput]; exact ⟨rfl, rfl, rfl, rfl, rfl, rfl⟩
  · exact .inr (.inr (.inl ⟨a, hd, he⟩))
  · exact .inl ⟨by simp, by simp, by simp, by simp, by simp, by simp⟩
  · exact .inl ⟨rfl, rfl, rfl, rfl, rfl, rfl⟩
  · exact .inr (.inr (.inr ⟨hd, ⟨rfl, rfl, rfl, rfl, rfl, rfl⟩⟩))

/-- Every step takes the due input off the list, and no agent adds one. -/
theorem step_inputs {s t : State} (h : step s = .next t) : t.inputs = s.inputs.tail := by
  rcases step_cases h with ⟨a, _, rfl⟩ | ⟨_, rfl⟩ | ⟨a, _, he⟩ | ⟨a, v, _, rfl⟩ | ⟨_, rfl⟩ | ⟨_, rfl⟩
  · rcases s.takeInput.busAccess_cases a with he | ⟨p, he⟩ | ⟨r, v, _, he⟩ <;> rw [he] <;> simp [State.takeInput]
  · rcases s.takeInput.hostTurn_cases with ⟨x, he⟩ | ⟨p, x, he⟩ | ⟨r, v, x, _, _, he⟩ <;> rw [he] <;> simp [State.takeInput]
  · rcases engineTurn_cases he with ⟨_, rfl⟩ | ⟨p, i, _, _, he⟩ | ⟨p, why, _, _, rfl⟩
    · simp [State.takeInput]
    · cases exec_effect he <;> simp [State.takeInput, State.raiseBusError]
    · simp [State.takeInput, State.raiseIllegalCommand]
  all_goals simp [State.takeInput]

/-! ### The engine's turn by the list of inputs -/

theorem step_engine {s : State} {a : MemAnswer} {rest : List Input} {p : Progress} {i : Instr}
    (hp : s.phase = .busy p) (hd : decode s.lat.cmd = .command i) (hi : s.inputs = .engine a :: rest) :
    step s = exec i (State.withAnswer { s with inputs := rest } a) := by
  unfold step turn
  rw [State.dueInput_cons s _ rest hi]
  simp [applyInput, engineTurn, hp, hd, State.takeInput, State.withAnswer, hi]

theorem step_engine_idle {s : State} {a : MemAnswer} {rest : List Input} (hp : s.phase = .idle)
    (hi : s.inputs = .engine a :: rest) : step s = .next (State.withAnswer { s with inputs := rest } a) := by
  unfold step turn
  rw [State.dueInput_cons s _ rest hi]
  simp [applyInput, engineTurn, hp, State.takeInput, State.withAnswer, hi]

/-- An idle block takes engine turns off the list and does nothing else. -/
theorem stepN_idle (picks : List Nat) : ∀ (s : State) (rest : List Input), s.phase = .idle →
    s.inputs = engineTurns picks ++ rest → ∃ a, stepN picks.length s = .next { s with inputs := rest, answer := a } := by
  induction picks with
  | nil =>
    intro s rest _ h
    refine ⟨s.answer, ?_⟩
    have h' : s.inputs = rest := by simpa [engineTurns] using h
    simp [stepN, ← h']
  | cons q qs ih =>
    intro s rest hp hi
    have hs := step_engine_idle (a := .data q) (rest := engineTurns qs ++ rest) hp (by simpa [engineTurns] using hi)
    obtain ⟨a, ha⟩ := ih (State.withAnswer { s with inputs := engineTurns qs ++ rest } (.data q)) rest hp rfl
    exact ⟨a, (stepN_succ_of_step hs qs.length).trans ha⟩

end Sys2Proof.Machine
end

