-- ==== Sys2Proof/Laws/Runs.lean ====
section
/-! SUPPORT. A command that runs while the hosts move: what the hosts' moves leave as it was, what an unraced read returns,
and how a run that completes is put together step by step. -/

namespace Sys2Proof.Machine

/-- While BUSY, a register write changes neither the phase nor the latch, and STATUS.BUSY stays. -/
theorem State.writeReg_while_busy {s : State} (hb : s.x.status.busy = true) (r : Reg) (v : Word) :
    (s.writeReg r v).phase = s.phase ∧ (s.writeReg r v).lat = s.lat ∧ (s.writeReg r v).x.status.busy = true ∧
    (s.writeReg r v).held = s.held ∧ (s.writeReg r v).unpublished = s.unpublished ∧
    (s.writeReg r v).unanswered = s.unanswered := by
  rcases s.writeReg_cases r v with ⟨rfl, h1, h⟩ | ⟨rfl, h1, h⟩ | ⟨rfl, h⟩ | ⟨_, h⟩ | ⟨_, h⟩ | ⟨_, h⟩ | ⟨_, h⟩ | ⟨_, h⟩ | ⟨_, h⟩ <;>
    rw [h]
  case inr.inl => rw [hb] at h1; cases h1
  all_goals simp [hb]

theorem State.Unraced.tail {s t : State} {x : Input} {l : List Input} {a : Nat} (h : s.Unraced (x :: l) a)
    (h1 : t.held = s.held) (h2 : t.unpublished = s.unpublished) : t.Unraced l a :=
  ⟨by rw [h1]; exact h.1, by rw [h2]; exact h.2.1, fun v hv => h.2.2 v (List.mem_cons_of_mem _ hv)⟩

/-- A read that nothing races returns the byte the memory holds (R52). -/
theorem State.Unraced.byteSeen {s : State} {l : List Input} {a : Nat} (h : s.Unraced l a) (p : Nat) :
    s.byteSeen a p = Memory.read s.mem a := by
  have hv : ∀ cs : List Host.Cell, (∀ c ∈ cs, c.1 ≠ a) → valuesAt cs a = [] := by
    intro cs hc
    unfold valuesAt
    rw [List.filter_eq_nil_iff.mpr (by intro c hcm; simpa using hc c hcm)]; rfl
  exact State.byteSeen_of_no_race (hv _ h.1) (hv _ h.2.1) p

/-- What a move of a host or of the memory's writers leaves as it was while a command runs; x :: l were due. -/
structure HostMove (s t : State) (x : Input) (l : List Input) : Prop where
  phase : t.phase = s.phase
  lat : t.lat = s.lat
  cfg : t.cfg = s.cfg
  reads : t.reads = s.reads
  unanswered : t.unanswered = s.unanswered
  busy : t.x.status.busy = true
  byte : ∀ a, s.Unraced (x :: l) a → t.Unraced l a ∧ Memory.read t.mem a = Memory.read s.mem a

/-- While a command runs, every answered input that is no turn of the engine is such a move. -/
theorem step_host_move {s : State} {x : Input} {l rest : List Input} (hb : s.x.status.busy = true)
    (hi : s.inputs = x :: l ++ rest) (ha : isAnsweredInput x = true) (hx : ∀ a, x ≠ .engine a) :
    ∃ t, step s = .next t ∧ HostMove s t x l ∧ t.inputs = l ++ rest := by
  have hd : s.dueInput = x := by simp [State.dueInput, hi]
  have ht : s.takeInput.inputs = l ++ rest := by simp [State.takeInput, hi]
  have hb' : s.takeInput.x.status.busy = true := hb
  unfold step turn
  rw [hd]
  cases x with
  | bus acc =>
    refine ⟨_, rfl, ?_⟩
    rcases s.takeInput.busAccess_cases acc with he | ⟨p, he⟩ | ⟨r, v, _, he⟩ <;> rw [he]
    · exact ⟨⟨rfl, rfl, rfl, rfl, rfl, hb, fun a h => ⟨h.tail rfl rfl, rfl⟩⟩, ht⟩
    · exact ⟨⟨rfl, rfl, rfl, rfl, rfl, hb, fun a h => ⟨h.tail rfl rfl, rfl⟩⟩, ht⟩
    · obtain ⟨h1, h2, h3, h4, h5, h6⟩ := State.writeReg_while_busy hb' r v
      exact ⟨⟨h1, h2, State.writeReg_cfg _ _ _, State.writeReg_reads _ _ _, h6, h3, fun a h =>
        ⟨h.tail h4 h5, congrArg (Memory.read · a) (State.writeReg_mem s.takeInput r v)⟩⟩,
        (State.writeReg_inputs _ _ _).trans ht⟩
  | program =>
    refine ⟨_, rfl, ?_⟩
    rcases s.takeInput.hostTurn_cases with ⟨x, he⟩ | ⟨p, x, he⟩ | ⟨r, v, x, hh, hs, he⟩ <;> rw [he]
    · exact ⟨⟨rfl, rfl, rfl, rfl, rfl, hb, fun a h => ⟨h.tail rfl rfl, rfl⟩⟩, ht⟩
    · exact ⟨⟨rfl, rfl, rfl, rfl, rfl, hb, fun a h => ⟨h.tail rfl rfl, rfl⟩⟩, ht⟩
    · obtain ⟨h1, h2, h3, h4, h5, h6⟩ := State.writeReg_while_busy hb' r v
      exact ⟨⟨h1, h2, State.writeReg_cfg _ _ _, State.writeReg_reads _ _ _, h6, h3, fun a h =>
        ⟨h.tail h4 h5, congrArg (Memory.read · a) (State.writeReg_mem s.takeInput r v)⟩⟩,
        (State.writeReg_inputs _ _ _).trans ht⟩
  | engine a => exact absurd rfl (hx a)
  | store b v =>
    refine ⟨_, rfl, ⟨by simp, by simp, by simp, by simp, by simp, by simpa using hb, fun a h => ?_⟩, ?_⟩
    · have hne : b ≠ a := fun hh => h.2.2 v (by rw [hh]; exact List.mem_cons_self)
      unfold State.storeByte
      split
      · refine ⟨⟨?_, ?_, fun w hw => h.2.2 w (List.mem_cons_of_mem _ hw)⟩, Memory.read_write_ne hne.symm _ _⟩
        · intro c hc
          replace hc : c ∈ (b, Memory.read s.takeInput.mem b) :: s.takeInput.held := by simpa only [hb', if_true] using hc
          rcases List.mem_cons.mp hc with rfl | hc
          · exact hne
          · exact h.1 c hc
        · intro c hc
          rcases List.mem_cons.mp hc with rfl | hc
          · exact hne
          · exact h.2.1 c hc
      · exact ⟨h.tail rfl rfl, rfl⟩
    · rw [show (s.takeInput.storeByte b v).inputs = s.takeInput.inputs by simp]; exact ht
  | publish =>
    refine ⟨_, rfl, ⟨rfl, rfl, rfl, rfl, rfl, hb, fun a h => ⟨⟨?_, fun c hc => (List.not_mem_nil hc).elim,
      fun w hw => h.2.2 w (List.mem_cons_of_mem _ hw)⟩, rfl⟩⟩, ht⟩
    intro c hc
    simp only [State.publishStores_held, hb', if_true] at hc
    rcases List.mem_append.mp hc with hc | hc
    · exact h.2.1 c hc
    · exact h.1 c hc
  | reset => cases ha

theorem countEngineTurns_of_host {x : Input} (hx : ∀ a, x ≠ .engine a) (l : List Input) :
    countEngineTurns (x :: l) = countEngineTurns l := by
  cases x <;> first | rfl | exact absurd rfl (hx _)

/-- A run that completes, after one more step in front. -/
theorem State.CompletesWithin.cons {s t u : State} {l : List Input} (x : Input) (hs : step s = .next u)
    (hb : s.phase.isBusy = true) (hl : u.lat = s.lat) (h : u.CompletesWithin l t) : s.CompletesWithin (x :: l) t := by
  obtain ⟨⟨n, hn, hr, hm⟩, h1, h2, h3, h4, h5, h6⟩ := h
  refine ⟨⟨n + 1, by simpa using hn, (stepN_succ_of_step hs n).trans hr, ?_⟩, h1, h2, h3, h4, h5, h6.trans hl⟩
  intro m hmn
  cases m with
  | zero => exact ⟨s, rfl, hb⟩
  | succ m =>
    obtain ⟨w, hw, hwb⟩ := hm m (by omega)
    exact ⟨w, (stepN_succ_of_step hs m).trans hw, hwb⟩

/-- A step that completes. -/
theorem State.CompletesWithin.of_step {s t : State} (x : Input) (l : List Input) (hs : step s = .next t)
    (hb : s.phase.isBusy = true) {u : State} {f : Bool} {r : Word} (ht : t = u.complete f r) (hl : u.lat = s.lat) :
    s.CompletesWithin (x :: l) t := by
  subst ht
  refine ⟨⟨1, by simp, by simp [stepN, hs], ?_⟩, by simp, by simp, by simp, by simp, by simp, hl⟩
  intro m hm
  have h0 : m = 0 := by omega
  subst h0; exact ⟨s, rfl, hb⟩

/-- A command whose first engine step completes it, whatever is due around that step. -/
theorem completes_in_one_turn (i : Instr) (f : Bool) (r : Word) (lat : Latch)
    (hex : ∀ u : State, u.phase = .busy .start → u.lat = lat → exec i u = .next (u.complete f r)) :
    ∀ (l : List Input) (s : State), s.Starts i l 1 → s.lat = lat →
      ∃ t, s.CompletesWithin l t ∧ t.x.status.found = f ∧ t.x.result = r ∧ t.reads = s.reads := by
  intro l
  induction l with
  | nil => intro s h _; exact absurd h.turns (by simp [countEngineTurns])
  | cons x l ih =>
    intro s ⟨hp, hb, hd, hn, ⟨rest, hi⟩, ha, ht⟩ hL
    have hbusy : s.phase.isBusy = true := by rw [hp]; rfl
    by_cases hx : ∃ a, x = .engine a
    · obtain ⟨a, rfl⟩ := hx
      have hstep := step_engine hp hd (a := a) (rest := l ++ rest) hi
      rw [hex _ (by exact hp) (by exact hL)] at hstep
      exact ⟨_, .of_step _ l hstep hbusy rfl rfl, by simp, by simp, by simp⟩
    · have hx' : ∀ a, x ≠ .engine a := fun a h => hx ⟨a, h⟩
      obtain ⟨u, hu, hm, hui⟩ := step_host_move hb hi (ha x List.mem_cons_self) hx'
      obtain ⟨t, h1, h2, h3, h4⟩ := ih u ⟨hm.phase.trans hp, hm.busy, by rw [State.runsCommand, hm.lat]; exact hd,
        hm.unanswered.trans hn, ⟨rest, hui⟩,
        fun y hy => ha y (List.mem_cons_of_mem _ hy), by rw [← countEngineTurns_of_host hx' l]; exact ht⟩ (hm.lat.trans hL)
      exact ⟨t, .cons _ hu hbusy hm.lat h1, h2, h3, h4.trans hm.reads⟩

end Sys2Proof.Machine
end

