-- ==== Sys2Proof/Tests/Slice0.lean ====
section
/-! SUPPORT. Tests against the spec's own words and vectors (95_test_vectors.md; the vector's id stands with each test), the
smoke tests of WellFormed, and for every statement with hypotheses a state that meets them. -/

namespace Sys2Proof.Tests

open Sys2Proof.Machine Sys2Proof.Reference

/-! ### WellFormed: an ill-formed word for each check -/

theorem test_wf_refuses_reserved_bits : (RawCommand.ofWord 0x0000000100000001#64).wf = false := by decide
theorem test_wf_refuses_unassigned_opcode : (RawCommand.ofWord 0x0000000000000022#64).wf = false := by decide
theorem test_wf_accepts_ffs : (RawCommand.ofWord 0x0000000000000001#64).wf = true := by decide

/-! ### Decoding: the words of 30_encoding.md R72, in each command's own rule -/

theorem test_decode_scan : decode 0x0000000000000001#64 = .command .ffs ∧ decode 0x0000000000000002#64 = .command .ffc := by
  decide
theorem test_decode_search : decode 0x0000000000000010#64 = .command .hibit32 ∧
    decode 0x0000000000000011#64 = .command .hibit64 ∧ decode 0x0000000000000012#64 = .command .lobit32 ∧
    decode 0x0000000000000013#64 = .command .lobit64 := by decide
theorem test_decode_count : decode 0x0000000000000020#64 = .command .parity32 ∧
    decode 0x0000000000000021#64 = .command .popcnt64 := by decide
theorem test_decode_round : decode 0x0000000000000030#64 = .command .rup32 ∧
    decode 0x0000000000000031#64 = .command .rup64 ∧ decode 0x0000000000000032#64 = .command .rdn32 ∧
    decode 0x0000000000000033#64 = .command .rdn64 := by decide
theorem test_decode_prefix : decode 0x0000000000000040#64 = .command .peqbMsb ∧
    decode 0x0000000000000041#64 = .command .peqbLsb ∧ decode 0x0000000000000042#64 = .command .peq32Msb ∧
    decode 0x0000000000000043#64 = .command .peq32Lsb ∧ decode 0x0000000000000044#64 = .command .peq64Msb ∧
    decode 0x0000000000000045#64 = .command .peq64Lsb := by decide
/-- CE1 to CE5. -/
theorem test_decode_illegal : decode 0x0000000000000000#64 = .illegal .unassignedOpcode ∧
    decode 0x0000000000000003#64 = .illegal .unassignedOpcode ∧
    decode 0x0000000000000046#64 = .illegal .unassignedOpcode ∧
    decode 0x0000000100000001#64 = .illegal .reservedBits ∧ decode 0x0000000000000100#64 = .illegal .reservedBits := by
  decide
theorem test_decodeTableWord : decodeTableWord 64 0x44 = some .peq64Msb ∧ decodeTableWord 8 0x44 = some .peq64Msb ∧
    decodeTableWord 64 0x100000044 = none := by decide

/-! ### A state builder -/

/-- A latch of the given operands. -/
def lat (c : Instr) (opa opb start stop k : Nat) : Latch :=
  { cmd := encode c, opa := .ofNat 64 opa, opb := .ofNat 64 opb, start := .ofNat 64 start, endOff := .ofNat 64 stop,
    k := .ofNat 64 k }

/-- A block that runs the latched command from a progress point, with STATUS.BUSY = 1. -/
def running (l : Latch) (p : Progress) (mem : Memory) (answer : MemAnswer) : State :=
  { State.reset with
    x := { Window.reset with cmd := l.cmd, status := 1#64 }, lat := l, phase := .busy p, mem := mem, answer := answer }

/-- A word command about to run. -/
def wordCommand (c : Instr) (opa opb k : Nat) : State := running (lat c opa opb 0 0 k) .start [] (.data 0)

/-- FOUND, RESULT and STATUS after an outcome. -/
def shows (o : Host.Outcome State Fault Refusal) : Option (Bool × Nat × Nat) :=
  match o with
  | .next t => some (t.x.status.found, t.x.result.toNat, t.x.status.toNat)
  | _ => none

/-- The phase and the addresses read, newest first, after an outcome. -/
def walks (o : Host.Outcome State Fault Refusal) : Option (Phase × List Nat) :=
  match o with
  | .next t => some (t.phase, t.reads.map (fun r => r.addr))
  | _ => none

/-! ### The word commands: the vectors W, Q, RV and PW -/

/-- W3, W4. -/
theorem test_hibit32_top : shows (exec .hibit32 (wordCommand .hibit32 0x80000000 0 0)) = some (true, 31, 0x006) := by decide
theorem test_hibit32_upper_ignored :
    shows (exec .hibit32 (wordCommand .hibit32 0xFFFFFFFF00000000 0 0)) = some (false, 0xFFFFFFFFFFFFFFFF, 0x002) := by
  decide
/-- W7, W8. -/
theorem test_hibit64_bit16 : shows (exec .hibit64 (wordCommand .hibit64 0x10000 0 0)) = some (true, 16, 0x006) := by decide
theorem test_hibit64_all : shows (exec .hibit64 (wordCommand .hibit64 0xFFFFFFFFFFFFFFFF 0 0)) = some (true, 63, 0x006) := by
  decide
/-- W10, W12. -/
theorem test_lobit32 : shows (exec .lobit32 (wordCommand .lobit32 0x60 0 0)) = some (true, 5, 0x006) := by decide
theorem test_lobit32_upper_ignored :
    shows (exec .lobit32 (wordCommand .lobit32 0x100000000 0 0)) = some (false, 0xFFFFFFFFFFFFFFFF, 0x002) := by decide
/-- W13, W15. -/
theorem test_lobit64_bit32 : shows (exec .lobit64 (wordCommand .lobit64 0x100000000 0 0)) = some (true, 32, 0x006) := by decide
theorem test_lobit64_top : shows (exec .lobit64 (wordCommand .lobit64 0x8000000000000000 0 0)) = some (true, 63, 0x006) := by
  decide
/-- Q12, Q13. -/
theorem test_parity32 : shows (exec .parity32 (wordCommand .parity32 0x12345678 0 0)) = some (false, 1, 0x002) := by decide
theorem test_parity32_upper_ignored :
    shows (exec .parity32 (wordCommand .parity32 0x100000000 0 0)) = some (false, 0, 0x002) := by decide
/-- Q3, Q5. -/
theorem test_popcnt64_all : shows (exec .popcnt64 (wordCommand .popcnt64 0xFFFFFFFFFFFFFFFF 0 0)) = some (false, 64, 0x002) := by
  decide
theorem test_popcnt64 : shows (exec .popcnt64 (wordCommand .popcnt64 0x12345678 0 0)) = some (false, 13, 0x002) := by decide
/-- RV5 with RUP_TOPBIT_ZERO false and true. -/
theorem test_rup32_top : shows (exec .rup32 (wordCommand .rup32 0x7FFFFFFF 0 0)) = some (false, 0x80000000, 0x002) := by decide
theorem test_rup32_top_zero :
    shows (exec .rup32 { wordCommand .rup32 0x7FFFFFFF 0 0 with cfg := { Config.default with rupTopbitZero := true } }) =
      some (false, 0, 0x002) := by decide
/-- RV9, X16. -/
theorem test_rup64 : shows (exec .rup64 (wordCommand .rup64 0xFFFFFFFF 0 0)) = some (false, 0x100000000, 0x002) := by decide
theorem test_rup64_fixed_point : shows (exec .rup64 (wordCommand .rup64 8 0 0)) = some (false, 8, 0x002) := by decide
/-- X15, RV17. -/
theorem test_rdn32 : shows (exec .rdn32 (wordCommand .rdn32 5 0 0)) = some (false, 4, 0x002) := by decide
theorem test_rdn32_negative : shows (exec .rdn32 (wordCommand .rdn32 0xFFFFFFFF 0 0)) = some (false, 0, 0x002) := by decide
/-- RV18, RV19. -/
theorem test_rdn64 : shows (exec .rdn64 (wordCommand .rdn64 0xFFFFFFFF 0 0)) = some (false, 0x80000000, 0x002) := by decide
theorem test_rdn64_large :
    shows (exec .rdn64 (wordCommand .rdn64 0x7FFFFFFFFFFFFFFF 0 0)) = some (false, 0x4000000000000000, 0x002) := by decide
/-- PW2, PW5. -/
theorem test_peq32Msb_17 : shows (exec .peq32Msb (wordCommand .peq32Msb 0xABCD0000 0xABCDFFFF 17)) = some (false, 0, 0x002) := by
  decide
theorem test_peq32Msb_upper_ignored :
    shows (exec .peq32Msb (wordCommand .peq32Msb 0x112345678 0xFFFF000012345678 32)) = some (false, 1, 0x002) := by decide
/-- PW6, PW7. -/
theorem test_peq32Lsb_16 : shows (exec .peq32Lsb (wordCommand .peq32Lsb 0x1234 0xFFFF1234 16)) = some (false, 1, 0x002) := by
  decide
theorem test_peq32Lsb_17 : shows (exec .peq32Lsb (wordCommand .peq32Lsb 0x1234 0xFFFF1234 17)) = some (false, 0, 0x002) := by
  decide
/-- PW9, PW10. -/
theorem test_peq64Msb_63 :
    shows (exec .peq64Msb (wordCommand .peq64Msb 0x8000000000000000 0x8000000000000001 63)) = some (false, 1, 0x002) := by
  decide
theorem test_peq64Msb_64 :
    shows (exec .peq64Msb (wordCommand .peq64Msb 0x8000000000000000 0x8000000000000001 64)) = some (false, 0, 0x002) := by
  decide
/-- PW12, PW14. -/
theorem test_peq64Lsb_63 :
    shows (exec .peq64Lsb (wordCommand .peq64Lsb 1 0x8000000000000001 63)) = some (false, 1, 0x002) := by decide
theorem test_peq64Lsb_huge :
    shows (exec .peq64Lsb (wordCommand .peq64Lsb 1 0x8000000000000001 0xFFFFFFFFFFFFFFFF)) = some (false, 0, 0x002) := by decide

/-! ### The memory commands: the vectors S and P, one step each -/

/-- S1, its second read: byte 1 holds bit 10. -/
theorem test_ffs_second_byte :
    shows (exec .ffs (running (lat .ffs 0x1000 0 0 16 0) (.scanAt 1) [(0x1001, 0x04)] (.data 0))) = some (true, 10, 0x006) := by
  decide
/-- S13: the address of the second byte wraps to 0. -/
theorem test_ffs_address_wraps :
    walks (exec .ffs (running (lat .ffs 0xFFFFFFFFFFFFFFFF 0 0 16 0) (.scanAt 1) [(0, 0x01)] (.data 0))) = some (.idle, [0]) := by
  decide
/-- S16, and the first step of S6. -/
theorem test_ffc_bit7 :
    shows (exec .ffc (running (lat .ffc 0x1000 0 7 9 0) .start [(0x1000, 0x7F), (0x1001, 0xFE)] (.data 0))) =
      some (true, 7, 0x006) := by decide
theorem test_ffc_goes_on :
    walks (exec .ffc (running (lat .ffc 0x1000 0 0 24 0) .start [(0x1000, 0xFF)] (.data 0))) =
      some (.busy (.scanAt 1), [0x1000]) := by decide
/-- P1a and P2 at the last read, B[1]: the top 3 bits of 0xCD and 0xC0 agree, the bottom 3 do not. -/
theorem test_peqbMsb_remainder :
    shows (exec .peqbMsb (running (lat .peqbMsb 0x2000 0x3000 0 0 11) (.pairB 1 0xCD) [(0x3001, 0xC0)] (.data 0))) =
      some (false, 1, 0x002) := by decide
theorem test_peqbLsb_remainder :
    shows (exec .peqbLsb (running (lat .peqbLsb 0x2000 0x3000 0 0 11) (.pairB 1 0xCD) [(0x3001, 0xC0)] (.data 0))) =
      some (false, 0, 0x002) := by decide
/-- P7: the comparison stops after byte 0. -/
theorem test_peqbLsb_stops :
    walks (exec .peqbLsb (running (lat .peqbLsb 0x2000 0x3000 0 0 16) (.pairB 0 0x00) [(0x3000, 0x01)] (.data 0))) =
      some (.idle, [0x3000]) := by decide
/-- P1a, its first read. -/
theorem test_peqbMsb_holds_a :
    walks (exec .peqbMsb (running (lat .peqbMsb 0x2000 0x3000 0 0 11) .start [(0x2000, 0xAB)] (.data 0))) =
      some (.busy (.pairB 0 0xAB), [0x2000]) := by decide

/-! ### Errors, the register port and reset: the vectors S12, CE and T -/

/-- S12. -/
theorem test_bus_error :
    shows (exec .ffs (running (lat .ffs 0x1000 0 0 16 0) (.scanAt 1) [] .error)) = some (false, 0x1001, 0x02A) := by decide
/-- CE2. -/
theorem test_illegal_command :
    shows (step (running { lat .ffs 0 0 0 0 0 with cmd := 0x3#64 } .start [] (.data 0))) = some (false, 0, 0x01A) := by decide

/-- A 64-bit host write at an offset, from P_REG_BASE = 0. -/
def hostWrite (off v : Nat) : Input := .bus { addr := off, bits := 64, op := .write (.ofNat 64 v) }

/-- CE6: a CMD write while FFS runs sets OVR only. -/
theorem test_overrun :
    shows (step { running (lat .ffs 0x1000 0 0 16 0) .start [] (.data 0) with inputs := [hostWrite 0x00 0x11] }) =
      some (false, 0, 0x101) := by decide
/-- CE7 and CE8. -/
theorem test_clear_ovr :
    shows (step { State.reset with x := { Window.reset with status := 0x102 }, inputs := [hostWrite 0x08 0x100] }) =
      some (false, 0, 0x002) := by decide
theorem test_status_write_ignored :
    shows (step { State.reset with x := { Window.reset with status := 0x106 }, inputs := [hostWrite 0x08 0xFF] }) =
      some (true, 0, 0x106) := by decide
/-- CE9. -/
theorem test_result_write_ignored :
    shows (step { State.reset with x := { Window.reset with result := 7 }, inputs := [hostWrite 0x38 5] }) =
      some (false, 7, 0) := by decide
/-- S1 before its second read. -/
def ffsX1Reading : State := running (lat .ffs 0x1000 0 0 16 0) (.scanAt 1) [(0x1001, 0x04)] (.data 0)
/-- T2. -/
theorem test_reset_while_busy :
    walks (step { running (lat .ffs 0x1000 0 0 16 0) (.scanAt 1) [] (.data 0) with inputs := [.reset] }) = some (.idle, []) := by
  decide
/-- U11: a read that is never answered; after it neither a turn with data nor one of an exhausted list moves the engine. -/
theorem test_never_answered : (match step { ffsX1Reading with inputs := [.engine .never, .engine (.data 0)] } with
    | .next t => walks (step t)
    | _ => none) = some (.busy (.scanAt 1), []) := by decide
theorem test_stuck_when_hosts_do_nothing :
    walks (step { ffsX1Reading with unanswered := some 0x1001 }) = some (.busy (.scanAt 1), []) := by decide
/-- The port's answer after an outcome. -/
def replies (o : Host.Outcome State Fault Refusal) : Option PortReply :=
  match o with
  | .next t => t.reply
  | _ => none
/-- A window with eight different values, for the reads of R20 to R25. -/
def distinctWindow : Window :=
  { cmd := 0x11, status := 0x106, opa := 0x22, opb := 0x33, start := 0x44, endOff := 0x55, k := 0x66, result := 0x77 }
/-- One Read of the register at each offset of R20. -/
theorem test_read_each_register :
    [0x00, 0x08, 0x10, 0x18, 0x20, 0x28, 0x30, 0x38].map (fun off => replies (step { State.reset with
      x := distinctWindow, inputs := [.bus { addr := off, bits := 64, op := .read }] })) =
    [some (.data 0x11), some (.data 0x106), some (.data 0x22), some (.data 0x33), some (.data 0x44), some (.data 0x55),
      some (.data 0x66), some (.data 0x77)] := by decide
/-- The host's `rd RESULT, h3`. -/
theorem test_host_rd_result : (match step { State.reset with
      x := distinctWindow, inputs := [.program], host := { HostAgent.initial with prog := [.rd .result 3] } } with
    | .next t => some (t.host.h[3], t.host.pc)
    | _ => none) = some (0x77#64, 1) := by decide
theorem test_write_start : (match step { State.reset with x := distinctWindow, inputs := [hostWrite 0x20 0x99] } with
    | .next t => some t.x
    | _ => none) = some { distinctWindow with start := 0x99 } := by decide
/-- The first statement of PROG2, `wr CMD, 0x03`, accepted. -/
theorem test_host_wr_accepts :
    shows (step { State.reset with inputs := [.program], host := { HostAgent.initial with prog := [.wr .cmd 3] } }) =
      some (false, 0, 0x001) := by decide
/-- The host's `run FFS` at position 0 (R79). -/
theorem test_assemble_run :
    assemble [{ label := none, body := .run .ffs }, { label := some 1, body := .halt }, { label := none, body := .bclr 2 2 1 }] =
      some [.wr .cmd 0x1#64, .rd .status 7, .bset 7 0 1, .halt, .bclr 2 2 3] := by decide
/-- A placed word runs in the next step. -/
theorem test_placed_word : shows (step (State.reset.withFetchWord 64 0x10)) = some (false, 0xFFFFFFFFFFFFFFFF, 0x002) := by decide

/-! ### Witnesses: for each statement with hypotheses, states and operands that meet them, one for each of its clauses -/

/-- FFS over the two bytes of X1, about to start. -/
def ffsX1 : State := running (lat .ffs 0x1000 0 0 16 0) .start [(0x1001, 0x04)] (.data 0)
/-- PEQB_MSB over the buffers of P1a, about to start. -/
def peqbP1 : State :=
  running (lat .peqbMsb 0x2000 0x3000 0 0 11) .start [(0x2000, 0xAB), (0x2001, 0xCD), (0x3000, 0xAB), (0x3001, 0xC0)] (.data 0)
/-- A command word that is illegal (CE2), accepted. -/
def illegalRunning : State := running { lat .ffs 0 0 0 0 0 with cmd := 0x3#64 } .start [] (.data 0)
/-- A 64-bit host read at an offset, from P_REG_BASE = 0. -/
def hostRead (off : Nat) : Input := .bus { addr := off, bits := 64, op := .read }

theorem statusOk_busy : StatusOk 1#64 := by constructor <;> decide
theorem ffsX1_busy : ffsX1.phase.isBusy = ffsX1.x.status.busy := by decide
theorem ffsX1_memory : Memory.wf ffsX1.cfg.memSize ffsX1.mem = true := by decide

theorem ffsX1_inv (inputs : List Input) : State.Inv { ffsX1 with inputs := inputs } :=
  ⟨statusOk_busy, ffsX1_busy, rfl, trivial, nofun, ffsX1_memory⟩

/-- A step of `s` answers a next state, so a statement about it is about something. -/
def Steps (s : State) : Prop := ∃ t, step s = .next t

theorem witness_IllegalWords : ∃ (s : State) (c : Word) (why : IllegalWord) (a : MemAnswer) (rest : List Input),
    decode c = .illegal why ∧ s.x.status.busy = false ∧
    s.inputs = .bus { addr := s.cfg.regBase, bits := 64, op := .write c } :: .engine a :: rest :=
  ⟨{ State.reset with inputs := [hostWrite 0 0x47, .engine .never] }, 0x47#64, .unassignedOpcode, .never, [], by decide,
    by decide, by decide⟩

theorem witness_StepRunsTheDecodedCommand_input : ∃ (s : State) (p : Progress) (i : Instr) (a : MemAnswer) (rest : List Input),
    s.phase = .busy p ∧ decode s.lat.cmd = .command i ∧ s.inputs = .engine a :: rest :=
  ⟨{ ffsX1 with inputs := [.engine (.data 3)] }, .start, .ffs, .data 3, [], rfl, by decide, rfl⟩

theorem witness_StepRunsTheDecodedCommand_quiet : ∃ (s : State) (p : Progress) (i : Instr),
    s.phase = .busy p ∧ decode s.lat.cmd = .command i ∧ s.inputs = [] :=
  ⟨ffsX1, .start, .ffs, rfl, by decide, rfl⟩

theorem witness_PlacedWordRunsNext : ∃ (nbits w : Nat) (i : Instr), decodeTableWord nbits w = some i :=
  ⟨64, 0x45, .peq64Lsb, by decide⟩

theorem witness_IllegalCommandCompletes : ∃ (s : State) (p : Progress) (why : IllegalWord) (a : MemAnswer)
    (rest : List Input), s.phase = .busy p ∧ decode s.lat.cmd = .illegal why ∧ s.inputs = .engine a :: rest :=
  ⟨{ illegalRunning with inputs := [.engine .error] }, .start, .unassignedOpcode, .error, [], rfl, by decide, rfl⟩

theorem witness_IdleEngineHasNoStep : ∃ (s : State) (a : MemAnswer) (rest : List Input),
    s.phase = .idle ∧ s.inputs = .engine a :: rest :=
  ⟨{ State.reset with inputs := [.engine .error] }, .error, [], rfl, rfl⟩

theorem witness_AcceptanceStartsTheCommand : ∃ (s : State) (v : Word) (rest : List Input), s.x.status.busy = false ∧
    s.inputs = .bus { addr := s.cfg.regBase + 0x00, bits := 64, op := .write v } :: rest :=
  ⟨{ State.reset with inputs := [hostWrite 0 0] }, 0#64, [], by decide, by decide⟩

theorem witness_OverrunDropsTheWrite : ∃ (s : State) (v : Word) (rest : List Input), s.x.status.busy = true ∧
    s.inputs = .bus { addr := s.cfg.regBase + 0x00, bits := 64, op := .write v } :: rest :=
  ⟨{ ffsX1 with inputs := [hostWrite 0 0x11] }, 0x11#64, [], by decide, by decide⟩

theorem witness_StatusWriteClearsOvrOnly : ∃ (s s' : State) (v v' : Word),
    s.inputs = [.bus { addr := s.cfg.regBase + 0x08, bits := 64, op := .write v }] ∧ v.getLsbD 8 = true ∧
    s'.inputs = [.bus { addr := s'.cfg.regBase + 0x08, bits := 64, op := .write v' }] ∧ v'.getLsbD 8 = false :=
  ⟨{ ffsX1 with inputs := [hostWrite 8 0x100] }, { ffsX1 with inputs := [hostWrite 8 0xFF] }, 0x100#64, 0xFF#64, by decide,
    by decide, by decide, by decide⟩

/-- The first and the last offset, while a command runs; a write that changes K; a reset that clears it. -/
theorem witness_OperandWritesChangeOneRegister :
    (∃ s : State, s.inputs = [.bus { addr := s.cfg.regBase + 0x10, bits := 64, op := .write 5#64 }]) ∧
    (∃ s t : State, s.inputs = [.bus { addr := s.cfg.regBase + 0x30, bits := 64, op := .write 5#64 }] ∧
      step s = .next t ∧ t.x.k ≠ s.x.k) ∧
    (∃ s t : State, s.dueInput = .reset ∧ step s = .next t ∧ t.x.opa ≠ s.x.opa) :=
  ⟨⟨{ ffsX1 with inputs := [hostWrite 0x10 5] }, by decide⟩,
    ⟨{ ffsX1 with inputs := [hostWrite 0x30 5] }, _, by decide, rfl, by decide⟩,
    ⟨{ State.reset with x := { Window.reset with opa := 9 }, inputs := [.reset] }, _, rfl, rfl, by decide⟩⟩

theorem witness_PortAcceptsWholeAlignedRegisters : ∃ (s t u w : State),
    s.inputs = [.bus { addr := s.cfg.regBase + 0x38, bits := 64, op := .read }] ∧
    t.inputs = [.bus { addr := t.cfg.regBase + 0x00, bits := 64, op := .write 1#64 }] ∧
    u.inputs = [.bus { addr := u.cfg.regBase + 0x38, bits := 32, op := .read }] ∧
    w.inputs = [.bus { addr := w.cfg.regBase + 0x3F, bits := 64, op := .read }] :=
  ⟨{ ffsX1 with inputs := [hostRead 0x38] }, { ffsX1 with inputs := [hostWrite 0 1] },
    { ffsX1 with inputs := [.bus { addr := 0x38, bits := 32, op := .read }] }, { ffsX1 with inputs := [hostRead 0x3F] },
    by decide, by decide, by decide, by decide⟩

theorem witness_ResetClearsTheBlock : ∃ (s : State) (rest : List Input), s.inputs = .reset :: rest :=
  ⟨{ ffsX1 with inputs := [.reset] }, [], rfl⟩

theorem witness_ScanOfEmptyRange : ∃ s : State, s.phase = .busy .start ∧ s.lat.endOff.toNat ≤ s.lat.start.toNat :=
  ⟨running (lat .ffs 0x1000 0 5 5 0) .start [] (.data 0), rfl, by decide⟩

/-- The first byte of X1 holds no match; byte 1 holds bit 10; and byte 0 with range [7, 8) and the byte 0x80 is one byte,
whose last bit matches. -/
theorem witness_ScanStepTestsOneByte :
    (ffsX1.unanswered = none ∧ ffsX1.answer = .data 0 ∧ ffsX1.lat.start.toNat < ffsX1.lat.endOff.toNat ∧ ffsX1.phase = .busy .start ∧
      ffsX1.byteSeen 0x1000 0 = 0#8) ∧
    (∃ s : State, s.unanswered = none ∧ s.answer = .data 0 ∧ s.lat.start.toNat / 8 < 1 ∧ 1 ≤ (s.lat.endOff.toNat - 1) / 8 ∧
      s.phase = .busy (.scanAt 1) ∧ (s.byteSeen 0x1001 0).getLsbD (10 % 8) = true) ∧
    (∃ s : State, s.unanswered = none ∧ s.answer = .data 0 ∧ s.lat.start.toNat = 7 ∧ s.lat.endOff.toNat = 8 ∧
      s.phase = .busy .start ∧ (s.byteSeen 0x1000 0).getLsbD 7 = true) :=
  ⟨by decide, ⟨{ ffsX1 with phase := .busy (.scanAt 1) }, by decide⟩,
    ⟨running (lat .ffs 0x1000 0 7 8 0) .start [(0x1000, 0x80)] (.data 0), by decide⟩⟩

theorem witness_BufferPrefixReadsA_zero : ∃ s : State, s.phase = .busy .start ∧ s.lat.k.toNat = 0 :=
  ⟨running (lat .peqbMsb 0 0 0 0 0) .start [] (.data 0), rfl, by decide⟩

theorem witness_BufferPrefixReadsA :
    (peqbP1.unanswered = none ∧ peqbP1.answer = .data 0 ∧ peqbP1.phase = .busy .start ∧ 0 < peqbP1.lat.k.toNat) ∧
    (∃ s : State, s.unanswered = none ∧ s.answer = .data 0 ∧ s.phase = .busy (.pairA 1)) :=
  ⟨by decide, ⟨{ peqbP1 with phase := .busy (.pairA 1) }, rfl, rfl, rfl⟩⟩

/-- Byte 1 of P1a is the last (8 * 1 < 11 <= 16); with u = 0xCD the top 3 bits agree, with u = 0x0D they differ at bit 8. -/
theorem witness_BufferPrefixComparesPair :
    (∃ s : State, s.unanswered = none ∧ s.answer = .data 0 ∧ s.phase = .busy (.pairB 1 0xCD#8) ∧ 8 * 1 < s.lat.k.toNat ∧
      ∀ n, n < 3 → streamBit .msb (fun _ => 0xCD#8) (8 + n) = streamBit .msb (fun _ => s.byteSeen 0x3001 0) (8 + n)) ∧
    (∃ s : State, s.unanswered = none ∧ s.answer = .data 0 ∧ s.phase = .busy (.pairB 1 0x0D#8) ∧ 8 < s.lat.k.toNat ∧
      streamBit .msb (fun _ => 0x0D#8) 8 ≠ streamBit .msb (fun _ => s.byteSeen 0x3001 0) 8) :=
  ⟨⟨{ peqbP1 with phase := .busy (.pairB 1 0xCD#8) }, by decide⟩, ⟨{ peqbP1 with phase := .busy (.pairB 1 0x0D#8) }, by decide⟩⟩

theorem witness_BusErrorEndsTheCommand : ∃ s1 s2 s3 s4 s5 : State,
    (s1.unanswered = none ∧ s1.answer = .error ∧ s1.phase = .busy .start ∧ s1.lat.start.toNat < s1.lat.endOff.toNat) ∧
    (s2.unanswered = none ∧ s2.answer = .error ∧ s2.phase = .busy (.scanAt 1)) ∧
    (s3.unanswered = none ∧ s3.answer = .error ∧ s3.phase = .busy .start ∧ 0 < s3.lat.k.toNat) ∧
    (s4.unanswered = none ∧ s4.answer = .error ∧ s4.phase = .busy (.pairA 1)) ∧
    (s5.unanswered = none ∧ s5.answer = .error ∧ s5.phase = .busy (.pairB 1 0#8)) :=
  ⟨{ ffsX1 with answer := .error }, { ffsX1 with answer := .error, phase := .busy (.scanAt 1) },
    { peqbP1 with answer := .error }, { peqbP1 with answer := .error, phase := .busy (.pairA 1) },
    { peqbP1 with answer := .error, phase := .busy (.pairB 1 0#8) }, by decide⟩

/-- X1 after the memory has left its second read, of 0x1001, unanswered. -/
def hungX1 (inputs : List Input) : State :=
  { ffsX1 with phase := .busy (.scanAt 1), unanswered := some 0x1001, inputs := inputs }

theorem hungX1_inv (inputs : List Input) : (hungX1 inputs).Inv := by
  have hp : (hungX1 []).scanStart < (hungX1 []).scanEnd ∧ (hungX1 []).firstByte < 1 ∧ 1 ≤ (hungX1 []).lastByte := by decide
  have hn : (hungX1 []).nextRead = some 0x1001 := by decide
  exact ⟨statusOk_busy, ffsX1_busy, rfl, ⟨.inl (by decide : decode 1#64 = .command .ffs), hp⟩,
    fun a h => hn.trans h, ffsX1_memory⟩

/-- The five points at which a command reads; a stuck state that meets the invariant, with an engine turn, a CMD write, a
list without a reset, an exhausted list, and a reset due. -/
theorem witness_UnansweredReadHangsUntilReset : (∃ s1 s2 s3 s4 s5 : State,
    (s1.unanswered = none ∧ s1.answer = .never ∧ s1.phase = .busy .start ∧ s1.lat.start.toNat < s1.lat.endOff.toNat) ∧
    (s2.unanswered = none ∧ s2.answer = .never ∧ s2.phase = .busy (.scanAt 1)) ∧
    (s3.unanswered = none ∧ s3.answer = .never ∧ s3.phase = .busy .start ∧ 0 < s3.lat.k.toNat) ∧
    (s4.unanswered = none ∧ s4.answer = .never ∧ s4.phase = .busy (.pairA 1)) ∧
    (s5.unanswered = none ∧ s5.answer = .never ∧ s5.phase = .busy (.pairB 1 0#8))) ∧
    (∀ l : List Input, (hungX1 l).Inv ∧ (hungX1 l).unanswered ≠ none) ∧ Steps (hungX1 [.engine (.data 0)]) ∧
    (hungX1 [.engine (.data 0)]).dueInput ≠ .reset ∧ (hungX1 [hostWrite 0 1]).writesReg .cmd 1#64 ∧
    (hungX1 [hostWrite 0 1]).dueInput ≠ .reset ∧ .reset ∉ (hungX1 [hostWrite 0 1, .engine .error]).inputs.take 1000 ∧
    .reset ∉ (hungX1 []).inputs.take 1000 ∧ (hungX1 [.reset]).dueInput = .reset :=
  ⟨⟨{ ffsX1 with answer := .never }, { ffsX1 with answer := .never, phase := .busy (.scanAt 1) },
    { peqbP1 with answer := .never }, { peqbP1 with answer := .never, phase := .busy (.pairA 1) },
    { peqbP1 with answer := .never, phase := .busy (.pairB 1 0#8) }, by decide⟩, fun l => ⟨hungX1_inv l, nofun⟩, ⟨_, rfl⟩,
    by decide, .inl (by decide), by decide, by decide, by decide, rfl⟩

/-- The engine's turns of a list are what the command needs, and nothing races it. -/
theorem unraced_of_turns (s : State) (l : List Input) (hh : s.held = []) (hu : s.unpublished = [])
    (hl : l.all (fun i => match i with | .store _ _ => false | _ => true) = true) (a : Nat) : s.Unraced l a := by
  refine ⟨by simp [hh], by simp [hu], fun v hv => ?_⟩
  simpa using List.all_eq_true.mp hl _ hv

/-- A state that starts a command, with the inputs l due. -/
def starting (c : Latch) (mem : Memory) (l : List Input) : State := { running c .start mem (.data 0) with inputs := l }

theorem starts_of (c : Latch) (mem : Memory) (l : List Input) (i : Instr) (n : Nat) (hd : decode c.cmd = .command i)
    (ha : l.all isAnsweredInput = true) (hn : n ≤ countEngineTurns l) : (starting c mem l).Starts i l n :=
  ⟨rfl, (by decide : Status.busy 1#64 = true), hd, rfl, ⟨[], (List.append_nil l).symm⟩, List.all_eq_true.mp ha, hn⟩

/-- X1 with a host writing an operand register between the two turns; the match is bit 10 of byte 1. -/
def turnsX1 : List Input := [.engine (.data 0), hostWrite 0x10 9, .engine (.data 5), hostRead 0x38]
/-- The match of X1; the miss of three bytes 0xFF under FFC; the empty range. -/
theorem witness_ScanComputesFirstMatch :
    ((starting (lat .ffs 0x1000 0 0 16 0) [(0x1001, 0x04)] turnsX1).Starts .ffs turnsX1 ((16 - 1) / 8 - 0 / 8 + 1) ∧
      ∀ a, (starting (lat .ffs 0x1000 0 0 16 0) [(0x1001, 0x04)] turnsX1).Unraced turnsX1 a) ∧
    (starting (lat .ffc 0x1000 0 0 24 0) [(0x1000, 0xFF), (0x1001, 0xFF), (0x1002, 0xFF)] (engineTurns [0, 0, 0])).Starts
      .ffc (engineTurns [0, 0, 0]) ((24 - 1) / 8 - 0 / 8 + 1) ∧
    (starting (lat .ffs 0 0 0 0 0) [] (engineTurns [0])).Starts .ffs (engineTurns [0]) ((0 - 1) / 8 - 0 / 8 + 1) :=
  ⟨⟨starts_of _ _ _ _ _ (by decide) (by decide) (by decide), unraced_of_turns _ _ rfl rfl (by decide)⟩,
    starts_of _ _ _ _ _ (by decide) (by decide) (by decide), starts_of _ _ _ _ _ (by decide) (by decide) (by decide)⟩

/-- P1a (k = 11, four reads, equal), P1c (k = 13, not equal), and k = 0, with a store to a byte that is not read. -/
theorem witness_BufferPrefixComparesStreams :
    ((starting (lat .peqbMsb 0x2000 0x3000 0 0 11) peqbP1.mem (engineTurns [0, 1, 2, 3])).Starts .peqbMsb
        (engineTurns [0, 1, 2, 3]) (max 1 (2 * ((11 + 7) / 8))) ∧
      ∀ a, (starting (lat .peqbMsb 0x2000 0x3000 0 0 11) peqbP1.mem (engineTurns [0, 1, 2, 3])).Unraced
        (engineTurns [0, 1, 2, 3]) a) ∧
    (starting (lat .peqbMsb 0x2000 0x3000 0 0 13) peqbP1.mem (engineTurns [0, 1, 2, 3])).Starts .peqbMsb
      (engineTurns [0, 1, 2, 3]) (max 1 (2 * ((13 + 7) / 8))) ∧
    (starting (lat .peqbLsb 0x2000 0x3000 0 0 0) peqbP1.mem (.store 7 1#8 :: engineTurns [0])).Starts .peqbLsb
      (.store 7 1#8 :: engineTurns [0]) (max 1 (2 * ((0 + 7) / 8))) :=
  ⟨⟨starts_of _ _ _ _ _ (by decide) (by decide) (by decide), unraced_of_turns _ _ rfl rfl (by decide)⟩,
    starts_of _ _ _ _ _ (by decide) (by decide) (by decide), starts_of _ _ _ _ _ (by decide) (by decide) (by decide)⟩

/-- Bytes 0x00 0x10 under FFS and 0xFF 0xEF under FFC. -/
theorem witness_ScanComplementSymmetry : ∃ (s s' : State) (l l' : List Input), s'.lat.start = s.lat.start ∧
    s'.lat.endOff = s.lat.endOff ∧ s.Starts .ffs l ((16 - 1) / 8 - 0 / 8 + 1) ∧
    s'.Starts .ffc l' ((16 - 1) / 8 - 0 / 8 + 1) ∧ (∀ a, s.Unraced l a) ∧ (∀ a, s'.Unraced l' a) ∧
    (∀ j, 0 / 8 ≤ j → j ≤ (16 - 1) / 8 → bytesA s' j = ~~~ bytesA s j) := by
  refine ⟨starting (lat .ffs 0x1000 0 0 16 0) [(0x1001, 0x10)] (engineTurns [0, 0]),
    starting (lat .ffc 0x2000 0 0 16 0) [(0x2000, 0xFF), (0x2001, 0xEF)] (engineTurns [0, 0]), _, _, rfl, rfl,
    starts_of _ _ _ _ _ (by decide) (by decide) (by decide), starts_of _ _ _ _ _ (by decide) (by decide) (by decide),
    unraced_of_turns _ _ rfl rfl (by decide), unraced_of_turns _ _ rfl rfl (by decide), ?_⟩
  intro j _ hj
  have h : j = 0 ∨ j = 1 := by omega
  rcases h with rfl | rfl <;> decide

/-- Over byte 0x81: FFS from 0 finds bit 0, and FFS from 1 finds bit 7. -/
theorem witness_ScanForwardProgress : ∃ s s' t t' : State,
    s.Starts .ffs (engineTurns [0]) ((8 - 1) / 8 - 0 / 8 + 1) ∧ s'.Starts .ffs (engineTurns [0]) ((8 - 1) / 8 - 1 / 8 + 1) ∧
    (∀ a, s.Unraced (engineTurns [0]) a) ∧ (∀ a, s'.Unraced (engineTurns [0]) a) ∧ s'.mem = s.mem ∧
    s'.lat.endOff = s.lat.endOff ∧ step s = .next t ∧ t.phase = .idle ∧ t.x.status.found = true ∧
    s'.lat.start.toNat = t.x.result.toNat + 1 ∧ step s' = .next t' ∧ t'.phase = .idle ∧ t'.x.status.found = true :=
  ⟨starting (lat .ffs 0x1000 0 0 8 0) [(0x1000, 0x81)] (engineTurns [0]),
    starting (lat .ffs 0x1000 0 1 8 0) [(0x1000, 0x81)] (engineTurns [0]), _, _,
    starts_of _ _ _ _ _ (by decide) (by decide) (by decide), starts_of _ _ _ _ _ (by decide) (by decide) (by decide),
    unraced_of_turns _ _ rfl rfl (by decide), unraced_of_turns _ _ rfl rfl (by decide), rfl, rfl, rfl, by decide, by decide,
    by decide, rfl, by decide, by decide⟩

theorem witness_StoreReplacesOneByte : ∃ (s : State) (a : Nat) (v : Byte), s.Inv ∧ a < s.cfg.memSize ∧
    s.inputs = [.store a v] :=
  ⟨{ ffsX1 with inputs := [.store 0xFFFFFFFFFFFFFFFF 1#8] }, 0xFFFFFFFFFFFFFFFF, 1#8, ffsX1_inv _, by decide, rfl⟩

theorem witness_PublishedStoresAreRead : ∃ (s : State) (v : Word), s.x.status.busy = false ∧ s.unpublished ≠ [] ∧
    s.inputs = [.publish, .bus { addr := s.cfg.regBase, bits := 64, op := .write v }] :=
  ⟨{ State.reset with unpublished := [(3, 7#8)], inputs := [.publish, hostWrite 0 1] }, 1#64, by decide, by decide, by decide⟩

/-- A racing value, an unpublished one, and a byte that nothing races. -/
theorem witness_ReadReturnsAValueTheByteHeld : ∃ s : State, (0x1000, 1#8) ∈ s.held ∧ (0x1000, 2#8) ∈ s.unpublished ∧
    (∀ c ∈ s.held, c.1 ≠ 0x1001) ∧ (∀ c ∈ s.unpublished, c.1 ≠ 0x1001) :=
  ⟨{ ffsX1 with held := [(0x1000, 1#8)], unpublished := [(0x1000, 2#8)] }, by decide⟩

theorem witness_WordCommandsTakeOneStep : Instr.peq64Lsb ∉ [Instr.ffs, Instr.ffc, Instr.peqbMsb, Instr.peqbLsb] := by decide

theorem witness_SubdivisionFindsTheBits : 0x80000000#32 ≠ 0#32 ∧ 0x8000000000000000#64 ≠ 0#64 := by decide

/-- A store and a publication while the command runs. -/
theorem witness_HeldValuesStayAdmitted : ∃ s t s' t' : State,
    (step s = .next t ∧ s.x.status.busy = true ∧ t.x.status.busy = true ∧ t.mem ≠ s.mem) ∧
    (step s' = .next t' ∧ s'.x.status.busy = true ∧ t'.x.status.busy = true ∧ s'.unpublished ≠ t'.unpublished) :=
  ⟨{ ffsX1 with inputs := [.store 0x1000 1#8] }, _, { ffsX1 with unpublished := [(0x1000, 1#8)], inputs := [.publish] }, _,
    ⟨rfl, by decide, by decide, by decide⟩, ⟨rfl, by decide, by decide, by decide⟩⟩

theorem witness_OnlyStoresWriteMemory : ∃ s : State, Steps s ∧ ∀ a v, s.dueInput ≠ .store a v :=
  ⟨ffsX1, ⟨_, rfl⟩, by intro a v h; cases h⟩

theorem witness_ReadsOnlyWhileTheCommandRuns : ∃ s t : State, step s = .next t ∧ t.reads ≠ s.reads :=
  ⟨ffsX1, _, rfl, by decide⟩

/-- A step that goes on, a step that completes, a step that ends with an error, and a read that is never answered. -/
theorem witness_ExecFrame : (∃ t, exec .ffs ffsX1 = .next t ∧ t.phase = .busy (.scanAt 1)) ∧
    (∃ t, exec .popcnt64 ffsX1 = .next t ∧ t.phase = .idle) ∧
    (∃ t, exec .peqbLsb { peqbP1 with answer := .error } = .next t ∧ t.phase = .idle) ∧
    (∃ t, exec .ffc { ffsX1 with answer := .never } = .next t ∧ t.unanswered = some 0x1000) :=
  ⟨⟨_, rfl, by decide⟩, ⟨_, rfl, by decide⟩, ⟨_, rfl, by decide⟩, ⟨_, rfl, by decide⟩⟩

theorem witness_FoundOnlyBySearches : ∃ (s t : State), s.phase.isBusy = true ∧ exec .lobit64 s = .next t ∧
    t.phase = .idle ∧ t.x.status.found = true :=
  ⟨ffsX1, _, rfl, rfl, by decide, by decide⟩

/-- The completion of a word command, of the last read of FFS with data, of a read of PEQB with an error, and of an illegal
word. -/
theorem witness_WriteAndCompletionInEitherOrder : ∃ s₁ s₂ s₃ s₄ u₁ u₂ u₃ u₄ : State,
    (s₁.phase.isBusy = true ∧ s₁.x.status.busy = true ∧ u₁.phase = .idle ∧ u₁.x.status.found = true) ∧
    (s₂.phase.isBusy = true ∧ s₂.x.status.busy = true ∧ u₂.phase = .idle ∧ u₂.x.status.found = true) ∧
    (s₃.phase.isBusy = true ∧ s₃.x.status.busy = true ∧ u₃.phase = .idle ∧ u₃.x.status.errcode = 2#4) ∧
    (s₄.phase.isBusy = true ∧ s₄.x.status.busy = true ∧ u₄.phase = .idle ∧ u₄.x.status.errcode = 1#4) ∧
    step { s₁ with inputs := [.engine .never] } = .next u₁ ∧ step { s₂ with inputs := [.engine (.data 0)] } = .next u₂ ∧
    step { s₃ with inputs := [.engine .error] } = .next u₃ ∧ step { s₄ with inputs := [.engine .never] } = .next u₄ :=
  ⟨wordCommand .hibit64 1 0 0, { ffsX1 with phase := .busy (.scanAt 1) }, peqbP1, illegalRunning, _, _, _, _, by decide,
    by decide, by decide, by decide, rfl, rfl, rfl, rfl⟩

/-- StepKeepsTheInvariant, StepNeverStops, WindowWhileBusy: a running FFS that meets the invariant, and its next step. -/
theorem witness_StepKeepsTheInvariant_StepNeverStops_WindowWhileBusy : ∃ s t : State, s.Inv ∧ s.x.status.busy = true ∧ step s = .next t ∧
    t.x.status.busy = true :=
  ⟨ffsX1, _, ffsX1_inv [], by decide, rfl, by decide⟩

theorem witness_LatchChangesOnlyByAcceptance : ∃ s t s' t' : State,
    (step s = .next t ∧ t.lat ≠ s.lat ∧ s.x.status.busy = false) ∧ (step s' = .next t' ∧ t'.lat ≠ s'.lat) :=
  ⟨{ State.reset with inputs := [hostWrite 0 1] }, _, { ffsX1 with inputs := [.reset] }, _, ⟨rfl, by decide, by decide⟩,
    ⟨rfl, by decide⟩⟩

theorem witness_ResultChangesOnlyByCompletion : ∃ s s' t' : State,
    (s.writesReg .result 5#64 ∧ Steps s) ∧ (step s' = .next t' ∧ t'.x.result ≠ s'.x.result) :=
  ⟨{ State.reset with inputs := [hostWrite 0x38 5] }, wordCommand .hibit64 2 0 0, _, ⟨.inl rfl, ⟨_, rfl⟩⟩, ⟨rfl, by decide⟩⟩

/-- BUSY, DONE and FOUND set and cleared, ERR set, OVR set and cleared. -/
theorem witness_FlagsChangeOnlyByTheirRules :
    (∃ s t : State, step s = .next t ∧ s.x.status = 6#64 ∧ t.x.status = 1#64) ∧
    (∃ s t : State, step s = .next t ∧ s.x.status = 1#64 ∧ t.x.status = 6#64) ∧
    (∃ s t : State, step s = .next t ∧ s.x.status = 1#64 ∧ t.x.status = 0x1A#64) ∧
    (∃ s t : State, step s = .next t ∧ s.x.status = 1#64 ∧ t.x.status = 0x101#64) ∧
    (∃ s t : State, step s = .next t ∧ s.x.status = 0x102#64 ∧ t.x.status = 2#64) ∧
    (∃ s t : State, step s = .next t ∧ s.x.status = 1#64 ∧ t.x.status = 0#64) :=
  ⟨⟨{ State.reset with x := { Window.reset with status := 6 }, inputs := [hostWrite 0 1] }, _, rfl, rfl, by decide⟩,
    ⟨wordCommand .hibit64 2 0 0, _, rfl, rfl, by decide⟩, ⟨illegalRunning, _, rfl, rfl, by decide⟩,
    ⟨{ ffsX1 with inputs := [hostWrite 0 1] }, _, rfl, rfl, by decide⟩,
    ⟨{ State.reset with x := { Window.reset with status := 0x102 }, inputs := [hostWrite 8 0x100] }, _, rfl, rfl, by decide⟩,
    ⟨{ ffsX1 with inputs := [.reset] }, _, rfl, rfl, by decide⟩⟩

theorem witness_ResultIsStableWhileIdle : ∃ s : State, s.phase = .idle ∧ Steps s ∧ (∀ v, ¬s.writesReg .cmd v) ∧
    s.dueInput ≠ .reset := by
  refine ⟨{ State.reset with x := { Window.reset with result := 7, status := 6 }, inputs := [.publish] }, rfl, ⟨_, rfl⟩, ?_,
    by decide⟩
  rintro v (h | ⟨h, -⟩) <;> cases h

/-- X1 with the hosts writing an operand and storing between the two engine turns it needs. -/
theorem witness_FairTurnsCompleteTheCommand : ∃ (s : State) (l : List Input), s.Inv ∧ s.x.status.busy = true ∧
    s.unanswered = none ∧ s.inputs = l ++ [] ∧ (∀ i ∈ l, isFairInput i = true) ∧ s.turnsLeft ≤ countEngineTurns l ∧ s.turnsLeft = 2 :=
  ⟨{ ffsX1 with inputs := [.engine (.data 0), hostWrite 0x10 9, .store 5 1#8, .engine (.data 0)] },
    [.engine (.data 0), hostWrite 0x10 9, .store 5 1#8, .engine (.data 0)], ffsX1_inv _, by decide, rfl, rfl, by decide,
    by decide, by decide⟩

theorem witness_PopulationCountLaws_BitSearchLaws_operand : ∃ (s : State) (x : BitVec 32), s.lat.opa = x.setWidth 64 ∧ x ≠ 0#32 :=
  ⟨wordCommand .parity32 0x80000000 0 0, 0x80000000#32, by decide, by decide⟩

theorem witness_BitSearchLaws : (0x80000000#32 ≠ 0#32) ∧ (31 : Nat) < 32 := by decide

/-- x = 1, a power of two, a value between powers, and a value whose round-up is 2^(W-1). -/
theorem witness_RoundingLaws :
    (32 ∈ [32, 64] ∧ (1#32) ≠ 0#32 ∧ (1#32).getLsbD 31 = false ∧ roundUpPow2 32 false 1 ≠ 0) ∧
    ((0x7FFFFFFF#32).getLsbD 31 = false ∧ roundUpPow2 32 false 0x7FFFFFFF = 2 ^ 31) ∧
    ((5#64) ≠ 0#64 ∧ (5#64).getLsbD 63 = false ∧ highestSetBit (5#64 - 1#64) = some 2 ∧ roundUpPow2 64 true 5 < 2 ^ 63 ∧
      roundUpPow2 64 true 5 ≠ 0) := by decide

theorem witness_WordPrefixLaws : (32 : Nat) ≤ 40 ∧ (16 : Nat) < 17 ∧
    wordPrefixEq .lsb (0x1234#32) (0x1234#32) 17 = true := by decide

theorem witness_HostStatementsRun : ∃ s : State, s.inputs = [.program] ∧ s.host.halted = false ∧
    s.host.prog[s.host.pc]? = some (.rd .status 7) ∧ s.host.prog = [.rd .status 7, .wr .cmd 1, .bset 7 0 0, .bclr 7 1 4, .halt] :=
  ⟨{ State.reset with
      inputs := [.program]
      host := { HostAgent.initial with prog := [.rd .status 7, .wr .cmd 1, .bset 7 0 0, .bclr 7 1 4, .halt] } },
    rfl, rfl, rfl, rfl⟩

end Sys2Proof.Tests
end

section
/-! PROOFS. Memory is written by no agent but the one that stores: the engine (00_scope.md R3), the hosts' bus accesses and
programs (R39), publication and reset (R180) leave it as it was. -/

namespace Sys2Proof.Machine

/-! ### The engine -/

theorem EngineEffect.mem_eq {s t : State} (h : EngineEffect s t) : t.mem = s.mem := by
  cases h with
  | nothing => rfl
  | hang a hu ha => exact State.leaveUnanswered_mem s a
  | move rs p a v hu h => exact State.goto_mem _ p
  | complete rs f r h => exact State.complete_mem _ f r
  | busError a hu => exact State.fail_mem _ errBusError _

theorem exec_mem {i : Instr} {s t : State} (h : exec i s = .next t) : t.mem = s.mem :=
  (exec_effect h).mem_eq

theorem engineTurn_mem {s t : State} (h : engineTurn s = .next t) : t.mem = s.mem := by
  rcases engineTurn_cases h with ⟨_, rfl⟩ | ⟨p, i, _, _, he⟩ | ⟨p, why, _, _, rfl⟩
  · rfl
  · exact exec_mem he
  · exact State.fail_mem s errIllegalCmd _

/-! ### The hosts -/

@[simp] theorem State.busAccess_mem (s : State) (a : BusAccess) : (s.busAccess a).mem = s.mem := by
  rcases s.busAccess_cases a with he | ⟨p, he⟩ | ⟨r, v, _, he⟩ <;> rw [he]
  · exact State.answerHost_mem s p
  · exact State.writeReg_mem s r v

@[simp] theorem State.hostTurn_mem (s : State) : s.hostTurn.mem = s.mem := by
  rcases s.hostTurn_cases with ⟨x, he⟩ | ⟨p, x, he⟩ | ⟨r, v, x, _, _, he⟩ <;> rw [he]
  · exact State.answerHost_mem s p
  · exact State.writeReg_mem s r v

/-! ### One step of the machine -/

/-- The rule of a step on memory: a due store is the one input that writes it. -/
theorem step_mem_of_not_store {s t : State} (h : step s = .next t) (hs : ∀ a v, s.dueInput ≠ .store a v) :
    t.mem = s.mem := by
  rw [← State.takeInput_mem s]
  rcases step_cases h with ⟨a, _, rfl⟩ | ⟨_, rfl⟩ | ⟨a, _, he⟩ | ⟨a, v, hd, _⟩ | ⟨_, rfl⟩ | ⟨_, rfl⟩
  · exact State.busAccess_mem _ a
  · exact State.hostTurn_mem _
  · exact (engineTurn_mem he).trans (State.withAnswer_mem _ a)
  · exact absurd hd (hs a v)
  · exact State.publishStores_mem _
  · exact State.applyReset_mem _

/-- Settles O38, by the agents' rules on memory: reading a byte (R52) is a function of the memory, so the bytes follow. -/
theorem onlyStoresWriteMemory : Obligations.OnlyStoresWriteMemory := by
  intro s t h hs
  have hm : t.mem = s.mem := step_mem_of_not_store h hs
  exact ⟨hm, fun a => congrArg (Memory.read · a) hm⟩

end Sys2Proof.Machine
end

section
/-! PROOFS. Where the pseudocode of a memory command goes on after a read (40_bitmap_scan.md R91; 44_prefix_equal.md R143),
said once: both the invariant of the progress point (R30) and the bound on a command's engine turns come from it. -/

namespace Sys2Proof.Machine

/-- The command i goes on at the given progress point after its engine step in s performed the read r. -/
inductive ContinuesAt (i : Instr) (s : State) (r : PortRead) : Progress → Prop
  | scanAt {j : Nat} (hi : i = .ffs ∨ i = .ffc) (h : s.AtScanByte j) (hj : j < s.lastByte) :
      ContinuesAt i s r (.scanAt (j + 1))
  | pairB {j : Nat} {u : Byte} (hi : i = .peqbMsb ∨ i = .peqbLsb) (h : s.AtPairA j)
      (hr : r = { addr := s.addrA j, answer := some u }) : ContinuesAt i s r (.pairB j u)
  | pairA {j : Nat} {u : Byte} (hi : i = .peqbMsb ∨ i = .peqbLsb) (h : s.phase = .busy (.pairB j u))
      (hj : j + 1 < s.prefixBytes) : ContinuesAt i s r (.pairA (j + 1))

/-- An engine step that ends the running command, without an error (R34) or with one of the two of R160 (R35); `rs` is the
record of reads after it. -/
inductive Ends (s : State) : State → Prop
  | complete (rs : List PortRead) (f : Bool) (r : Word) : Ends s (State.complete { s with reads := rs } f r)
  | fail (rs : List PortRead) (c : BitVec 4) (r : Word) (h0 : c ≠ 0#4) (h2 : c.toNat ≤ 2) :
      Ends s (State.fail { s with reads := rs } c r)

theorem Ends.of_complete (s : State) (f : Bool) (r : Word) : Ends s (s.complete f r) := .complete s.reads f r

theorem Ends.of_illegal (s : State) : Ends s s.raiseIllegalCommand :=
  .fail s.reads errIllegalCmd 0#64 (by decide) (by decide)

theorem Ends.of_busError (s : State) (a : Nat) : Ends s ((s.logRead a none).raiseBusError a) :=
  .fail (s.logRead a none).reads errBusError (BitVec.ofNat 64 a) (by decide) (by decide)

/-- An engine step of the command i in s that leaves the command running: stuck at a read that is never answered (R189),
issuing such a read, or going on after one read. -/
inductive RunsOn (i : Instr) (s : State) : State → Prop
  | stuck (hu : s.unanswered ≠ none) : RunsOn i s s
  | hang (a : Nat) (hu : s.unanswered = none) (ha : s.answer = .never) : RunsOn i s (s.leaveUnanswered a)
  | continues (r : PortRead) (p : Progress) (hu : s.unanswered = none) (hp : ContinuesAt i s r p) :
      RunsOn i s (State.goto { s with reads := r :: s.reads } p)

/-- A read ends the command or leaves it running, whenever the rest of its pseudocode does so. -/
theorem ends_or_runsOn_of_memRead {i : Instr} {s : State} {a : Nat} {k : Byte → State → State}
    (hk : ∀ v, s.unanswered = none →
      Ends s (k v (s.logRead a (some v))) ∨ RunsOn i s (k v (s.logRead a (some v)))) :
    Ends s (s.memRead a k) ∨ RunsOn i s (s.memRead a k) := by
  rcases s.memRead_cases a k with ⟨b, hu, he⟩ | ⟨hu, p, _, he⟩ | ⟨_, _, he⟩ | ⟨hu, ha, he⟩ <;> rw [he]
  · exact .inr (.stuck (by simp [hu]))
  · exact hk _ hu
  · exact .inl (.of_busError s a)
  · exact .inr (.hang a hu ha)

theorem scanStep_ends_or_runsOn {i : Instr} {s t : State} {pol : Bool} (hi : i = .ffs ∨ i = .ffc)
    (h : scanStep pol s = .next t) : Ends s t ∨ RunsOn i s t := by
  rcases scanStep_cases h with ⟨_, _, rfl⟩ | ⟨j, hj, rfl⟩
  · exact .inl (.of_complete s _ _)
  · refine ends_or_runsOn_of_memRead fun v hu => ?_
    rcases scanAfterRead_cases pol j v (s.logRead (s.addrA j) (some v)) with ⟨x, _, he⟩ | ⟨_, hlt, he⟩ | ⟨_, _, he⟩ <;>
      rw [he]
    · exact .inl (.complete _ _ _)
    · exact .inr (.continues _ _ hu (.scanAt hi hj hlt))
    · exact .inl (.complete _ _ _)

theorem pairStep_ends_or_runsOn {i : Instr} {s t : State} {order : BitOrder} (hi : i = .peqbMsb ∨ i = .peqbLsb)
    (h : pairStep order s = .next t) : Ends s t ∨ RunsOn i s t := by
  rcases pairStep_cases h with ⟨_, _, rfl⟩ | ⟨j, hj, rfl⟩ | ⟨j, u, hj, rfl⟩
  · exact .inl (.of_complete s _ _)
  · exact ends_or_runsOn_of_memRead fun v hu => .inr (.continues _ _ hu (.pairB hi hj rfl))
  · refine ends_or_runsOn_of_memRead fun v hu => ?_
    rcases pairAfterB_cases order j u v (s.logRead (s.addrB j) (some v)) with ⟨_, hlt, he⟩ | ⟨_, _, he⟩ | ⟨_, he⟩ <;>
      rw [he]
    · exact .inr (.continues _ _ hu (.pairA hi hj hlt))
    · exact .inl (.complete _ _ _)
    · exact .inl (.complete _ _ _)

/-- A search ends its command, whatever it found. -/
theorem State.completeSearch_eq (s : State) (o : Option Nat) : ∃ f r, s.completeSearch o = s.complete f r := by
  cases o <;> exact ⟨_, _, rfl⟩

/-- A word command completes in one engine step (R33, R50). -/
theorem exec_word_completes {i : Instr} (hi : i ∉ [Instr.ffs, Instr.ffc, Instr.peqbMsb, Instr.peqbLsb]) (s : State) :
    ∃ f r, exec i s = .next (s.complete f r) := by
  cases i
  case ffs | ffc | peqbMsb | peqbLsb => simp at hi
  case hibit32 | hibit64 | lobit32 | lobit64 =>
    obtain ⟨f, r, he⟩ := s.completeSearch_eq _
    exact ⟨f, r, congrArg Host.Outcome.next he⟩
  all_goals exact ⟨_, _, rfl⟩

/-- An engine step of any command ends it or leaves it running. -/
theorem exec_ends_or_runsOn {i : Instr} {s t : State} (h : exec i s = .next t) : Ends s t ∨ RunsOn i s t := by
  by_cases hi : i ∈ [Instr.ffs, Instr.ffc, Instr.peqbMsb, Instr.peqbLsb]
  · simp only [List.mem_cons, List.not_mem_nil, or_false] at hi
    rcases hi with rfl | rfl | rfl | rfl
    · exact scanStep_ends_or_runsOn (.inl rfl) h
    · exact scanStep_ends_or_runsOn (.inr rfl) h
    · exact pairStep_ends_or_runsOn (.inl rfl) h
    · exact pairStep_ends_or_runsOn (.inr rfl) h
  · obtain ⟨f, r, he⟩ := exec_word_completes hi s
    cases he.symm.trans h
    exact .inl (.of_complete s f r)

/-- Everything the engine's turn can do: nothing while idle (R176), the end of the command, or that it runs on. -/
theorem engineTurn_outcomes {s t : State} (h : engineTurn s = .next t) :
    (s.phase = .idle ∧ t = s) ∨ (s.phase.isBusy = true ∧ (Ends s t ∨ ∃ i, s.runsCommand i ∧ RunsOn i s t)) := by
  rcases engineTurn_cases h with hidle | ⟨p, i, hph, hd, he⟩ | ⟨p, why, hph, _, rfl⟩
  · exact .inl hidle
  · exact .inr ⟨by rw [hph]; rfl, (exec_ends_or_runsOn he).imp_right fun hr => ⟨i, hd, hr⟩⟩
  · exact .inr ⟨by rw [hph]; rfl, .inl (.of_illegal s)⟩

/-! ### What the engine leaves as it was, and what an end writes -/

/-- The engine's turn changes only RESULT, the command fields of STATUS, the phase, the read left on the port, and the
record of reads. -/
structure EngineFrame (s t : State) : Prop where
  writes : ∃ (r : Word) (w : Status) (p : Phase) (u : Option Nat) (rs : List PortRead),
    t = { s with x := { s.x with result := r, status := w }, phase := p, unanswered := u, reads := rs }
  ovr : t.x.status.ovr = s.x.status.ovr
  reserved : t.x.status.reserved = s.x.status.reserved

section
variable {s t : State} (h : EngineFrame s t)
include h

theorem EngineFrame.cfg_eq : t.cfg = s.cfg := by obtain ⟨_, _, _, _, _, rfl⟩ := h.writes; rfl
theorem EngineFrame.lat_eq : t.lat = s.lat := by obtain ⟨_, _, _, _, _, rfl⟩ := h.writes; rfl
theorem EngineFrame.mem_eq : t.mem = s.mem := by obtain ⟨_, _, _, _, _, rfl⟩ := h.writes; rfl
theorem EngineFrame.inputs_eq : t.inputs = s.inputs := by obtain ⟨_, _, _, _, _, rfl⟩ := h.writes; rfl
theorem EngineFrame.cmd_eq : t.x.cmd = s.x.cmd := by obtain ⟨_, _, _, _, _, rfl⟩ := h.writes; rfl

end

theorem Ends.frame {s t : State} (h : Ends s t) : EngineFrame s t := by
  cases h with
  | complete rs f r =>
    exact ⟨⟨_, _, _, _, _, rfl⟩, Status.completed_ovr s.x.status f, Status.completed_reserved s.x.status f⟩
  | fail rs c r _ _ => exact ⟨⟨_, _, _, _, _, rfl⟩, Status.failed_ovr s.x.status c, Status.failed_reserved s.x.status c⟩

theorem RunsOn.frame {i : Instr} {s t : State} (h : RunsOn i s t) : EngineFrame s t := by
  cases h with
  | stuck _ => exact ⟨⟨_, _, _, _, _, rfl⟩, rfl, rfl⟩
  | hang a _ _ => exact ⟨⟨_, _, _, _, _, rfl⟩, rfl, rfl⟩
  | continues r p _ _ => exact ⟨⟨_, _, _, _, _, rfl⟩, rfl, rfl⟩

theorem engineTurn_frame {s t : State} (h : engineTurn s = .next t) : EngineFrame s t := by
  rcases engineTurn_outcomes h with ⟨_, rfl⟩ | ⟨_, he | ⟨i, _, hr⟩⟩
  · exact ⟨⟨_, _, _, _, _, rfl⟩, rfl, rfl⟩
  · exact he.frame
  · exact hr.frame

section
variable {s t : State} (h : Ends s t)
include h

theorem Ends.phase : t.phase = .idle := by cases h <;> rfl
theorem Ends.unanswered : t.unanswered = s.unanswered := by cases h <;> rfl
theorem Ends.busy : t.x.status.busy = false := by cases h <;> simp
theorem Ends.done : t.x.status.done = true := by cases h <;> simp
theorem Ends.statusOk (hs : StatusOk s.x.status) : StatusOk t.x.status := by
  cases h with
  | complete rs f r => exact hs.completed f
  | fail rs c r h0 h2 => exact hs.failed h0 h2

end

/-- While the command runs on, RESULT and STATUS stay as they are (R36). -/
theorem RunsOn.x_eq {i : Instr} {s t : State} (h : RunsOn i s t) : t.x = s.x := by cases h <;> rfl

theorem RunsOn.isBusy {i : Instr} {s t : State} (h : RunsOn i s t) (hb : s.phase.isBusy = true) :
    t.phase.isBusy = true := by
  cases h with
  | stuck _ => exact hb
  | hang a _ _ => exact hb
  | continues r p _ _ => rfl

/-! ### The progress point after a read -/

/-- Inside the loop, or at its first byte, a scan has a non-empty range and stands at or after its first byte. -/
theorem State.AtScanByte.bounds {s : State} {j : Nat} (h : s.AtScanByte j) (hp : s.progressOk) :
    s.scanStart < s.scanEnd ∧ s.firstByte ≤ j := by
  rcases h with ⟨_, hlt, rfl⟩ | hph
  · exact ⟨hlt, le_rfl⟩
  · simp only [State.progressOk, hph] at hp
    obtain ⟨_, hlt, hj, _⟩ := hp
    exact ⟨hlt, hj.le⟩

theorem State.AtPairA.lt_prefixBytes {s : State} {j : Nat} (h : s.AtPairA j) (hp : s.progressOk) :
    j < s.prefixBytes := by
  rcases h with ⟨_, hk, rfl⟩ | hph
  · rw [State.lt_prefixBytes_iff]; omega
  · simp only [State.progressOk, hph] at hp
    exact hp.2.2

theorem State.runsCommand.of_either {s : State} {i j k : Instr} (hd : s.runsCommand i) (hi : i = j ∨ i = k) :
    s.runsCommand j ∨ s.runsCommand k := by
  rcases hi with rfl | rfl
  · exact .inl hd
  · exact .inr hd

/-- Where a command goes on is a progress point of its own pseudocode, within its loop bounds (R30). -/
theorem ContinuesAt.progressOk {i : Instr} {s : State} {r : PortRead} {p : Progress} (h : ContinuesAt i s r p)
    (hd : s.runsCommand i) (hp : s.progressOk) : (State.goto { s with reads := r :: s.reads } p).progressOk := by
  cases h with
  | @scanAt j hi hj hlt =>
    obtain ⟨hrange, hfirst⟩ := hj.bounds hp
    exact ⟨hd.of_either hi, hrange, Nat.lt_succ_of_le hfirst, hlt⟩
  | @pairB j u hi hj hr =>
    exact ⟨hd.of_either hi, hj.lt_prefixBytes hp, congrArg some hr⟩
  | @pairA j u hi hj hlt => exact ⟨hd.of_either hi, j.succ_pos, hlt⟩

/-! ### The measure of a running command -/

theorem ContinuesAt.turnsLeft_lt {i : Instr} {s : State} {r : PortRead} {p : Progress} (h : ContinuesAt i s r p)
    (hd : decode s.lat.cmd = .command i) (hp : s.progressOk) :
    (State.goto { s with reads := r :: s.reads } p).turnsLeft < s.turnsLeft := by
  cases h with
  | @scanAt j hi hj hlt =>
    show s.lastByte - (j + 1) + 1 < s.turnsLeft
    have hs : s.turnsLeft = s.lastByte - j + 1 := by
      rcases hj with ⟨hph, hrange, rfl⟩ | hph
      · rcases hi with rfl | rfl <;> simp only [State.turnsLeft, hph, hd, if_pos hrange]
      · simp only [State.turnsLeft, hph]
    omega
  | @pairB j u hi hj hr =>
    have hlt := hj.lt_prefixBytes hp
    show 2 * (s.prefixBytes - j) - 1 < s.turnsLeft
    have hs : 2 * (s.prefixBytes - j) ≤ s.turnsLeft := by
      rcases hj with ⟨hph, _, rfl⟩ | hph
      · rcases hi with rfl | rfl <;> simp only [State.turnsLeft, hph, hd] <;> omega
      · simp only [State.turnsLeft, hph]; exact le_rfl
    omega
  | @pairA j u hi hph hlt =>
    show 2 * (s.prefixBytes - (j + 1)) < s.turnsLeft
    simp only [State.turnsLeft, hph]
    omega

end Sys2Proof.Machine
end

section
/-! PROOFS. The invariant of the machine (10_state.md R22, R30): what each operation of the block keeps, then every step. -/

namespace Sys2Proof.Machine

/-! ### The invariant reads the block and the memory -/

/-- The progress point's rule reads the block, the parameters and the record of reads. -/
theorem SameBlock.progressOk {s t : State} (h : SameBlock s t) (hp : s.progressOk) : t.progressOk := by
  simp only [State.progressOk, State.runsCommand, State.scanStart, State.scanEnd, State.firstByte, State.lastByte,
    State.prefixBytes, State.wholeBytes, State.remainderBits, State.prefixLen, State.addrA, h.phase, h.lat, h.reads,
    h.cfg] at hp ⊢
  exact hp

theorem SameBlock.inv {s t : State} (h : SameBlock s t) (hi : s.Inv) (hm : Memory.wf t.cfg.memSize t.mem = true) :
    t.Inv where
  statusOk := by rw [h.x]; exact hi.statusOk
  phaseIsBusy := by rw [h.x, h.phase]; exact hi.phaseIsBusy
  cmdLatched := by rw [h.x, h.lat]; exact hi.cmdLatched
  progress := h.progressOk hi.progress
  hangs a ha := by rw [h.nextRead_eq]; exact hi.hangs a (h.unanswered ▸ ha)
  memoryWf := hm

/-- An idle block has no progress point and no read on the port. -/
theorem State.inv_of_idle {t : State} (hp : t.phase = .idle) (hs : StatusOk t.x.status)
    (hb : t.x.status.busy = false) (hc : t.x.cmd = t.lat.cmd) (hu : t.unanswered = none)
    (hm : Memory.wf t.cfg.memSize t.mem = true) : t.Inv where
  statusOk := hs
  phaseIsBusy := by rw [hp, hb]; rfl
  cmdLatched := hc
  progress := by simp only [State.progressOk, hp]
  hangs a ha := by rw [hu] at ha; cases ha
  memoryWf := hm

theorem statusOk_zero : StatusOk 0#64 := by constructor <;> decide

@[simp] theorem statusZero_busy : Status.busy 0#64 = false := by decide
@[simp] theorem statusZero_done : Status.done 0#64 = false := by decide
@[simp] theorem statusZero_found : Status.found 0#64 = false := by decide
@[simp] theorem statusZero_ovr : Status.ovr 0#64 = false := by decide

/-! ### Register writes and reset -/

/-- A change of the window that keeps CMD and STATUS.BUSY keeps the invariant. -/
theorem State.Inv.withWindow {s : State} (hi : s.Inv) {x : Window} (hs : StatusOk x.status)
    (hb : x.status.busy = s.x.status.busy) (hc : x.cmd = s.x.cmd) : State.Inv { s with x := x } where
  statusOk := hs
  phaseIsBusy := hi.phaseIsBusy.trans hb.symm
  cmdLatched := hc.trans hi.cmdLatched
  progress := hi.progress
  hangs := hi.hangs
  memoryWf := hi.memoryWf

theorem State.Inv.accept {s : State} (hi : s.Inv) (v : Word) : (s.accept v).Inv where
  statusOk := hi.statusOk.accepted
  phaseIsBusy := (Status.accepted_busy s.x.status).symm
  cmdLatched := rfl
  progress := trivial
  hangs a ha := by cases ha
  memoryWf := hi.memoryWf

theorem State.Inv.writeReg {s : State} (hi : s.Inv) (r : Reg) (v : Word) : (s.writeReg r v).Inv := by
  rcases s.writeReg_cases r v with ⟨_, _, h⟩ | ⟨_, _, h⟩ | ⟨_, h⟩ | ⟨_, h⟩ | ⟨_, h⟩ | ⟨_, h⟩ | ⟨_, h⟩ | ⟨_, h⟩ |
    ⟨_, h⟩ <;> rw [h]
  · exact hi.withWindow hi.statusOk.setOvr (Status.setOvr_busy _) rfl
  · exact hi.accept v
  · exact hi.withWindow (hi.statusOk.hostWrite v) (Status.hostWrite_busy _ v) rfl
  · exact hi.withWindow hi.statusOk rfl rfl
  · exact hi.withWindow hi.statusOk rfl rfl
  · exact hi.withWindow hi.statusOk rfl rfl
  · exact hi.withWindow hi.statusOk rfl rfl
  · exact hi.withWindow hi.statusOk rfl rfl
  · exact hi

theorem State.Inv.applyReset {s : State} (hi : s.Inv) : s.applyReset.Inv :=
  State.inv_of_idle rfl statusOk_zero statusZero_busy rfl rfl hi.memoryWf

/-! ### The engine -/

/-- A word that is ILLEGAL has only the start as progress point, and its step reads nothing (R161). -/
theorem State.nextRead_of_illegal {s : State} {why : IllegalWord} (hd : decode s.lat.cmd = .illegal why)
    (hp : s.progressOk) : s.nextRead = none := by
  have hn : ∀ i, ¬ s.runsCommand i := fun i hi => by cases hi.symm.trans hd
  cases hph : s.phase with
  | idle => simp only [State.nextRead, hph]
  | busy p =>
    simp only [State.progressOk, hph] at hp
    cases p with
    | start => simp only [State.nextRead, hph, hd]
    | scanAt j => exact absurd hp.1 (not_or.mpr ⟨hn _, hn _⟩)
    | pairA j => exact absurd hp.1 (not_or.mpr ⟨hn _, hn _⟩)
    | pairB j u => exact absurd hp.1 (not_or.mpr ⟨hn _, hn _⟩)

/-- A read that is left unanswered is the one that `nextRead` names. -/
theorem nextRead_of_hang {i : Instr} {s : State} {a : Nat} (hd : s.runsCommand i) (hb : s.phase.isBusy = true)
    (hp : s.progressOk) (hu : s.unanswered = none) (ha : s.answer = .never)
    (h : exec i s = .next (s.leaveUnanswered a)) : s.nextRead = some a := by
  rcases exec_reads_or_completes hd hb hp with ⟨b, k, hn, he⟩ | ⟨_, f, r, he⟩
  · rw [State.memRead_never hu ha, h] at he
    have hab : some a = some b := congrArg State.unanswered (Host.Outcome.next.inj he)
    rw [hn, hab]
  · have hidle : s.phase = .idle := congrArg State.phase (Host.Outcome.next.inj (h.symm.trans he))
    rw [hidle] at hb; cases hb

/-- The end of a command with no read on the port leaves an idle block. -/
theorem Ends.inv {s t : State} (h : Ends s t) (hi : s.Inv) (hu : s.unanswered = none) : t.Inv := by
  refine State.inv_of_idle h.phase (h.statusOk hi.statusOk) h.busy ?_ (h.unanswered.trans hu) ?_
  · rw [h.frame.cmd_eq, h.frame.lat_eq]; exact hi.cmdLatched
  · rw [h.frame.cfg_eq, h.frame.mem_eq]; exact hi.memoryWf

/-- An engine step of the running command keeps the invariant. -/
theorem exec_keeps_inv {i : Instr} {s t : State} (hi : s.Inv) (hd : s.runsCommand i) (hb : s.phase.isBusy = true)
    (h : exec i s = .next t) : t.Inv := by
  cases hu : s.unanswered with
  | some b =>
    cases (exec_while_unanswered hd hb hi.progress (hi.hangs b hu) hu).symm.trans h
    exact hi
  | none =>
    rcases exec_ends_or_runsOn h with hend | hrun
    · exact hend.inv hi hu
    · cases hrun with
      | stuck hn => exact absurd hu hn
      | hang a _ ha =>
        have hn : s.nextRead = some a := nextRead_of_hang hd hb hi.progress hu ha h
        exact { hi with hangs := fun b hab => hn.trans hab }
      | continues r p _ hp =>
        exact
          { hi with
            phaseIsBusy := hb.symm.trans hi.phaseIsBusy
            progress := hp.progressOk hd hi.progress
            hangs := fun b hab => by cases hu.symm.trans hab }

theorem engineTurn_keeps_inv {s t : State} (hi : s.Inv) (h : engineTurn s = .next t) : t.Inv := by
  rcases engineTurn_cases h with ⟨_, rfl⟩ | ⟨p, i, hph, hd, he⟩ | ⟨p, why, _, hd, rfl⟩
  · exact hi
  · exact exec_keeps_inv hi hd (by rw [hph]; rfl) he
  · have hu : s.unanswered = none := Option.eq_none_iff_forall_ne_some.mpr fun a ha => by
      cases (State.nextRead_of_illegal hd hi.progress).symm.trans (hi.hangs a ha)
    exact (Ends.of_illegal s).inv hi hu

/-! ### One step of the machine -/

/-- No step changes the parameters. -/
theorem step_cfg {s t : State} (h : step s = .next t) : t.cfg = s.cfg := by
  rcases step_block_cases h with hs | ⟨r, v, _, hs⟩ | ⟨a, _, he⟩ | ⟨_, hs⟩
  · exact hs.cfg
  · exact hs.cfg.trans (State.writeReg_cfg s r v)
  · exact (engineTurn_frame he).cfg_eq
  · exact hs.cfg

/-- Every step keeps the canonical form of the memory. -/
theorem step_memoryWf {s t : State} (h : step s = .next t) (hm : Memory.wf s.cfg.memSize s.mem = true) :
    Memory.wf t.cfg.memSize t.mem = true := by
  rw [step_cfg h]
  by_cases hd : ∃ a v, s.dueInput = .store a v
  · obtain ⟨a, v, hd⟩ := hd
    have ht : t = s.takeInput.storeByte a v := by
      unfold step turn at h; rw [hd] at h; exact (Host.Outcome.next.inj h).symm
    rcases s.takeInput.storeByte_cases a v with ⟨_, he⟩ | ⟨ha, he⟩ <;> rw [ht, he]
    · exact hm
    · exact Memory.wf_write hm ha v
  · rw [step_mem_of_not_store h fun a v hav => hd ⟨a, v, hav⟩]
    exact hm

/-- The state in which the engine's turn runs is the block as it stood. -/
theorem SameBlock.takeInput_withAnswer (s : State) (a : MemAnswer) : SameBlock s (s.takeInput.withAnswer a) :=
  ⟨rfl, rfl, rfl, rfl, rfl, rfl⟩

theorem State.Inv.takeInput_withAnswer {s : State} (hi : s.Inv) (a : MemAnswer) : (s.takeInput.withAnswer a).Inv :=
  (SameBlock.takeInput_withAnswer s a).inv hi hi.memoryWf

/-- Settles O45, agent by agent: a host writes at most one register, the engine runs one step of its command, reset gives
an idle block, and no other agent touches the block. -/
theorem stepKeepsTheInvariant : Obligations.StepKeepsTheInvariant := by
  intro s t hi h
  have hm := step_memoryWf h hi.memoryWf
  rcases step_block_cases h with hs | ⟨r, v, _, hs⟩ | ⟨a, _, he⟩ | ⟨_, hs⟩
  · exact hs.inv hi hm
  · exact hs.inv (hi.writeReg r v) hm
  · exact engineTurn_keeps_inv (hi.takeInput_withAnswer a) he
  · exact hs.inv hi.applyReset hm

/-- Settles O44: an idle block with STATUS 0, and a memory that lists no byte. -/
theorem resetMeetsTheInvariant : Obligations.ResetMeetsTheInvariant :=
  State.inv_of_idle rfl statusOk_zero statusZero_busy rfl rfl (Memory.wf_nil _)

/-- The engine's turn answers a next state under the invariant. -/
theorem engineTurn_next {s : State} (hi : s.Inv) : ∃ t, engineTurn s = .next t := by
  unfold engineTurn
  split
  · exact ⟨s, rfl⟩
  · next p hph =>
    split
    · next i hd =>
      rcases exec_reads_or_completes hd (by rw [hph]; rfl) hi.progress with ⟨a, k, _, he⟩ | ⟨_, f, r, he⟩
      · exact ⟨_, he⟩
      · exact ⟨_, he⟩
    · exact ⟨_, rfl⟩

/-- Settles O46: only the engine's turn could stop, and under the invariant its command stands at one of its own progress
points. -/
theorem stepNeverStops : Obligations.StepNeverStops := by
  intro s hi
  unfold step turn
  cases s.dueInput with
  | engine a => exact engineTurn_next (hi.takeInput_withAnswer a)
  | bus a => exact ⟨_, rfl⟩
  | program => exact ⟨_, rfl⟩
  | store a v => exact ⟨_, rfl⟩
  | publish => exact ⟨_, rfl⟩
  | reset => exact ⟨_, rfl⟩

end Sys2Proof.Machine
end

section
/-! PROOFS. Bounded completion (10_state.md R33; 70_reset_and_hazards.md R192, R193): every answered engine turn of a running
command ends it or leaves it fewer turns, and the hosts' moves leave the bound as it is. -/

namespace Sys2Proof.Machine

/-- A running command needs one more engine turn at least. -/
theorem State.turnsLeft_pos {s : State} (hb : s.phase.isBusy = true) (hp : s.progressOk) : 0 < s.turnsLeft := by
  cases hph : s.phase with
  | idle => rw [hph] at hb; cases hb
  | busy p =>
    simp only [State.progressOk, hph] at hp
    simp only [State.turnsLeft, hph]
    cases p with
    | start =>
      dsimp only
      split
      · split <;> omega
      · split <;> omega
      · omega
      · omega
      · omega
    | scanAt j => dsimp only; omega
    | pairA j => dsimp only at hp ⊢; omega
    | pairB j u => dsimp only at hp ⊢; omega

/-- The bound reads the progress point and the latch. -/
theorem State.turnsLeft_congr {s t : State} (hp : t.phase = s.phase) (hl : t.lat = s.lat) :
    t.turnsLeft = s.turnsLeft := by
  simp only [State.turnsLeft, State.lastByte, State.firstByte, State.scanStart, State.scanEnd, State.prefixBytes,
    State.wholeBytes, State.remainderBits, State.prefixLen, hp, hl]
  rfl

/-- An engine turn of a running command whose read is answered ends it, or leaves it fewer turns. -/
theorem engineTurn_answered {s t : State} (hi : s.Inv) (hb : s.phase.isBusy = true) (hu : s.unanswered = none)
    (ha : s.answer ≠ .never) (h : engineTurn s = .next t) :
    Ends s t ∨ (t.phase.isBusy = true ∧ t.unanswered = none ∧ t.turnsLeft < s.turnsLeft) := by
  rcases engineTurn_outcomes h with ⟨hidle, _⟩ | ⟨_, hend | ⟨i, hd, hrun⟩⟩
  · rw [hidle] at hb; cases hb
  · exact .inl hend
  · cases hrun with
    | stuck hn => exact absurd hu hn
    | hang a _ hn => exact absurd hn ha
    | continues r p _ hp => exact .inr ⟨rfl, hu, hp.turnsLeft_lt hd hi.progress⟩

/-- A fair input that is no turn of the engine is a move of a host or of the memory's writers. -/
theorem isAnsweredInput_of_fair_host {x : Input} (hf : isFairInput x = true) (hx : ∀ a, x ≠ .engine a) :
    isAnsweredInput x = true := by
  cases x with
  | engine a => exact absurd rfl (hx a)
  | reset => cases hf
  | bus _ | program | store _ _ | publish => rfl

/-- One fair step of a busy machine: the command ends, or it runs on under the invariant, with the inputs after the due one
and a bound that their engine turns still cover. -/
theorem step_fair {s : State} {x : Input} {l rest : List Input} (hi : s.Inv) (hb : s.x.status.busy = true)
    (hu : s.unanswered = none) (hin : s.inputs = x :: l ++ rest) (hx : isFairInput x = true)
    (ht : s.turnsLeft ≤ countEngineTurns (x :: l)) :
    ∃ t, step s = .next t ∧ t.Inv ∧ t.inputs = l ++ rest ∧
      ((t.x.status.busy = false ∧ t.x.status.done = true ∧ t.phase = .idle) ∨
       (t.x.status.busy = true ∧ t.unanswered = none ∧ t.turnsLeft ≤ countEngineTurns l)) := by
  obtain ⟨t, hs⟩ := stepNeverStops s hi
  have hti : t.Inv := stepKeepsTheInvariant s t hi hs
  have htin : t.inputs = l ++ rest := by rw [step_inputs hs, hin]; rfl
  refine ⟨t, hs, hti, htin, ?_⟩
  by_cases he : ∃ a, x = .engine a
  · obtain ⟨a, rfl⟩ := he
    have ha : a ≠ .never := by rintro rfl; cases hx
    have hturn : engineTurn (s.takeInput.withAnswer a) = .next t := by
      unfold step turn at hs
      rwa [State.dueInput_cons s _ _ hin] at hs
    rcases engineTurn_answered (hi.takeInput_withAnswer a) (hi.phaseIsBusy.trans hb) hu ha hturn with
      hend | ⟨htb, htu, hlt⟩
    · exact .inl ⟨hend.busy, hend.done, hend.phase⟩
    · have hlt' : t.turnsLeft < s.turnsLeft := hlt
      have hcount : countEngineTurns (.engine a :: l) = countEngineTurns l + 1 := rfl
      exact .inr ⟨hti.phaseIsBusy.symm.trans htb, htu, by omega⟩
  · have hne : ∀ a, x ≠ .engine a := fun a hxa => he ⟨a, hxa⟩
    obtain ⟨t', hs', hm, _⟩ := step_host_move hb hin (isAnsweredInput_of_fair_host hx hne) hne
    cases hs.symm.trans hs'
    refine .inr ⟨hm.busy, hm.unanswered.trans hu, ?_⟩
    rw [State.turnsLeft_congr hm.phase hm.lat, ← countEngineTurns_of_host hne l]
    exact ht

/-- Settles O52, by induction on the due inputs: a fair step ends the command or keeps what the induction needs, and the
inputs cannot run out, since a running command needs at least one more turn. -/
theorem fairTurnsCompleteTheCommand : Obligations.FairTurnsCompleteTheCommand := by
  intro s l rest
  induction l generalizing s with
  | nil =>
    intro hi hb _ _ _ ht
    exact absurd (State.turnsLeft_pos (hi.phaseIsBusy.trans hb) hi.progress) (Nat.not_lt.mpr ht)
  | cons x l ih =>
    intro hi hb hu hin hfair ht
    obtain ⟨t, hs, hti, htin, ⟨hbusy, hdone, hidle⟩ | ⟨htb, htu, htt⟩⟩ :=
      step_fair hi hb hu hin (hfair x List.mem_cons_self) ht
    · exact ⟨1, t, by simp, stepN_succ_of_step hs 0, hbusy, hdone, hidle⟩
    · obtain ⟨n, u, hn, hrun, hend⟩ := ih t hti htb htu htin (fun y hy => hfair y (List.mem_cons_of_mem x hy)) htt
      exact ⟨n + 1, u, Nat.succ_le_succ hn, (stepN_succ_of_step hs n).trans hrun, hend⟩

end Sys2Proof.Machine
end

section
/-! PROOFS. Frames of the engine: what a step of a command leaves unchanged (10_state.md R34, R35), which commands can find a
bit (R22), and when a read is performed (R33, R62). -/

namespace Sys2Proof.Machine

/-- An engine step of any command keeps the frame. -/
theorem exec_frame {i : Instr} {s t : State} (h : exec i s = .next t) : EngineFrame s t := by
  rcases exec_ends_or_runsOn h with he | hr
  · exact he.frame
  · exact hr.frame

/-- Only a read that the memory leaves unanswered changes the read on the port (R52, R189). -/
theorem RunsOn.unanswered {i : Instr} {s t : State} (h : RunsOn i s t) :
    t.unanswered = s.unanswered ∨
      (s.unanswered = none ∧ s.answer = .never ∧ t = { s with unanswered := t.unanswered }) := by
  cases h with
  | stuck _ => exact .inl rfl
  | hang a hu ha => exact .inr ⟨hu, ha, rfl⟩
  | continues r p _ _ => exact .inl rfl

/-- Settles O40, by the two outcomes of an engine step: what both leave is the frame, and only a step that runs on can
leave a read on the port. -/
theorem execFrame : Obligations.ExecFrame := by
  intro i s t h
  have hport : t.unanswered = s.unanswered ∨
      (s.unanswered = none ∧ s.answer = .never ∧ t = { s with unanswered := t.unanswered }) := by
    rcases exec_ends_or_runsOn h with he | hr
    · exact .inl he.unanswered
    · exact hr.unanswered
  have hx : t.phase ≠ .idle → t.x = s.x := fun hp => by
    rcases exec_ends_or_runsOn h with he | hr
    · exact absurd he.phase hp
    · exact hr.x_eq
  obtain ⟨⟨r, w, p, u, rs, rfl⟩, hovr, hres⟩ := exec_frame h
  exact ⟨rfl, rfl, rfl, rfl, rfl, rfl, hovr, hres, rfl, rfl, rfl, fun _ => rfl, rfl, rfl, rfl, rfl, rfl, rfl, hport, hx⟩

/-- Settles O42: a word command completes, and complete performs no read. -/
theorem wordCommandsTakeOneStep : Obligations.WordCommandsTakeOneStep := by
  intro i s hi
  obtain ⟨f, r, he⟩ := exec_word_completes hi s
  exact ⟨_, he, by simp⟩

/-! ### FOUND -/

/-- A command that is no search completes with FOUND = 0 (D8): it completes with a value, or it is PEQB. -/
theorem pairStep_found {s t : State} {order : BitOrder} (hb : s.phase.isBusy = true) (h : pairStep order s = .next t)
    (ht : t.phase = .idle) : t.x.status.found = false := by
  have hread : ∀ a (k : Byte → State → State), t = s.memRead a k →
      (∀ v u, (k v u).phase = .idle → (k v u).x.status.found = false) → t.x.status.found = false := by
    intro a k he hk
    rcases s.memRead_cases a k with ⟨b, _, hr⟩ | ⟨_, p, _, hr⟩ | ⟨_, _, hr⟩ | ⟨_, _, hr⟩ <;> rw [he, hr] at ht ⊢
    · rw [ht] at hb; cases hb
    · exact hk _ _ ht
    · exact Status.failed_found _ _
    · rw [show s.phase = .idle from ht] at hb; cases hb
  rcases pairStep_cases h with ⟨_, _, rfl⟩ | ⟨j, _, he⟩ | ⟨j, u, _, he⟩
  · exact Status.completed_found _ _
  · exact hread _ _ he fun v u hp => by cases hp
  · refine hread _ _ he fun v w hp => ?_
    rcases pairAfterB_cases order j u v w with ⟨_, _, hk⟩ | ⟨_, _, hk⟩ | ⟨_, hk⟩ <;> rw [hk] at hp ⊢
    · cases hp
    · exact Status.completed_found _ _
    · exact Status.completed_found _ _

theorem exec_found {i : Instr} {s t : State} (hb : s.phase.isBusy = true) (h : exec i s = .next t) (ht : t.phase = .idle)
    (hf : t.x.status.found = true) :
    i ∈ [Instr.ffs, Instr.ffc, Instr.hibit32, Instr.hibit64, Instr.lobit32, Instr.lobit64] := by
  have hno : t.x.status.found ≠ false := by rw [hf]; decide
  cases i
  case ffs | ffc | hibit32 | hibit64 | lobit32 | lobit64 => decide
  case peqbMsb | peqbLsb => exact absurd (pairStep_found hb h ht) hno
  all_goals cases h; exact absurd (Status.completed_found _ _) hno

/-- ERR = 1 implies FOUND = 0 at the end of a command (R34, R35). -/
theorem Ends.err_of_found {s t : State} (h : Ends s t) (hf : t.x.status.found = true) : t.x.status.err = false := by
  cases h with
  | complete rs f r => exact Status.completed_err _ f
  | fail rs c r _ _ => exact absurd ((Status.failed_found _ c).symm.trans hf) (by decide)

/-- Settles O41: every command that is no search completes with FOUND = 0, and an error clears FOUND. -/
theorem foundOnlyBySearches : Obligations.FoundOnlyBySearches := by
  intro i s t hb h ht hf
  refine ⟨exec_found hb h ht hf, ?_⟩
  rcases exec_ends_or_runsOn h with he | hr
  · exact he.err_of_found hf
  · have htb := hr.isBusy hb
    rw [ht] at htb; cases htb

/-! ### Reads -/

/-- An engine step performs at most one read. -/
theorem EngineEffect.reads {s t : State} (h : EngineEffect s t) : t.reads = s.reads ∨ ∃ r, t.reads = r :: s.reads := by
  cases h with
  | nothing => exact .inl rfl
  | hang a _ _ => exact .inl rfl
  | move rs p a v _ h => exact .inr ⟨_, h⟩
  | complete rs f r h => exact h.imp_right fun ⟨_, _, h⟩ => ⟨_, h⟩
  | busError a _ => exact .inr ⟨_, rfl⟩

/-- An engine turn that performs a read performs one, for a memory command. -/
theorem engineTurn_reads {s t : State} (h : engineTurn s = .next t) (hr : t.reads ≠ s.reads) :
    (∃ r, t.reads = r :: s.reads) ∧ s.phase.isBusy = true ∧
      ∃ i, decode s.lat.cmd = .command i ∧ i ∈ [Instr.ffs, Instr.ffc, Instr.peqbMsb, Instr.peqbLsb] := by
  rcases engineTurn_cases h with ⟨_, rfl⟩ | ⟨p, i, hph, hd, he⟩ | ⟨p, why, _, _, rfl⟩
  · exact absurd rfl hr
  · refine ⟨(exec_effect he).reads.resolve_left hr, by rw [hph]; rfl, i, hd, ?_⟩
    by_contra hi
    obtain ⟨f, w, hw⟩ := exec_word_completes hi s
    cases hw.symm.trans he
    exact hr rfl
  · exact absurd rfl hr

/-- Settles O39: no agent but the engine touches the record of reads. -/
theorem readsOnlyWhileTheCommandRuns : Obligations.ReadsOnlyWhileTheCommandRuns := by
  intro s t h hr
  rcases step_block_cases h with hs | ⟨r, v, _, hs⟩ | ⟨a, hd, he⟩ | ⟨_, hs⟩
  · exact absurd hs.reads hr
  · exact absurd (hs.reads.trans (State.writeReg_reads s r v)) hr
  · obtain ⟨hone, hbusy, hcmd⟩ := engineTurn_reads he hr
    exact ⟨hone, ⟨a, hd⟩, hbusy, hcmd⟩
  · exact absurd hs.reads hr

end Sys2Proof.Machine
end

section
/-! PROOFS. What a step does to the register window (10_state.md R20 to R25, R37): nothing, one register write, the end of the
running command, or reset. The rules of RESULT, the operand registers, the latch and the flags are read off it. -/

namespace Sys2Proof.Machine

/-! ### A register write that is due -/

/-- A step takes the first input off the list and applies it (log 1). -/
theorem step_of_inputs_cons {s : State} {x : Input} {rest : List Input} (hi : s.inputs = x :: rest) :
    step s = applyInput x { s with inputs := rest } := by
  rw [step, turn, State.dueInput_cons s x rest hi, State.takeInput, hi, List.tail_cons]

/-- The due write of a register is performed (R27, R78). -/
theorem step_of_writesReg {s t : State} {r : Reg} {v : Word} (hw : s.writesReg r v) (h : step s = .next t) :
    SameBlock (s.writeReg r v) t := by
  unfold step turn at h
  rcases hw with hd | ⟨hd, hrun, hst⟩ <;> rw [hd] at h <;> cases h
  · rw [show s.cfg = s.takeInput.cfg from rfl, State.busAccess_reg, State.transaction, State.writeReg_takeInput]
    exact ⟨rfl, rfl, rfl, rfl, rfl, rfl⟩
  · have hturn : s.takeInput.hostTurn = s.takeInput.hostStatement (.wr r v) := by
      simp [State.hostTurn, hrun, hst]
    rw [hturn, State.hostStatement, regAccess, State.busAccess_reg, State.transaction, State.writeReg_takeInput]
    exact ⟨rfl, rfl, rfl, rfl, rfl, rfl⟩

@[simp] theorem State.writeReg_result (s : State) (r : Reg) (v : Word) : (s.writeReg r v).x.result = s.x.result := by
  rcases s.writeReg_cases r v with ⟨_, _, h⟩ | ⟨_, _, h⟩ | ⟨_, h⟩ | ⟨_, h⟩ | ⟨_, h⟩ | ⟨_, h⟩ | ⟨_, h⟩ | ⟨_, h⟩ |
    ⟨_, h⟩ <;> rw [h] <;> rfl

/-- The latch after a register write: only an acceptance changes it (R29). -/
theorem State.writeReg_lat_cases (s : State) (r : Reg) (v : Word) :
    (s.writeReg r v).lat = s.lat ∨ (r = .cmd ∧ s.x.status.busy = false ∧ (s.writeReg r v).lat = (s.accept v).lat) := by
  rcases s.writeReg_cases r v with ⟨_, _, h⟩ | ⟨hr, hb, h⟩ | ⟨_, h⟩ | ⟨_, h⟩ | ⟨_, h⟩ | ⟨_, h⟩ | ⟨_, h⟩ | ⟨_, h⟩ |
    ⟨_, h⟩ <;> rw [h]
  case inr.inl => exact .inr ⟨hr, hb, rfl⟩
  all_goals exact .inl rfl

/-- STATUS after a register write: overrun (R32), acceptance (R31), a write of STATUS (R23), or as before. -/
theorem State.writeReg_status_cases (s : State) (r : Reg) (v : Word) :
    (s.writeReg r v).x.status = s.x.status ∨
    (r = .cmd ∧ s.x.status.busy = true ∧ (s.writeReg r v).x.status = s.x.status.setOvr) ∨
    (r = .cmd ∧ s.x.status.busy = false ∧ (s.writeReg r v).x.status = s.x.status.accepted) ∨
    (r = .status ∧ (s.writeReg r v).x.status = s.x.status.hostWrite v) := by
  rcases s.writeReg_cases r v with ⟨hr, hb, h⟩ | ⟨hr, hb, h⟩ | ⟨hr, h⟩ | ⟨_, h⟩ | ⟨_, h⟩ | ⟨_, h⟩ | ⟨_, h⟩ | ⟨_, h⟩ |
    ⟨_, h⟩ <;> rw [h]
  case inl => exact .inr (.inl ⟨hr, hb, rfl⟩)
  case inr.inl => exact .inr (.inr (.inl ⟨hr, hb, rfl⟩))
  case inr.inr.inl => exact .inr (.inr (.inr ⟨hr, rfl⟩))
  all_goals exact .inl rfl

/-! ### The operand registers -/

/-- The operand registers (R24). -/
inductive Reg.IsOperand : Reg → Prop
  | opa : IsOperand .opa
  | opb : IsOperand .opb
  | start : IsOperand .start
  | endOff : IsOperand .endOff
  | k : IsOperand .k

/-- A register write sets the operand register it names and no other. -/
theorem State.regValue_writeReg (s : State) (r : Reg) (v : Word) {q : Reg} (hq : q.IsOperand) :
    (s.writeReg r v).regValue q = if r = q then v else s.regValue q := by
  cases r
  case cmd => simp only [State.writeReg]; split <;> cases hq <;> rfl
  all_goals cases hq <;> rfl

/-- The engine writes no operand register (R3, R24). -/
theorem EngineFrame.regValue_eq {s t : State} (h : EngineFrame s t) {q : Reg} (hq : q.IsOperand) :
    t.regValue q = s.regValue q := by
  obtain ⟨r, w, p, u, rs, rfl⟩ := h.writes
  cases hq <;> rfl

theorem regValue_of_x {s t : State} (h : t.x = s.x) (q : Reg) : t.regValue q = s.regValue q := by
  unfold State.regValue; rw [h]

/-- Everything a step can do to an operand register. -/
theorem step_operand {s t : State} (h : step s = .next t) {q : Reg} (hq : q.IsOperand)
    (hne : t.regValue q ≠ s.regValue q) :
    s.writesReg q (t.regValue q) ∨ (s.dueInput = .reset ∧ t.regValue q = 0#64) := by
  rcases step_block_cases h with hs | ⟨r, v, hw, hs⟩ | ⟨a, _, he⟩ | ⟨hd, hs⟩
  · exact absurd (regValue_of_x hs.x q) hne
  · have hval := (regValue_of_x hs.x q).trans (s.regValue_writeReg r v hq)
    by_cases hrq : r = q
    · rw [if_pos hrq] at hval
      rw [hval, ← hrq]; exact .inl hw
    · exact absurd (hval.trans (if_neg hrq)) hne
  · exact absurd ((engineTurn_frame he).regValue_eq hq) hne
  · refine .inr ⟨hd, ?_⟩
    rw [regValue_of_x hs.x]
    cases hq <;> rfl

/-! ### The window after one step -/

/-- The end of the command in the engine's turn that is due (R34, R35). -/
theorem completesInto_of_ends {s t : State} {a : MemAnswer} (hd : s.dueInput = .engine a)
    (hb : s.phase.isBusy = true) (h : Ends (s.takeInput.withAnswer a) t) : s.completesInto t :=
  ⟨⟨a, hd⟩, hb, h.phase, h.done⟩

theorem State.completesInto.done {s t : State} (h : s.completesInto t) : t.x.status.done = true := by
  obtain ⟨_, _, _, hdone⟩ := h
  exact hdone

/-- Everything one step can do to the register window. -/
theorem step_window_cases {s t : State} (h : step s = .next t) :
    t.x = s.x ∨ (∃ r v, s.writesReg r v ∧ t.x = (s.writeReg r v).x) ∨
    (s.completesInto t ∧ t.x.status.busy = false ∧ t.x.status.ovr = s.x.status.ovr) ∨
    (s.dueInput = .reset ∧ t.x = Window.reset) := by
  rcases step_block_cases h with hs | ⟨r, v, hw, hs⟩ | ⟨a, hd, he⟩ | ⟨hd, hs⟩
  · exact .inl hs.x
  · exact .inr (.inl ⟨r, v, hw, hs.x⟩)
  · rcases engineTurn_outcomes he with ⟨_, rfl⟩ | ⟨hb, hend | ⟨i, _, hrun⟩⟩
    · exact .inl rfl
    · exact .inr (.inr (.inl ⟨completesInto_of_ends hd hb hend, hend.busy, hend.frame.ovr⟩))
    · exact .inl hrun.x_eq
  · exact .inr (.inr (.inr ⟨hd, hs.x⟩))

/-- RESULT changes only by a completion or by reset (R25). -/
theorem step_result {s t : State} (h : step s = .next t) (hne : t.x.result ≠ s.x.result) :
    (s.completesInto t ∧ t.x.status.busy = false) ∨ (s.dueInput = .reset ∧ t.x = Window.reset) := by
  rcases step_window_cases h with hx | ⟨r, v, _, hx⟩ | ⟨hc, hb, _⟩ | hreset
  · exact absurd (congrArg Window.result hx) hne
  · exact absurd ((congrArg Window.result hx).trans (State.writeReg_result s r v)) hne
  · exact .inl ⟨hc, hb⟩
  · exact .inr hreset

/-- Settles O48: the port ignores a write of RESULT, and a step changes it only where it ends the command or is reset. -/
theorem resultChangesOnlyByCompletion : Obligations.ResultChangesOnlyByCompletion := by
  refine ⟨fun s t v hw h => (step_of_writesReg hw h).x, fun s t h hne => ?_, rfl⟩
  rcases step_result h hne with ⟨hc, _⟩ | ⟨hd, hx⟩
  · exact .inl hc
  · exact .inr ⟨hd, congrArg Window.result hx⟩

/-- Settles O47: a register write changes the latch only by acceptance, and the engine does not write it. -/
theorem latchChangesOnlyByAcceptance : Obligations.LatchChangesOnlyByAcceptance := by
  intro s t h hne
  rcases step_block_cases h with hs | ⟨r, v, hw, hs⟩ | ⟨a, _, he⟩ | ⟨hd, hs⟩
  · exact absurd hs.lat hne
  · rcases s.writeReg_lat_cases r v with hl | ⟨rfl, hb, hl⟩
    · exact absurd (hs.lat.trans hl) hne
    · exact .inl ⟨v, hw, hb, hs.lat.trans hl⟩
  · exact absurd (engineTurn_frame he).lat_eq hne
  · exact .inr ⟨hd, hs.lat⟩

/-- A write of v to a register's offset, accepted by the port (R27). -/
theorem step_busWrite {s : State} {r : Reg} {v : Word} {rest : List Input}
    (hi : s.inputs = .bus { addr := s.cfg.regBase + r.offset, bits := 64, op := .write v } :: rest) :
    step s = .next ((State.writeReg { s with inputs := rest } r v).answerHost .written) := by
  rw [step_of_inputs_cons hi]
  exact congrArg Host.Outcome.next (State.busAccess_reg { s with inputs := rest } r (.write v))

/-- Settles O11: the port sets the one register it is asked for, and of the other moves only reset reaches an operand
register. -/
theorem operandWritesChangeOneRegister : Obligations.OperandWritesChangeOneRegister := by
  refine ⟨fun s v off x' rest hmem hi => ?_, fun s t h r old new hmem hne => ?_⟩
  · simp only [List.mem_cons, List.not_mem_nil, or_false, Prod.mk.injEq] at hmem
    rcases hmem with ⟨rfl, rfl⟩ | ⟨rfl, rfl⟩ | ⟨rfl, rfl⟩ | ⟨rfl, rfl⟩ | ⟨rfl, rfl⟩
    · exact step_busWrite (r := .opa) hi
    · exact step_busWrite (r := .opb) hi
    · exact step_busWrite (r := .start) hi
    · exact step_busWrite (r := .endOff) hi
    · exact step_busWrite (r := .k) hi
  · simp only [List.mem_cons, List.not_mem_nil, or_false, Prod.mk.injEq] at hmem
    rcases hmem with ⟨rfl, rfl, rfl⟩ | ⟨rfl, rfl, rfl⟩ | ⟨rfl, rfl, rfl⟩ | ⟨rfl, rfl, rfl⟩ | ⟨rfl, rfl, rfl⟩
    · exact step_operand h .opa hne
    · exact step_operand h .opb hne
    · exact step_operand h .start hne
    · exact step_operand h .endOff hne
    · exact step_operand h .k hne

/-! ### STATUS after one step -/

/-- Everything one step can do to STATUS (R37). -/
theorem step_status_cases {s t : State} (h : step s = .next t) :
    t.x.status = s.x.status ∨
    (∃ v, s.writesReg .cmd v ∧ s.x.status.busy = true ∧ t.x.status = s.x.status.setOvr) ∨
    (∃ v, s.writesReg .cmd v ∧ s.x.status.busy = false ∧ t.x.status = s.x.status.accepted) ∨
    (∃ v, s.writesReg .status v ∧ t.x.status = s.x.status.hostWrite v) ∨
    (s.completesInto t ∧ t.x.status.busy = false ∧ t.x.status.ovr = s.x.status.ovr) ∨
    (s.dueInput = .reset ∧ t.x.status = 0#64) := by
  rcases step_window_cases h with hx | ⟨r, v, hw, hx⟩ | hc | ⟨hd, hx⟩
  · exact .inl (congrArg Window.status hx)
  · have hst : t.x.status = (s.writeReg r v).x.status := congrArg Window.status hx
    rw [hst]
    rcases s.writeReg_status_cases r v with hs | ⟨rfl, hb, hs⟩ | ⟨rfl, hb, hs⟩ | ⟨rfl, hs⟩
    · exact .inl hs
    · exact .inr (.inl ⟨v, hw, hb, hs⟩)
    · exact .inr (.inr (.inl ⟨v, hw, hb, hs⟩))
    · exact .inr (.inr (.inr (.inl ⟨v, hw, hs⟩)))
  · exact .inr (.inr (.inr (.inr (.inl hc))))
  · exact .inr (.inr (.inr (.inr (.inr ⟨hd, congrArg Window.status hx⟩))))

/-- Settles O49, by the ways STATUS changes: each of them keeps the flags it does not name. -/
theorem flagsChangeOnlyByTheirRules : Obligations.FlagsChangeOnlyByTheirRules := by
  intro s t h
  rcases step_status_cases h with hst | ⟨v, hw, hb, hst⟩ | ⟨v, hw, hb, hst⟩ | ⟨v, hw, hst⟩ | ⟨hc, hb, ho⟩ | ⟨hd, hst⟩
  · simp +contextual [hst]
  · have hcmd : ∃ v, s.writesReg .cmd v := ⟨v, hw⟩
    simp +contextual [hst, hb, hcmd]
  · have hcmd : ∃ v, s.writesReg .cmd v := ⟨v, hw⟩
    simp +contextual [hst, hb, hcmd]
  · have hclear : v[8] = true → ∃ v, s.writesReg .status v ∧ v[8] = true := fun hv => ⟨v, hw, hv⟩
    simp +contextual [hst, hclear]
  · simp +contextual [hc, hc.done, hb, ho]
  · simp +contextual [hst, hd]

/-- Settles O51: R22 fixes every field of STATUS but OVR while BUSY, and the steps that change RESULT clear BUSY. -/
theorem windowWhileBusy : Obligations.WindowWhileBusy := by
  intro s hi hb
  obtain ⟨hdone, hfound, herr, hcode⟩ := hi.statusOk.clearWhileBusy hb
  refine ⟨?_, fun t h htb => ?_⟩
  · cases ho : s.x.status.ovr
    · exact Status.ext_fields hb hdone hfound herr hcode ho hi.statusOk.reservedZero
    · exact Status.ext_fields hb hdone hfound herr hcode ho hi.statusOk.reservedZero
  · by_contra hne
    rcases step_result h hne with ⟨_, htb'⟩ | ⟨_, hx⟩
    · exact absurd (htb'.symm.trans htb) (by decide)
    · rw [hx] at htb; exact absurd htb (by decide)

end Sys2Proof.Machine
end

section
/-! PROOFS. The lifecycle of a command, step by step (10_state.md R31 to R35, R41; 70_reset_and_hazards.md R180): acceptance,
overrun, the two ends, reset, and what a step is while the block is busy or idle. -/

namespace Sys2Proof.Machine

/-! ### The engine's turn -/

/-- With an exhausted list the engine is due, and the memory answers with the byte it holds (log 1). -/
theorem step_engine_exhausted {s : State} {p : Progress} {i : Instr} (hp : s.phase = .busy p)
    (hd : decode s.lat.cmd = .command i) (hi : s.inputs = []) : step s = exec i (s.withAnswer (.data 0)) := by
  have ht : s.takeInput = s := by rw [State.takeInput, hi, List.tail_nil, ← hi]
  have hdue : s.dueInput = .engine (.data 0) := by simp only [State.dueInput, hi]
  unfold step turn
  rw [hdue, ht]
  simp [applyInput, engineTurn, hp, hd]

/-- Settles O5: a busy engine's turn decodes the latched word, with inputs left and without. -/
theorem stepRunsTheDecodedCommand : Obligations.StepRunsTheDecodedCommand :=
  fun _ _ _ hp hd => ⟨fun _ _ hi => step_engine hp hd hi, fun hi => step_engine_exhausted hp hd hi⟩

/-- Settles O7: the turn of an idle engine. -/
theorem idleEngineHasNoStep : Obligations.IdleEngineHasNoStep := fun _ _ _ hp hi => step_engine_idle hp hi

/-! ### Writes of CMD and STATUS -/

/-- A CMD write while BUSY = 0 (R31). -/
theorem step_accept {s : State} {v : Word} {rest : List Input} (hb : s.x.status.busy = false)
    (hi : s.inputs = .bus { addr := s.cfg.regBase, bits := 64, op := .write v } :: rest) :
    step s = .next ((State.accept { s with inputs := rest } v).answerHost .written) := by
  rw [step_busWrite (r := .cmd) hi]
  simp [State.writeReg, hb]

/-- A CMD write while BUSY = 1 (R32). -/
theorem step_overrun {s : State} {v : Word} {rest : List Input} (hb : s.x.status.busy = true)
    (hi : s.inputs = .bus { addr := s.cfg.regBase, bits := 64, op := .write v } :: rest) :
    step s = .next ((State.overrun { s with inputs := rest }).answerHost .written) := by
  rw [step_busWrite (r := .cmd) hi]
  simp [State.writeReg, hb]

/-- Settles O8: the fields of an accepted state. -/
theorem acceptanceStartsTheCommand : Obligations.AcceptanceStartsTheCommand := by
  intro s v rest hb hi
  exact ⟨_, step_accept hb hi, by simp⟩

/-- Settles O9: overrun writes STATUS.OVR alone. -/
theorem overrunDropsTheWrite : Obligations.OverrunDropsTheWrite := by
  intro s v rest hb hi
  exact ⟨s.x.status.setOvr, step_overrun hb hi, by simp⟩

theorem Status.hostWrite_of_clear {v : Word} (hv : v.getLsbD 8 = false) (w : Status) : w.hostWrite v = w := by
  rw [Status.hostWrite, hv]; rfl

/-- Settles O10: a STATUS write reaches OVR alone, and only where v[8] = 1. -/
theorem statusWriteClearsOvrOnly : Obligations.StatusWriteClearsOvrOnly := by
  intro s v rest hi
  refine ⟨s.x.status.hostWrite v, step_busWrite (r := .status) hi, fun hv => ?_,
    fun hv => Status.hostWrite_of_clear hv _, by simp⟩
  rw [Status.hostWrite_ovr, hv, Bool.not_true, Bool.and_false]

/-! ### The ends of a command, and reset -/

/-- Settles O13: the fields of STATUS after a completion. -/
theorem completionWrites : Obligations.CompletionWrites :=
  fun s found _ => ⟨s.x.status.completed found, rfl, by simp⟩

/-- Settles O14: the fields of STATUS after an error. -/
theorem errorCompletionWrites : Obligations.ErrorCompletionWrites :=
  fun s code _ => ⟨s.x.status.failed code, rfl, by simp⟩

/-- Settles O15: the reset input is applied to the state without it. -/
theorem resetClearsTheBlock : Obligations.ResetClearsTheBlock := by
  intro s rest hi
  exact step_of_inputs_cons hi

/-- Settles O16: State.reset holds R41's values as written. -/
theorem resetValues : Obligations.ResetValues := ⟨rfl, rfl, rfl⟩

end Sys2Proof.Machine
end

section
/-! PROOFS. A CMD write that meets the end of a command (10_state.md R28; 60_exceptions.md R166): the engine's turn does one
act whatever stands in the window, so the two orders of the write and the turn differ in the write alone. -/

namespace Sys2Proof.Machine

/-- The engine's turn does the same act whatever stands outside the engine. -/
theorem engineTurn_withOutside (s : State) (x : Window) (l : List Input) (r : Option PortReply) (h : HostAgent) {t : State}
    (ht : engineTurn s = .next t) :
    ∃ t', engineTurn (s.withOutside x l r h) = .next t' ∧ SameAct s (s.withOutside x l r h) t t' := by
  rcases engineTurn_cases ht with ⟨hp, rfl⟩ | ⟨p, i, hp, hd, he⟩ | ⟨p, why, hp, hd, rfl⟩
  · refine ⟨_, ?_, .stay, rfl, rfl⟩
    simp only [engineTurn, show (t.withOutside x l r h).phase = .idle from hp]; rfl
  · obtain ⟨t', he', hact⟩ := exec_withOutside s x l r h he
    refine ⟨t', ?_, hact⟩
    simp only [engineTurn, show (s.withOutside x l r h).phase = .busy p from hp,
      show decode (s.withOutside x l r h).lat.cmd = .command i from hd, he']
  · refine ⟨_, ?_, .fail s.reads errIllegalCmd 0#64, rfl, rfl⟩
    simp only [engineTurn, show (s.withOutside x l r h).phase = .busy p from hp,
      show decode (s.withOutside x l r h).lat.cmd = .illegal why from hd]
    rfl

/-- b is t after the end of a command that a shows: what an end writes agrees, and t's own OVR and registers stay. -/
structure SameEnd (t a b : State) : Prop where
  frame : EngineFrame t b
  phase : b.phase = .idle
  busy : b.x.status.busy = false
  done : b.x.status.done = true
  reads : b.reads = a.reads
  result : b.x.result = a.x.result
  found : b.x.status.found = a.x.status.found
  err : b.x.status.err = a.x.status.err
  errcode : b.x.status.errcode = a.x.status.errcode

/-- An act that ends the command from a busy state ends it in the same way from every other. -/
theorem SameAct.sameEnd {s t a b : State} (h : SameAct s t a b) (hb : s.phase.isBusy = true) (ha : a.phase = .idle) :
    SameEnd t a b := by
  obtain ⟨act, rfl, rfl⟩ := h
  have hs : s.phase ≠ .idle := fun hp => by rw [hp] at hb; cases hb
  cases act with
  | stay => exact absurd ha hs
  | hang c => exact absurd ha hs
  | move rs p => cases ha
  | complete rs f r =>
    have hframe := (Ends.complete (s := t) rs f r).frame
    constructor <;> simp [EngineAct.apply, hframe]
  | fail rs c r =>
    have hframe : EngineFrame t (State.fail { t with reads := rs } c r) :=
      ⟨⟨_, _, _, _, _, rfl⟩, Status.failed_ovr t.x.status c, Status.failed_reserved t.x.status c⟩
    constructor <;> simp [EngineAct.apply, hframe]

section
variable {s u : State} {v : Word} {a : MemAnswer} {rest : List Input} {write : Input} (hp : s.phase.isBusy = true)
  (hu : engineTurn (State.withAnswer { s with inputs := rest } a) = .next u) (hidle : u.phase = .idle)
  (hwrite : write = .bus { addr := s.cfg.regBase, bits := 64, op := .write v })
include hp hu hidle hwrite

/-- The write first: it is dropped with OVR (R32), and the command ends as it would have. -/
theorem write_then_end (hb : s.x.status.busy = true) :
    ∃ t, stepN 2 { s with inputs := write :: .engine a :: rest } = .next t ∧
      SameEnd { s.overrun with inputs := rest, answer := a, reply := some .written } u t := by
  obtain ⟨t, ht, hact⟩ := engineTurn_withOutside _ s.overrun.x rest (some .written) s.host hu
  have hfirst : step { s with inputs := write :: .engine a :: rest } =
      .next (State.answerHost (State.overrun { s with inputs := .engine a :: rest }) .written) :=
    step_overrun hb (congrArg (· :: Input.engine a :: rest) hwrite)
  have hsecond : step (State.answerHost (State.overrun { s with inputs := .engine a :: rest }) .written) = .next t := by
    rw [step_of_inputs_cons rfl]; exact ht
  exact ⟨t, (stepN_succ_of_step hfirst 1).trans (stepN_succ_of_step hsecond 0), hact.sameEnd hp hidle⟩

/-- The end first: the block is idle, and the write is accepted (R31). -/
theorem end_then_write :
    ∃ w, SameEnd { s with inputs := write :: rest, answer := a } u w ∧
      stepN 2 { s with inputs := .engine a :: write :: rest } =
        .next ((State.accept { w with inputs := rest } v).answerHost .written) := by
  obtain ⟨w, hw, hact⟩ := engineTurn_withOutside _ s.x (write :: rest) s.reply s.host hu
  have hend := hact.sameEnd hp hidle
  have hfirst : step { s with inputs := .engine a :: write :: rest } = .next w := by
    rw [step_of_inputs_cons rfl]; exact hw
  have hin : w.inputs = .bus { addr := w.cfg.regBase, bits := 64, op := .write v } :: rest := by
    rw [hend.frame.inputs_eq, hend.frame.cfg_eq]
    exact congrArg (· :: rest) hwrite
  have hsecond := step_accept hend.busy hin
  exact ⟨w, hend, (stepN_succ_of_step hfirst 1).trans (stepN_succ_of_step hsecond 0)⟩

end

/-- Settles O43: the two orders, from the one end of the command. -/
theorem writeAndCompletionInEitherOrder : Obligations.WriteAndCompletionInEitherOrder := by
  intro s u v a rest write hp hb hstep hidle hwrite
  have hu := (step_of_inputs_cons (x := .engine a) rfl).symm.trans hstep
  obtain ⟨t, ht, hend⟩ := write_then_end hp hu hidle hwrite hb
  obtain ⟨w, hend', hw⟩ := end_then_write hp hu hidle hwrite
  have hlat : (w.accept v).lat = (s.accept v).lat := by
    obtain ⟨_, _, _, _, _, he⟩ := hend'.frame.writes
    rw [he]; rfl
  exact ⟨⟨t, ht, hend.phase, hend.frame.cmd_eq, hend.result, hend.busy, hend.done,
      hend.frame.ovr.trans (Status.setOvr_ovr _), hend.found, hend.err, hend.errcode, hend.frame.lat_eq, hend.reads⟩,
    ⟨_, hw, rfl, rfl, hlat, Status.accepted_busy _, Status.accepted_done _, hend'.result,
      (Status.accepted_ovr _).trans hend'.frame.ovr, hend'.reads⟩⟩

end Sys2Proof.Machine
end

section
/-! PROOFS. What a read of a byte may return (20_memory.md R52, R63, R64): the candidates of a read, how a store, a publish and
an acceptance change them, and that no other step of a running command does. -/

namespace Sys2Proof.Machine

/-! ### The candidates of a read -/

@[simp] theorem mem_valuesAt {cells : List Host.Cell} {a : Nat} {v : Byte} : v ∈ valuesAt cells a ↔ (a, v) ∈ cells := by
  simp [valuesAt]

theorem valuesAt_eq_nil {cells : List Host.Cell} {a : Nat} (h : ∀ c ∈ cells, c.1 ≠ a) : valuesAt cells a = [] :=
  List.eq_nil_iff_forall_not_mem.mpr fun v hv => h (a, v) (mem_valuesAt.mp hv) rfl

theorem State.mem_readCandidates {s : State} {a : Nat} {v : Byte} :
    v ∈ s.readCandidates a ↔ v = Memory.read s.mem a ∨ (a, v) ∈ s.held ∨ (a, v) ∈ s.unpublished := by
  simp [State.readCandidates]

/-- The values that the memory's picks reach are the candidates. -/
theorem State.exists_byteSeen_eq_iff {s : State} {a : Nat} {v : Byte} :
    (∃ p, s.byteSeen a p = v) ↔ v ∈ s.readCandidates a := by
  constructor
  · rintro ⟨p, rfl⟩
    exact s.byteSeen_mem_candidates a p
  · intro hv
    obtain ⟨p, hp, rfl⟩ := List.mem_iff_getElem.mp hv
    exact ⟨p, List.getD_eq_getElem _ _ hp⟩

/-- Settles O34: the picks reach the candidates and nothing else, and without a race there is one candidate. -/
theorem readReturnsAValueTheByteHeld : Obligations.ReadReturnsAValueTheByteHeld := by
  refine fun s a => ⟨fun p => ?_, fun v hv => ?_, fun hh hu p => ?_⟩
  · exact State.mem_readCandidates.mp (s.byteSeen_mem_candidates a p)
  · exact State.exists_byteSeen_eq_iff.mpr (State.mem_readCandidates.mpr hv)
  · exact State.byteSeen_of_no_race (valuesAt_eq_nil hh) (valuesAt_eq_nil hu) p

/-! ### Stores and publication -/

/-- Settles O35: the due store, at an address of the memory space, is a write of one byte of a canonical memory. -/
theorem storeReplacesOneByte : Obligations.StoreReplacesOneByte := by
  intro s a v rest hinv ha hin
  refine ⟨State.storeByte { s with inputs := rest } a v, step_of_inputs_cons hin, ?_⟩
  rcases State.storeByte_cases { s with inputs := rest } a v with ⟨hout, _⟩ | ⟨_, he⟩
  · exact absurd ha (Nat.not_lt.mpr hout)
  · rw [he]
    exact ⟨Memory.read_write hinv.memoryWf a v, rfl, rfl, rfl, rfl, rfl, rfl, rfl, rfl, rfl⟩

/-- Settles O36: publication empties one list of replaced values, and acceptance the other. -/
theorem publishedStoresAreRead : Obligations.PublishedStoresAreRead := by
  intro s v rest hb hin
  have hpublish := step_of_inputs_cons hin
  have haccept := step_accept (rest := rest) (v := v)
    (s := State.publishStores { s with inputs := .bus ⟨s.cfg.regBase, 64, .write v⟩ :: rest }) hb rfl
  refine ⟨_, (stepN_succ_of_step hpublish 1).trans (stepN_succ_of_step haccept 0), rfl, rfl, fun a p => ?_⟩
  exact State.byteSeen_of_no_race rfl rfl p

/-! ### The candidates while a command runs -/

/-- A read of any byte has the same candidates in both states. -/
structure SameCandidates (s t : State) : Prop where
  mem : t.mem = s.mem
  held : t.held = s.held
  unpublished : t.unpublished = s.unpublished

theorem SameCandidates.subset {s t : State} (h : SameCandidates s t) (a : Nat) :
    s.readCandidates a ⊆ t.readCandidates a := by
  intro v hv
  rwa [State.mem_readCandidates, h.mem, h.held, h.unpublished, ← State.mem_readCandidates]

/-- While BUSY no register write is an acceptance, so the values replaced since the last one stay. -/
theorem State.writeReg_sameCandidates {s : State} (hb : s.x.status.busy = true) (r : Reg) (v : Word) :
    SameCandidates s (s.writeReg r v) := by
  obtain ⟨_, _, _, hheld, hunpublished, _⟩ := State.writeReg_while_busy hb r v
  exact ⟨State.writeReg_mem s r v, hheld, hunpublished⟩

theorem State.busAccess_sameCandidates {s : State} (hb : s.x.status.busy = true) (a : BusAccess) :
    SameCandidates s (s.busAccess a) := by
  rcases s.busAccess_cases a with he | ⟨p, he⟩ | ⟨r, v, _, he⟩ <;> rw [he]
  · exact ⟨rfl, rfl, rfl⟩
  · exact ⟨rfl, rfl, rfl⟩
  · obtain ⟨hm, hh, hu⟩ := State.writeReg_sameCandidates hb r v
    exact ⟨hm, hh, hu⟩

theorem State.hostTurn_sameCandidates {s : State} (hb : s.x.status.busy = true) : SameCandidates s s.hostTurn := by
  rcases s.hostTurn_cases with ⟨x, he⟩ | ⟨p, x, he⟩ | ⟨r, v, x, _, _, he⟩ <;> rw [he]
  · exact ⟨rfl, rfl, rfl⟩
  · exact ⟨rfl, rfl, rfl⟩
  · obtain ⟨hm, hh, hu⟩ := State.writeReg_sameCandidates hb r v
    exact ⟨hm, hh, hu⟩

theorem EngineFrame.sameCandidates {s t : State} (h : EngineFrame s t) : SameCandidates s t := by
  obtain ⟨_, _, _, _, _, rfl⟩ := h.writes
  exact ⟨rfl, rfl, rfl⟩

/-- A store leaves every candidate: the value it replaces joins the unpublished ones. -/
theorem State.readCandidates_subset_storeByte (s : State) (b : Nat) (w : Byte) (a : Nat) :
    s.readCandidates a ⊆ (s.storeByte b w).readCandidates a := by
  rcases s.storeByte_cases b w with ⟨_, he⟩ | ⟨_, he⟩ <;> rw [he]
  · exact List.Subset.refl _
  · intro v hv
    rw [State.mem_readCandidates] at hv ⊢
    rcases hv with rfl | hheld | hunpublished
    · by_cases hab : a = b
      · subst hab
        exact .inr (.inr List.mem_cons_self)
      · exact .inl (Memory.read_write_ne hab s.mem w).symm
    · refine .inr (.inl ?_)
      show (a, v) ∈ if s.x.status.busy then (b, Memory.read s.mem b) :: s.held else s.held
      split
      · exact List.mem_cons_of_mem _ hheld
      · exact hheld
    · exact .inr (.inr (List.mem_cons_of_mem _ hunpublished))

/-- A publish in the middle of a command moves the unpublished values to those the command may still read. -/
theorem State.readCandidates_subset_publishStores {s : State} (hb : s.x.status.busy = true) (a : Nat) :
    s.readCandidates a ⊆ s.publishStores.readCandidates a := by
  intro v hv
  rw [State.mem_readCandidates] at hv ⊢
  rw [State.publishStores_held, if_pos hb, List.mem_append]
  rcases hv with hmem | hheld | hunpublished
  · exact .inl hmem
  · exact .inr (.inl (.inr hheld))
  · exact .inr (.inl (.inl hunpublished))

/-- While a command runs on, no step takes a candidate away. -/
theorem step_readCandidates_subset {s t : State} (h : step s = .next t) (hb : s.x.status.busy = true)
    (hb' : t.x.status.busy = true) (a : Nat) : s.readCandidates a ⊆ t.readCandidates a := by
  have htake : s.takeInput.x.status.busy = true := hb
  rcases step_cases h with ⟨c, _, rfl⟩ | ⟨_, rfl⟩ | ⟨c, _, he⟩ | ⟨b, w, _, rfl⟩ | ⟨_, rfl⟩ | ⟨_, rfl⟩
  · exact (State.busAccess_sameCandidates htake c).subset a
  · exact (State.hostTurn_sameCandidates htake).subset a
  · exact (engineTurn_frame he).sameCandidates.subset a
  · exact s.takeInput.readCandidates_subset_storeByte b w a
  · exact State.readCandidates_subset_publishStores htake a
  · exact absurd (statusZero_busy.symm.trans hb') Bool.false_ne_true

/-- Settles O37: the value seen before the step is a candidate, and no step of a running command takes one away. -/
theorem heldValuesStayAdmitted : Obligations.HeldValuesStayAdmitted := by
  intro s t h hb hb' a p
  exact State.exists_byteSeen_eq_iff.mpr (step_readCandidates_subset h hb hb' a (s.byteSeen_mem_candidates a p))

end Sys2Proof.Machine
end

section
/-! PROOFS. A read that the memory never answers (20_memory.md R52; 70_reset_and_hazards.md R180, R189): it stays on the port,
and from then on no step but reset moves the engine. -/

namespace Sys2Proof.Machine

/-! ### The points at which a command reads -/

/-- The engine step of the command i in s holds the read of the byte at the given address (R91, R143). -/
inductive ReadPoint (i : Instr) (s : State) : Nat → Prop
  | scan {j : Nat} (hi : i = .ffs ∨ i = .ffc) (h : s.AtScanByte j) : ReadPoint i s (s.addrA j)
  | pairA {j : Nat} (hi : i = .peqbMsb ∨ i = .peqbLsb) (h : s.AtPairA j) : ReadPoint i s (s.addrA j)
  | pairB {j : Nat} {u : Byte} (hi : i = .peqbMsb ∨ i = .peqbLsb) (h : s.phase = .busy (.pairB j u)) :
      ReadPoint i s (s.addrB j)

/-- The read points of a scan, in the terms of the latch. -/
theorem ReadPoint.of_scan {i : Instr} {s : State} {addr : Nat} (hi : i ∈ [Instr.ffs, Instr.ffc])
    (h : (s.phase = .busy .start ∧ s.lat.start.toNat < s.lat.endOff.toNat ∧
        addr = (s.lat.opa.toNat + s.lat.start.toNat / 8) % 2 ^ s.cfg.pAddrW) ∨
      (∃ j, s.phase = .busy (.scanAt j) ∧ addr = (s.lat.opa.toNat + j) % 2 ^ s.cfg.pAddrW)) : ReadPoint i s addr := by
  have hi' : i = .ffs ∨ i = .ffc := by simpa using hi
  rcases h with ⟨hp, hlt, rfl⟩ | ⟨j, hp, rfl⟩
  · exact .scan hi' (.inl ⟨hp, hlt, s.firstByte_eq.symm⟩)
  · exact .scan hi' (.inr hp)

/-- The read points of a buffer comparison, in the terms of the latch. -/
theorem ReadPoint.of_pair {i : Instr} {s : State} {addr : Nat} (hi : i ∈ [Instr.peqbMsb, Instr.peqbLsb])
    (h : (s.phase = .busy .start ∧ 0 < s.lat.k.toNat ∧ addr = s.lat.opa.toNat % 2 ^ s.cfg.pAddrW) ∨
      (∃ j, s.phase = .busy (.pairA j) ∧ addr = (s.lat.opa.toNat + j) % 2 ^ s.cfg.pAddrW) ∨
      (∃ j u, s.phase = .busy (.pairB j u) ∧ addr = (s.lat.opb.toNat + j) % 2 ^ s.cfg.pAddrW)) :
    ReadPoint i s addr := by
  have hi' : i = .peqbMsb ∨ i = .peqbLsb := by simpa using hi
  rcases h with ⟨hp, hk, rfl⟩ | ⟨j, hp, rfl⟩ | ⟨j, u, hp, rfl⟩
  · exact .pairA hi' (.inl ⟨hp, Nat.pos_iff_ne_zero.mp hk, rfl⟩)
  · exact .pairA hi' (.inr hp)
  · exact .pairB hi' hp

/-- At a read point the engine step is that read and the rest of the pseudocode after it. -/
theorem ReadPoint.exec_eq {i : Instr} {s : State} {a : Nat} (h : ReadPoint i s a) :
    ∃ k, exec i s = .next (s.memRead a k) := by
  cases h with
  | scan hi h => rcases hi with rfl | rfl <;> exact ⟨_, scanStep_at h _⟩
  | pairA hi h => rcases hi with rfl | rfl <;> exact ⟨_, pairStep_atA h _⟩
  | pairB hi h => rcases hi with rfl | rfl <;> exact ⟨_, pairStep_atB h _⟩

/-- A read that the memory never answers stays on the port. -/
theorem ReadPoint.exec_never {i : Instr} {s : State} {a : Nat} (h : ReadPoint i s a) (hu : s.unanswered = none)
    (ha : s.answer = .never) : exec i s = .next (s.leaveUnanswered a) := by
  obtain ⟨k, he⟩ := h.exec_eq
  rw [he, State.memRead_never hu ha]

/-! ### The stuck engine -/

/-- A read on the port is one of a running command. -/
theorem State.Inv.phaseBusy_of_unanswered {s : State} (hi : s.Inv) (hu : s.unanswered ≠ none) : s.phase.isBusy = true := by
  obtain ⟨a, ha⟩ := Option.ne_none_iff_exists'.mp hu
  have hn := hi.hangs a ha
  cases hp : s.phase with
  | idle => simp [State.nextRead, hp] at hn
  | busy p => rfl

theorem State.Inv.statusBusy_of_unanswered {s : State} (hi : s.Inv) (hu : s.unanswered ≠ none) :
    s.x.status.busy = true :=
  hi.phaseIsBusy.symm.trans (hi.phaseBusy_of_unanswered hu)

/-- The turn of an engine that waits for the answer changes nothing. -/
theorem engineTurn_while_unanswered {s t : State} (hi : s.Inv) (hu : s.unanswered ≠ none)
    (h : engineTurn s = .next t) : t = s := by
  obtain ⟨a, ha⟩ := Option.ne_none_iff_exists'.mp hu
  have hb := hi.phaseBusy_of_unanswered hu
  have hn := hi.hangs a ha
  rcases engineTurn_cases h with ⟨_, he⟩ | ⟨p, i, _, hd, he⟩ | ⟨p, why, _, hd, _⟩
  · exact he
  · exact (Host.Outcome.next.inj ((exec_while_unanswered hd hb hi.progress hn ha).symm.trans he)).symm
  · exact absurd (hn.symm.trans (State.nextRead_of_illegal hd hi.progress)) (Option.some_ne_none a)

/-- What a step leaves as it was while the engine waits for the answer of a read. -/
structure StaysStuck (s t : State) : Prop where
  unanswered : t.unanswered = s.unanswered
  busy : t.x.status.busy = true
  phase : t.phase = s.phase
  lat : t.lat = s.lat
  reads : t.reads = s.reads
  result : t.x.result = s.x.result

theorem SameBlock.staysStuck {s t : State} (h : SameBlock s t) (hb : s.x.status.busy = true) : StaysStuck s t :=
  ⟨h.unanswered, h.x ▸ hb, h.phase, h.lat, h.reads, congrArg Window.result h.x⟩

/-- While BUSY no register write is an acceptance, so it leaves the waiting engine as it was. -/
theorem State.writeReg_staysStuck {s : State} (hb : s.x.status.busy = true) (r : Reg) (v : Word) :
    StaysStuck s (s.writeReg r v) := by
  obtain ⟨hp, hl, hb', _, _, hu⟩ := State.writeReg_while_busy hb r v
  exact ⟨hu, hb', hp, hl, State.writeReg_reads s r v, State.writeReg_result s r v⟩

theorem StaysStuck.trans {s t u : State} (h : StaysStuck s t) (h' : StaysStuck t u) : StaysStuck s u :=
  ⟨h'.unanswered.trans h.unanswered, h'.busy, h'.phase.trans h.phase, h'.lat.trans h.lat, h'.reads.trans h.reads,
    h'.result.trans h.result⟩

/-- No step but reset moves the engine while it waits. -/
theorem step_staysStuck {s t : State} (hi : s.Inv) (hu : s.unanswered ≠ none) (hr : s.dueInput ≠ .reset)
    (h : step s = .next t) : StaysStuck s t := by
  have hb := hi.statusBusy_of_unanswered hu
  rcases step_block_cases h with hs | ⟨r, v, _, hs⟩ | ⟨a, _, he⟩ | ⟨hd, _⟩
  · exact hs.staysStuck hb
  · have hw := State.writeReg_staysStuck hb r v
    exact hw.trans (hs.staysStuck hw.busy)
  · rw [engineTurn_while_unanswered (hi.takeInput_withAnswer a) hu he]
    exact (SameBlock.takeInput_withAnswer s a).staysStuck hb
  · exact absurd hd hr

/-- A CMD write while BUSY is dropped, and sets OVR (R32). -/
theorem step_cmdWrite_while_busy {s t : State} {v : Word} (hb : s.x.status.busy = true) (hw : s.writesReg .cmd v)
    (h : step s = .next t) : t.x.status.ovr = true ∧ t.x.cmd = s.x.cmd := by
  have hwrite : s.writeReg .cmd v = s.overrun := if_pos hb
  have hx : t.x = s.overrun.x := hwrite ▸ (step_of_writesReg hw h).x
  rw [hx]
  exact ⟨Status.setOvr_ovr _, rfl⟩

/-- No reset is due where none stands at the head of the list; an exhausted list has the engine due (log 1). -/
theorem State.dueInput_ne_reset {s : State} {n : Nat} (h : .reset ∉ s.inputs.take (n + 1)) : s.dueInput ≠ .reset := by
  unfold State.dueInput
  cases hin : s.inputs with
  | nil => exact nofun
  | cons x l =>
    rintro rfl
    simp [hin] at h

theorem reset_notMem_take_tail {l : List Input} {n : Nat} (h : .reset ∉ l.take (n + 1)) : .reset ∉ l.tail.take n := by
  cases l with
  | nil => simp
  | cons x l => exact fun hm => h (List.mem_cons_of_mem x hm)

/-- However long the run without a reset, the engine stands where it stood. -/
theorem stepN_staysStuck (n : Nat) {s : State} (hi : s.Inv) (hu : s.unanswered ≠ none)
    (hr : .reset ∉ s.inputs.take n) : ∃ t, stepN n s = .next t ∧ StaysStuck s t := by
  induction n generalizing s with
  | zero =>
    exact ⟨s, rfl, SameBlock.staysStuck ⟨rfl, rfl, rfl, rfl, rfl, rfl⟩ (hi.statusBusy_of_unanswered hu)⟩
  | succ n ih =>
    obtain ⟨t, ht⟩ := stepNeverStops s hi
    have hstuck := step_staysStuck hi hu (State.dueInput_ne_reset hr) ht
    obtain ⟨u, hrun, hu'⟩ := ih (stepKeepsTheInvariant s t hi ht) (hstuck.unanswered ▸ hu)
      (step_inputs ht ▸ reset_notMem_take_tail hr)
    exact ⟨u, (stepN_succ_of_step ht n).trans hrun, hstuck.trans hu'⟩

theorem step_reset {s : State} (hd : s.dueInput = .reset) : step s = .next s.takeInput.applyReset := by
  rw [step, turn, hd, applyInput]

/-- Settles O29: the engine step at a read point is the read, a waiting engine's turn changes nothing, no other agent but
reset moves it, and the run follows by induction on its length. -/
theorem unansweredReadHangsUntilReset : Obligations.UnansweredReadHangsUntilReset := by
  refine ⟨fun s i addr hu ha hat => ?_, fun s t hi hu hr h => ?_, fun n s hi hu hr => ?_, fun s hd => ?_⟩
  · rcases hat with ⟨hmem, hscan⟩ | ⟨hmem, hpair⟩
    · exact (ReadPoint.of_scan hmem hscan).exec_never hu ha
    · exact (ReadPoint.of_pair hmem hpair).exec_never hu ha
  · have hb := hi.statusBusy_of_unanswered hu
    obtain ⟨hunanswered, hbusy, hphase, hlat, hreads, hresult⟩ := step_staysStuck hi hu hr h
    exact ⟨hunanswered, hbusy, hphase, hlat, hreads, hresult, fun v hw => step_cmdWrite_while_busy hb hw h⟩
  · obtain ⟨t, hrun, hstuck⟩ := stepN_staysStuck n hi hu hr
    exact ⟨t, hrun, hstuck.unanswered, hstuck.busy, hstuck.phase, hstuck.reads⟩
  · exact ⟨_, step_reset hd, rfl, statusZero_busy, rfl⟩

end Sys2Proof.Machine
end

section
/-! PROOFS. The decoder, the encoder and the opcode map are one relation (30_encoding.md R70 to R72); the words outside it,
and how the block ends one (R76; 60_exceptions.md R161). -/

namespace Sys2Proof

/-! ### The opcode map -/

theorem commandOfOpcode_eq_some_iff {opc : BitVec 8} {i : Instr} :
    commandOfOpcode opc = some i ↔ opc = opcodeOf i :=
  ⟨fun h => (opcodeOf_of_commandOfOpcode h).symm, fun h => h ▸ commandOfOpcode_opcodeOf i⟩

/-- The commands in the order of the map of R72. -/
def commands : List Instr :=
  [.ffs, .ffc, .hibit32, .hibit64, .lobit32, .lobit64, .parity32, .popcnt64, .rup32, .rup64, .rdn32, .rdn64,
    .peqbMsb, .peqbLsb, .peq32Msb, .peq32Lsb, .peq64Msb, .peq64Lsb]

@[simp] theorem mem_commands (i : Instr) : i ∈ commands := by cases i <;> decide

theorem assignedOpcodes_eq_map : assignedOpcodes = commands.map opcodeOf := rfl

theorem mem_assignedOpcodes_iff {opc : BitVec 8} : opc ∈ assignedOpcodes ↔ ∃ i, commandOfOpcode opc = some i := by
  simp only [assignedOpcodes_eq_map, List.mem_map, mem_commands, true_and, commandOfOpcode_eq_some_iff, eq_comm (a := opc)]

/-! ### Decoding and encoding -/

theorem decode_eq_command_iff {c : Word} {i : Instr} :
    decode c = .command i ↔ (RawCommand.ofWord c).rsv = 0#56 ∧ commandOfOpcode (RawCommand.ofWord c).opc = some i := by
  by_cases hr : (RawCommand.ofWord c).rsv = 0#56
  · cases ho : commandOfOpcode (RawCommand.ofWord c).opc <;> simp [decode, RawCommand.reservedZero, hr, ho]
  · simp [decode, RawCommand.reservedZero, hr]

/-- A word is the encoder's exactly when RSV is 0 and the OPC is the command's (R72). -/
theorem eq_encode_iff {c : Word} {i : Instr} :
    c = encode i ↔ (RawCommand.ofWord c).rsv = 0#56 ∧ (RawCommand.ofWord c).opc = opcodeOf i := by
  constructor
  · rintro rfl
    rw [ofWord_encode]
    exact ⟨rfl, rfl⟩
  · rintro ⟨hr, ho⟩
    calc c = (RawCommand.ofWord c).rsv ++ (RawCommand.ofWord c).opc := word_eq_append c
      _ = (RawCommand.ofWord (encode i)).rsv ++ (RawCommand.ofWord (encode i)).opc := by rw [hr, ho, ofWord_encode]
      _ = encode i := (word_eq_append _).symm

/-- Settles O3: both sides say that RSV is 0 and the OPC is the command's. -/
theorem decodeEncodeInverse : Obligations.DecodeEncodeInverse := by
  intro c i
  rw [decode_eq_command_iff, eq_encode_iff, commandOfOpcode_eq_some_iff]

@[simp] theorem decode_encode (i : Instr) : decode (encode i) = .command i := (decodeEncodeInverse _ i).2 rfl

theorem toNat_encode (i : Instr) : (encode i).toNat = (opcodeOf i).toNat := by cases i <;> rfl

theorem mem_opcodeRows_iff {n : Nat} {i : Instr} :
    (n, i) ∈ commands.map (fun j => ((opcodeOf j).toNat, j)) ↔ n = (opcodeOf i).toNat := by
  simp [eq_comm]

/-- Settles O2: the rows are the commands with their OPC values, and a word is fixed by its value. -/
theorem decodeIsTheOpcodeMap : Obligations.DecodeIsTheOpcodeMap := by
  intro c i
  calc decode c = .command i ↔ c = encode i := decodeEncodeInverse c i
    _ ↔ c.toNat = (opcodeOf i).toNat := by rw [← BitVec.toNat_inj, toNat_encode]
    _ ↔ (c.toNat, i) ∈ commands.map (fun j => ((opcodeOf j).toNat, j)) := mem_opcodeRows_iff.symm

/-- Settles O1: five words are the encoder's, and three have one ground of R76 each. -/
theorem specWordsDecode : Obligations.SpecWordsDecode :=
  ⟨decode_encode .ffs, decode_encode .lobit64, decode_encode .popcnt64, decode_encode .rdn32, decode_encode .peq64Lsb,
    rfl, rfl, rfl⟩

/-! ### Illegal words -/

theorem decode_illegal_iff_not_command {c : Word} :
    (∃ why, decode c = .illegal why) ↔ ¬∃ i, decode c = .command i := by
  cases decode c <;> simp

theorem decode_illegal_iff {c : Word} :
    (∃ why, decode c = .illegal why) ↔
      (RawCommand.ofWord c).rsv ≠ 0#56 ∨ (RawCommand.ofWord c).opc ∉ assignedOpcodes := by
  rw [decode_illegal_iff_not_command, mem_assignedOpcodes_iff]
  simp only [decode_eq_command_iff, exists_and_left]
  exact Classical.not_and_iff_not_or_not

theorem assignedOpcodes_nodup : assignedOpcodes.Nodup := by decide

/-- Among the 256 OPC values the assigned ones are the 18 of R72, each once. -/
theorem assignedValues_perm :
    ((List.range 256).filter (fun n => assignedOpcodes.contains (BitVec.ofNat 8 n))).Perm
      (assignedOpcodes.map BitVec.toNat) := by
  refine (List.perm_ext_iff_of_nodup (List.nodup_range.filter _)
    (assignedOpcodes_nodup.map fun _ _ => BitVec.eq_of_toNat_eq)).2 fun n => ?_
  simp only [List.mem_filter, List.mem_range, List.contains_iff_mem, List.mem_map]
  constructor
  · rintro ⟨hn, hmem⟩
    exact ⟨BitVec.ofNat 8 n, hmem, (BitVec.toNat_ofNat n 8).trans (Nat.mod_eq_of_lt hn)⟩
  · rintro ⟨opc, hmem, rfl⟩
    exact ⟨opc.isLt, by rwa [BitVec.ofNat_toNat, BitVec.setWidth_eq]⟩

/-- 238 of the 256 OPC values are unassigned (R76). -/
theorem length_unassignedValues :
    ((List.range 256).filter (fun n => !assignedOpcodes.contains (BitVec.ofNat 8 n))).length = 238 := by
  have hall := List.length_eq_length_filter_add (l := List.range 256)
    (fun n => assignedOpcodes.contains (BitVec.ofNat 8 n))
  have hcount : assignedOpcodes.length = 18 := rfl
  rw [List.length_range, assignedValues_perm.length_eq, List.length_map, hcount] at hall
  omega

end Sys2Proof

namespace Sys2Proof.Machine

/-- The engine step of an illegal word (R161). -/
theorem step_engine_illegal {s : State} {a : MemAnswer} {rest : List Input} {p : Progress} {why : IllegalWord}
    (hp : s.phase = .busy p) (hd : decode s.lat.cmd = .illegal why) (hi : s.inputs = .engine a :: rest) :
    step s = .next (State.withAnswer { s with inputs := rest } a).raiseIllegalCommand := by
  rw [step_of_inputs_cons hi]
  simp [applyInput, engineTurn, hp, hd]

/-- Settles O4: an idle block accepts the word (R31), and the engine's step of it is fail(1, 0). -/
theorem illegalWords : Obligations.IllegalWords := by
  refine ⟨fun c => decode_illegal_iff, length_unassignedValues, by decide, fun s c why a rest hd hb hi => ?_⟩
  have haccept := step_accept hb hi
  have hend := step_engine_illegal
    (s := (State.accept { s with inputs := .engine a :: rest } c).answerHost .written) rfl hd rfl
  exact ⟨_, (stepN_succ_of_step haccept 1).trans (stepN_succ_of_step hend 0),
    by simp [State.raiseIllegalCommand, errIllegalCmd]⟩

end Sys2Proof.Machine
end

section
/-! PROOFS. The programmed host: its statements (30_encoding.md R77, R78), each the turn of a host that has not halted, and
the pseudo-instructions (R79). -/

namespace Sys2Proof.Machine

/-- The turn of a host that has not halted is its next statement (R78). -/
theorem step_program {s : State} {st : Statement} {rest : List Input} (hi : s.inputs = .program :: rest)
    (hrun : s.host.halted = false) (hst : s.host.prog[s.host.pc]? = some st) :
    step s = .next (State.hostStatement { s with inputs := rest } st) := by
  rw [step_of_inputs_cons hi]
  simp [applyInput, State.hostTurn, hrun, hst]

/-- `wr` is an accepted Write of its register (R78). -/
theorem State.hostStatement_wr (s : State) (r : Reg) (v : Word) :
    s.hostStatement (.wr r v) =
      { s.writeReg r v with reply := some .written, host := { s.host with pc := s.host.pc + 1 } } := by
  rw [State.hostStatement, regAccess, State.busAccess_reg, State.transaction, State.hostGoto]
  simp [State.answerHost]

/-- `rd` is an accepted Read of its register, whose value the temporary takes (R78). -/
theorem State.hostStatement_rd (s : State) (r : Reg) (n : Fin 8) :
    s.hostStatement (.rd r n) =
      { s with
        reply := some (.data (s.regValue r))
        host := { s.host with pc := s.host.pc + 1, h := s.host.h.set n (s.regValue r) } } := by
  rw [State.hostStatement, regAccess, State.busAccess_reg]
  rfl

/-- Settles O59, statement by statement: each one's turn is the statement applied. -/
theorem hostStatementsRun : Obligations.HostStatementsRun := by
  intro s st rest hi hrun hst
  have hstep := step_program hi hrun hst
  refine ⟨rfl, ?_, ?_, ?_, ?_, ?_⟩
  · rintro r v rfl
    rw [hstep, State.hostStatement_wr]
  · rintro r n rfl
    refine ⟨s.regValue r, ?_, by rw [hstep, State.hostStatement_rd]; rfl⟩
    cases r <;> simp [State.regValue]
  · rintro n i l rfl
    exact hstep
  · rintro n i l rfl
    exact hstep
  · rintro rfl
    exact hstep

/-- Settles O60: expandStatement is written from R79. -/
theorem pseudoInstructionsExpand : Obligations.PseudoInstructionsExpand :=
  fun _ _ _ _ => ⟨rfl, rfl, rfl, rfl⟩

end Sys2Proof.Machine
end

section
/-! PROOFS. The bitmap scan (40_bitmap_scan.md R90 to R98): one engine step tests the part of one byte that lies in the range;
the loop keeps what was scanned before it; and the whole run is FIRST(pol), from which the two equivalences follow. -/

/-! ### First matches of a bitmap (R90) -/

namespace Sys2Proof.Reference

theorem IsFirstMatch.unique {pol : Bool} {b : Nat → Byte} {start stop n n' : Nat} (h : IsFirstMatch pol b start stop n)
    (h' : IsFirstMatch pol b start stop n') : n = n' := by
  obtain ⟨hstart, _, hbit, hbefore⟩ := h
  obtain ⟨hstart', _, hbit', hbefore'⟩ := h'
  rcases Nat.lt_trichotomy n n' with hlt | heq | hgt
  · exact absurd hbit (hbefore' n hstart hlt)
  · exact heq
  · exact absurd hbit' (hbefore n' hstart' hgt)

theorem IsFirstMatch.not_noMatch {pol : Bool} {b : Nat → Byte} {start stop n : Nat} (h : IsFirstMatch pol b start stop n) :
    ¬NoMatch pol b start stop := by
  obtain ⟨hstart, hstop, hbit, _⟩ := h
  exact fun hnone => hnone n hstart hstop hbit

/-- The first match of a range that has none before `mid`, and whose first match from there on lies below `top`. -/
theorem IsFirstMatch.of_part {pol : Bool} {b : Nat → Byte} {start mid top stop n : Nat}
    (h : IsFirstMatch pol b (max start mid) (min stop top) n) (hnone : NoMatch pol b start mid) :
    IsFirstMatch pol b start stop n := by
  obtain ⟨hfrom, hto, hbit, hbefore⟩ := h
  refine ⟨by omega, by omega, hbit, fun m hm hmn => ?_⟩
  rcases Nat.lt_or_ge m mid with hlt | hge
  · exact hnone m hm hlt
  · exact hbefore m (by omega) hmn

theorem NoMatch.append {pol : Bool} {b : Nat → Byte} {start mid stop : Nat} (hnone : NoMatch pol b start mid)
    (h : NoMatch pol b (max start mid) stop) : NoMatch pol b start stop := by
  intro m hm hstop
  rcases Nat.lt_or_ge m mid with hlt | hge
  · exact hnone m hm hlt
  · exact h m (by omega) hstop

/-- Two searches of one range match at the same indexes. -/
def SameMatches (pol pol' : Bool) (b b' : Nat → Byte) (start stop : Nat) : Prop :=
  ∀ m, start ≤ m → m < stop → (bitmapBit b m = pol ↔ bitmapBit b' m = pol')

section
variable {pol pol' : Bool} {b b' : Nat → Byte} {start stop : Nat} (h : SameMatches pol pol' b b' start stop)
include h

theorem SameMatches.isFirstMatch {n : Nat} (hn : IsFirstMatch pol b start stop n) : IsFirstMatch pol' b' start stop n := by
  obtain ⟨hstart, hstop, hbit, hbefore⟩ := hn
  exact ⟨hstart, hstop, (h n hstart hstop).1 hbit, fun m hm hmn =>
    mt (h m hm (hmn.trans hstop)).2 (hbefore m hm hmn)⟩

theorem SameMatches.noMatch (hnone : NoMatch pol b start stop) : NoMatch pol' b' start stop :=
  fun m hm hstop => mt (h m hm hstop).2 (hnone m hm hstop)

end

/-- FFS over bytes and FFC over their complements (R96). -/
theorem SameMatches.of_complement {b b' : Nat → Byte} {start stop : Nat}
    (h : ∀ j, start / 8 ≤ j → j ≤ (stop - 1) / 8 → b' j = ~~~ b j) : SameMatches true false b b' start stop := by
  intro m hm hstop
  rw [bitmapBit, bitmapBit, h (m / 8) (by omega) (by omega), BitVec.getLsbD_not]
  simp [Nat.mod_lt]

end Sys2Proof.Reference

/-! ### One engine step (R91) -/

namespace Sys2Proof.Machine

open Sys2Proof.Reference

/-- FFS is SCAN(1) and FFC is SCAN(0) (R92, R93). -/
theorem exec_scan {i : Instr} {pol : Bool} (h : (i, pol) ∈ [(Instr.ffs, true), (Instr.ffc, false)]) (s : State) :
    exec i s = scanStep pol s := by
  simp only [List.mem_cons, Prod.mk.injEq, List.not_mem_nil, or_false] at h
  rcases h with ⟨rfl, rfl⟩ | ⟨rfl, rfl⟩ <;> rfl

/-- Bit m of the bitmap is among those that SCAN tests in its byte, and matches. -/
theorem State.getLsbD_scanBits_mod {s : State} {j m : Nat} (hlt : s.scanStart < s.scanEnd) (h1 : s.firstByte ≤ j)
    (h2 : j ≤ s.lastByte) (hm : m / 8 = j) (pol : Bool) (b : Nat → Byte) :
    (s.scanBits pol j (b j)).getLsbD (m % 8) = true ↔ bitmapBit b m = pol ∧ s.scanStart ≤ m ∧ m < s.scanEnd := by
  have hindex : j * 8 + m % 8 = m := by omega
  rw [State.getLsbD_scanBits hlt h1 h2 pol (b j) (m % 8) (by omega), hindex, bitmapBit, hm]

section
variable {s : State} {j : Nat} (hlt : s.scanStart < s.scanEnd) (h1 : s.firstByte ≤ j) (h2 : j ≤ s.lastByte)
  {pol : Bool} {b : Nat → Byte}
include hlt h1 h2

/-- The lowest tested bit of byte j that is set is the first match in the part of the range that byte j holds. -/
theorem State.isFirstMatch_of_lowestSetBit {i : Nat} (h : lowestSetBit (s.scanBits pol j (b j)) = some i) :
    IsFirstMatch pol b (max s.scanStart (8 * j)) (min s.scanEnd (8 * (j + 1))) (j * 8 + i) := by
  obtain ⟨hi, hset, hlow⟩ := (lowestSetBit_eq_some_iff _ _).1 h
  have hmod : (j * 8 + i) % 8 = i := by omega
  obtain ⟨hbit, hstart, hstop⟩ :=
    (State.getLsbD_scanBits_mod hlt h1 h2 (m := j * 8 + i) (by omega) pol b).1 (by rwa [hmod])
  refine ⟨by omega, by omega, hbit, fun m hm hmn hmatch => ?_⟩
  have htested := (State.getLsbD_scanBits_mod hlt h1 h2 (by omega) pol b).2 ⟨hmatch, by omega, by omega⟩
  exact absurd (hlow (m % 8) (by omega)) (by rw [htested]; decide)

/-- Where no tested bit of byte j is set, the part of the range that byte j holds has no match. -/
theorem State.noMatch_of_lowestSetBit (h : lowestSetBit (s.scanBits pol j (b j)) = none) :
    NoMatch pol b (max s.scanStart (8 * j)) (min s.scanEnd (8 * (j + 1))) := by
  intro m hm hstop hmatch
  have htested := (State.getLsbD_scanBits_mod hlt h1 h2 (by omega) pol b).2 ⟨hmatch, by omega, by omega⟩
  rw [(lowestSetBit_eq_none_iff _).1 h, BitVec.getLsbD_zero] at htested
  exact Bool.false_ne_true htested

/-- What SCAN does after the read of byte j, by the first match in the part of the range that byte j holds. -/
theorem scanAfterRead_outcome {w : State} (hw : w.lat = s.lat) (pol : Bool) (b : Nat → Byte) :
    (∃ n, IsFirstMatch pol b (max s.scanStart (8 * j)) (min s.scanEnd (8 * (j + 1))) n ∧
      scanAfterRead pol j (b j) w = w.complete true (BitVec.ofNat 64 n)) ∨
    (NoMatch pol b (max s.scanStart (8 * j)) (min s.scanEnd (8 * (j + 1))) ∧
      scanAfterRead pol j (b j) w =
        if j < s.lastByte then w.goto (.scanAt (j + 1)) else w.complete false ones64) := by
  have hcases := scanAfterRead_cases pol j (b j) w
  rw [scanBits_of_lat hw, lastByte_of_lat hw] at hcases
  rcases hcases with ⟨i, hi, he⟩ | ⟨hnone, hj, he⟩ | ⟨hnone, hj, he⟩
  · exact .inl ⟨_, State.isFirstMatch_of_lowestSetBit hlt h1 h2 hi, he⟩
  · exact .inr ⟨State.noMatch_of_lowestSetBit hlt h1 h2 hnone, by rw [he, if_pos hj]⟩
  · exact .inr ⟨State.noMatch_of_lowestSetBit hlt h1 h2 hnone, by rw [he, if_neg hj]⟩

end

/-- The engine step of SCAN whose read of byte j is answered with data. -/
theorem scanStep_data {s : State} {j p : Nat} (h : s.AtScanByte j) (hu : s.unanswered = none) (ha : s.answer = .data p)
    (pol : Bool) : scanStep pol s = .next (scanAfterRead pol j (s.byteSeen (s.addrA j) p)
      (s.logRead (s.addrA j) (some (s.byteSeen (s.addrA j) p)))) := by
  rw [scanStep_at h, scanFrom, State.memRead_data hu ha]

/-- Settles O24: the range test of SCAN fails before any read. -/
theorem scanOfEmptyRange : Obligations.ScanOfEmptyRange := by
  intro s hp hempty
  have hrange : ¬ s.scanStart < s.scanEnd := Nat.not_lt.mpr hempty
  exact ⟨scanStep_empty hp hrange true, scanStep_empty hp hrange false⟩

/-- Settles O25: the step is the read and what follows it, and the byte has at most one first match. -/
theorem scanStepTestsOneByte : Obligations.ScanStepTestsOneByte := by
  intro i pol hi s p j hu ha hlt hat addr v t haddr hv ht
  have hfirst : s.lat.start.toNat / 8 = s.firstByte := s.firstByte_eq.symm
  have hlast : (s.lat.endOff.toNat - 1) / 8 = s.lastByte := s.lastByte_eq.symm
  rw [hfirst, hlast] at hat
  obtain ⟨hatByte, h1, h2⟩ : s.AtScanByte j ∧ s.firstByte ≤ j ∧ j ≤ s.lastByte := by
    rcases hat with ⟨hp, rfl⟩ | ⟨hp, hj, hj'⟩
    · exact ⟨.inl ⟨hp, hlt, rfl⟩, le_rfl, State.firstByte_le_lastByte hlt⟩
    · exact ⟨.inr hp, hj.le, hj'⟩
  have hstep : exec i s = .next (scanAfterRead pol j v t) := by
    subst haddr hv ht
    exact (exec_scan hi s).trans (scanStep_data hatByte hu ha pol)
  have houtcome := scanAfterRead_outcome hlt h1 h2 (w := t) (by rw [ht]) pol fun _ => v
  rw [hlast]
  refine ⟨fun n hn hstart hstop hbit hbefore => ?_, fun hnone => ?_⟩
  · have hmatch : IsFirstMatch pol (fun _ => v) (max s.scanStart (8 * j)) (min s.scanEnd (8 * (j + 1))) n :=
      ⟨max_le hstart (by omega), lt_min hstop (by omega), hbit, fun m hm hmn =>
        hbefore m (by omega) (le_of_max_le_left hm) hmn⟩
    rcases houtcome with ⟨n', hmatch', he⟩ | ⟨hnone, _⟩
    · rw [hstep, he, hmatch'.unique hmatch]
    · exact absurd hnone hmatch.not_noMatch
  · have hnone' : NoMatch pol (fun _ => v) (max s.scanStart (8 * j)) (min s.scanEnd (8 * (j + 1))) :=
      fun m hm hstop => hnone m (by omega) (le_of_max_le_left hm) (lt_min_iff.mp hstop).1
    rcases houtcome with ⟨n, hmatch, _⟩ | ⟨_, he⟩
    · exact absurd hnone' hmatch.not_noMatch
    · exact hstep.trans (congrArg Host.Outcome.next he)

/-! ### The loop (R91) -/

/-- The read of byte k of the bitmap as the memory stands in s. -/
def State.scanRead (s : State) (k : Nat) : PortRead := { addr := s.addrA k, answer := some (bytesA s k) }

/-- The reads of the first n bytes of the scan, newest first. -/
def State.scanReads (s : State) (n : Nat) : List PortRead := ((List.range' s.firstByte n).map s.scanRead).reverse

theorem State.scanReads_succ (s : State) (n : Nat) :
    s.scanReads (n + 1) = s.scanRead (s.firstByte + n) :: s.scanReads n := by
  simp [State.scanReads, List.range'_1_concat]

/-- What a scan accepted in s₀ leaves in t when it completes: FIRST(pol) (R90), and the reads it performed (R91). -/
inductive ScanEnds (pol : Bool) (s₀ t : State) : Prop
  | found (n : Nat) (first : IsFirstMatch pol (bytesA s₀) s₀.scanStart s₀.scanEnd n) (found : t.x.status.found = true)
      (result : t.x.result.toNat = n) (reads : t.reads = s₀.scanReads (n / 8 - s₀.firstByte + 1) ++ s₀.reads)
  | notFound (noMatch : NoMatch pol (bytesA s₀) s₀.scanStart s₀.scanEnd) (found : t.x.status.found = false)
      (result : t.x.result = ones64)
      (reads : t.reads =
        (if s₀.scanStart < s₀.scanEnd then s₀.scanReads (s₀.lastByte - s₀.firstByte + 1) else []) ++ s₀.reads)

/-- The loop invariant of a scan accepted in s₀ that stands in s before the read of byte j, with the inputs l due: no byte
before j holds a match, each was read once, and no store has raced or will race a byte still to be read. -/
structure ScanLoop (pol : Bool) (s₀ s : State) (l : List Input) (j : Nat) : Prop where
  atByte : s.AtScanByte j
  lat : s.lat = s₀.lat
  cfg : s.cfg = s₀.cfg
  busy : s.x.status.busy = true
  answering : s.unanswered = none
  range : s₀.scanStart < s₀.scanEnd
  first : s₀.firstByte ≤ j
  last : j ≤ s₀.lastByte
  noMatch : NoMatch pol (bytesA s₀) s₀.scanStart (8 * j)
  reads : s.reads = s₀.scanReads (j - s₀.firstByte) ++ s₀.reads
  bytes : ∀ k, j ≤ k → k ≤ s₀.lastByte → s.Unraced l (s₀.addrA k) ∧ Memory.read s.mem (s₀.addrA k) = bytesA s₀ k

/-- Acceptance of a scan with a non-empty range stands at the loop's first byte. -/
theorem ScanLoop.of_starts {i : Instr} {pol : Bool} {s : State} {l : List Input} {n : Nat} (h : s.Starts i l n)
    (hlt : s.scanStart < s.scanEnd) (hr : ∀ j, s.firstByte ≤ j → j ≤ s.lastByte → s.Unraced l (s.addrA j)) :
    ScanLoop pol s s l s.firstByte where
  atByte := .inl ⟨h.phase, hlt, rfl⟩
  lat := rfl
  cfg := rfl
  busy := h.busy
  answering := h.answering
  range := hlt
  first := le_rfl
  last := State.firstByte_le_lastByte hlt
  noMatch m hm hstop := by rw [s.firstByte_eq] at hstop; omega
  reads := by simp [State.scanReads]
  bytes k h1 h2 := ⟨hr k h1 h2, rfl⟩

section
variable {pol : Bool} {s₀ s : State} {j : Nat}

theorem ScanLoop.isBusy {l : List Input} (h : ScanLoop pol s₀ s l j) : s.phase.isBusy = true := by
  rcases h.atByte with ⟨hp, _⟩ | hp <;> rw [hp] <;> rfl

/-- The hosts and the memory's writers keep the loop invariant (R28). -/
theorem ScanLoop.host {u : State} {x : Input} {l : List Input} (h : ScanLoop pol s₀ s (x :: l) j)
    (hm : HostMove s u x l) : ScanLoop pol s₀ u l j where
  atByte := by
    have hat := h.atByte
    simp only [State.AtScanByte, State.scanStart, State.scanEnd, State.firstByte] at hat ⊢
    rwa [hm.phase, hm.lat]
  lat := hm.lat.trans h.lat
  cfg := hm.cfg.trans h.cfg
  busy := hm.busy
  answering := hm.unanswered.trans h.answering
  range := h.range
  first := h.first
  last := h.last
  noMatch := h.noMatch
  reads := hm.reads.trans h.reads
  bytes k h1 h2 := by
    obtain ⟨hrace, hbyte⟩ := h.bytes k h1 h2
    obtain ⟨hrace', hbyte'⟩ := hm.byte _ hrace
    exact ⟨hrace', hbyte'.trans hbyte⟩

/-- The engine's turn in the loop is the read of byte j as it stood at acceptance, and what follows it. -/
theorem ScanLoop.step_eq {i : Instr} {p : Nat} {l rest : List Input} (h : ScanLoop pol s₀ s (.engine (.data p) :: l) j)
    (hi : (i, pol) ∈ [(Instr.ffs, true), (Instr.ffc, false)]) (hd : s₀.runsCommand i)
    (hin : s.inputs = .engine (.data p) :: rest) :
    step s = .next (scanAfterRead pol j (bytesA s₀ j)
      ((State.withAnswer { s with inputs := rest } (.data p)).logRead (s₀.addrA j) (some (bytesA s₀ j)))) := by
  obtain ⟨q, hq⟩ : ∃ q, s.phase = .busy q := by
    rcases h.atByte with ⟨hp, _⟩ | hp
    · exact ⟨_, hp⟩
    · exact ⟨_, hp⟩
  have hcommand : decode s.lat.cmd = .command i := by rw [h.lat]; exact hd
  obtain ⟨hrace, hbyte⟩ := h.bytes j le_rfl h.last
  have haddr : s.addrA j = s₀.addrA j := by rw [State.addrA, State.addrA, h.cfg, h.lat]
  have hseen : s.byteSeen (s₀.addrA j) p = bytesA s₀ j := (hrace.byteSeen p).trans hbyte
  have hdata := scanStep_data (s := State.withAnswer { s with inputs := rest } (.data p)) h.atByte h.answering rfl pol
  rw [step_engine hq hcommand hin, exec_scan hi, hdata, ← hseen, ← haddr]
  rfl

section
variable {l : List Input} {w : State} (h : ScanLoop pol s₀ s l j) (hreads : w.reads = s₀.scanRead j :: s.reads)
include h hreads

/-- After the read of byte j, the reads performed are those of the bytes up to j. -/
theorem ScanLoop.reads_after : w.reads = s₀.scanReads (j - s₀.firstByte + 1) ++ s₀.reads := by
  rw [hreads, State.scanReads_succ, h.reads, Nat.add_sub_cancel' h.first]
  rfl

/-- A match in byte j is FIRST(pol), since no byte before it holds one. -/
theorem ScanLoop.ends_found {n : Nat}
    (hn : IsFirstMatch pol (bytesA s₀) (max s₀.scanStart (8 * j)) (min s₀.scanEnd (8 * (j + 1))) n) :
    ScanEnds pol s₀ (w.complete true (BitVec.ofNat 64 n)) := by
  have ⟨hfrom, hto, _⟩ := hn
  have hbyte : n / 8 = j := by omega
  have hword : n < 2 ^ 64 := (lt_min_iff.mp hto).1.trans s₀.lat.endOff.isLt
  exact .found n (hn.of_part h.noMatch) (Status.completed_found ..) (BitVec.toNat_ofNat n 64 ▸ Nat.mod_eq_of_lt hword)
    (hbyte ▸ h.reads_after hreads)

/-- Where the last byte holds no match, FIRST(pol) is none. -/
theorem ScanLoop.ends_notFound (hj : ¬ j < s₀.lastByte)
    (hnone : NoMatch pol (bytesA s₀) (max s₀.scanStart (8 * j)) (min s₀.scanEnd (8 * (j + 1)))) :
    ScanEnds pol s₀ (w.complete false ones64) := by
  have hlast : j = s₀.lastByte := le_antisymm h.last (Nat.not_lt.mp hj)
  have hend : s₀.scanEnd ≤ 8 * (j + 1) := by have := s₀.lastByte_eq; omega
  rw [Nat.min_eq_left hend] at hnone
  exact .notFound (h.noMatch.append hnone) (Status.completed_found ..) rfl
    (by rw [if_pos h.range, ← hlast]; exact h.reads_after hreads)

end

/-- Where byte j holds no match and is not the last, the loop invariant holds at the next byte. -/
theorem ScanLoop.next {x : Input} {l rest : List Input} {a : MemAnswer} (h : ScanLoop pol s₀ s (x :: l) j)
    (hj : j < s₀.lastByte)
    (hnone : NoMatch pol (bytesA s₀) (max s₀.scanStart (8 * j)) (min s₀.scanEnd (8 * (j + 1)))) :
    ScanLoop pol s₀ (((State.withAnswer { s with inputs := rest } a).logRead (s₀.addrA j) (some (bytesA s₀ j))).goto
      (.scanAt (j + 1))) l (j + 1) where
  atByte := .inr rfl
  lat := h.lat
  cfg := h.cfg
  busy := h.busy
  answering := h.answering
  range := h.range
  first := h.first.trans (Nat.le_succ j)
  last := hj
  noMatch := by
    have hend : 8 * (j + 1) ≤ s₀.scanEnd := by have := s₀.lastByte_eq; omega
    rw [Nat.min_eq_right hend] at hnone
    exact h.noMatch.append hnone
  reads := by
    rw [Nat.succ_sub h.first]
    exact h.reads_after rfl
  bytes k h1 h2 := by
    obtain ⟨hrace, hbyte⟩ := h.bytes k (Nat.le_of_succ_le h1) h2
    exact ⟨hrace.tail rfl rfl, hbyte⟩

/-- The engine's turn in the loop ends the scan, or keeps the loop invariant at the next byte. -/
theorem ScanLoop.engine {i : Instr} {p : Nat} {l rest : List Input} (h : ScanLoop pol s₀ s (.engine (.data p) :: l) j)
    (hi : (i, pol) ∈ [(Instr.ffs, true), (Instr.ffc, false)]) (hd : s₀.runsCommand i)
    (hin : s.inputs = .engine (.data p) :: rest) :
    ∃ u, step s = .next u ∧
      ((s.CompletesWithin (.engine (.data p) :: l) u ∧ ScanEnds pol s₀ u) ∨
       (ScanLoop pol s₀ u l (j + 1) ∧ u.inputs = rest)) := by
  have hstep := h.step_eq hi hd hin
  refine ⟨_, hstep, ?_⟩
  rcases scanAfterRead_outcome h.range h.first h.last
    (w := (State.withAnswer { s with inputs := rest } (.data p)).logRead (s₀.addrA j) (some (bytesA s₀ j)))
    h.lat pol (bytesA s₀) with ⟨n, hn, he⟩ | ⟨hnone, he⟩
  · rw [he] at hstep ⊢
    exact .inl ⟨.of_step _ l hstep h.isBusy rfl rfl, h.ends_found rfl hn⟩
  · split at he
    · next hj =>
      rw [he]
      exact .inr ⟨h.next hj hnone, rfl⟩
    · next hj =>
      rw [he] at hstep ⊢
      exact .inl ⟨.of_step _ l hstep h.isBusy rfl rfl, h.ends_notFound rfl hj hnone⟩

end

/-- From the loop on, a scan completes within inputs that hold a turn for each byte still to be read: by induction on the
inputs, each of which keeps the loop invariant or ends the scan. -/
theorem ScanLoop.completes {i : Instr} {pol : Bool} {s₀ : State}
    (hi : (i, pol) ∈ [(Instr.ffs, true), (Instr.ffc, false)]) (hd : s₀.runsCommand i) (rest l : List Input) :
    ∀ {s : State} {j : Nat}, ScanLoop pol s₀ s l j → s.inputs = l ++ rest → (∀ x ∈ l, isAnsweredInput x = true) →
      s₀.lastByte - j + 1 ≤ countEngineTurns l → ∃ t, s.CompletesWithin l t ∧ ScanEnds pol s₀ t := by
  induction l with
  | nil => intro s j _ _ _ ht; simp [countEngineTurns] at ht
  | cons x l ih =>
    intro s j h hin ha ht
    have hx := ha x List.mem_cons_self
    have hal : ∀ y ∈ l, isAnsweredInput y = true := fun y hy => ha y (List.mem_cons_of_mem x hy)
    by_cases he : ∃ a, x = .engine a
    · obtain ⟨a, rfl⟩ := he
      obtain ⟨p, rfl⟩ : ∃ p, a = .data p := by
        cases a with
        | data p => exact ⟨p, rfl⟩
        | error => cases hx
        | never => cases hx
      obtain ⟨u, hs, ⟨hcomplete, hend⟩ | ⟨hloop, huin⟩⟩ := h.engine hi hd hin
      · exact ⟨u, hcomplete, hend⟩
      · have hcount : countEngineTurns (.engine (.data p) :: l) = countEngineTurns l + 1 := rfl
        have hlast := hloop.last
        obtain ⟨t, hcomplete, hend⟩ := ih hloop huin hal (by omega)
        exact ⟨t, .cons _ hs h.isBusy (hloop.lat.trans h.lat.symm) hcomplete, hend⟩
    · have hne : ∀ a, x ≠ .engine a := fun a hxa => he ⟨a, hxa⟩
      obtain ⟨u, hs, hm, huin⟩ := step_host_move h.busy hin hx hne
      obtain ⟨t, hcomplete, hend⟩ := ih (h.host hm) huin hal (countEngineTurns_of_host hne l ▸ ht)
      exact ⟨t, .cons _ hs h.isBusy hm.lat hcomplete, hend⟩

/-! ### The whole run -/

/-- A scan over an empty range completes in its first turn (R98). -/
theorem scan_empty_completes {i : Instr} {pol : Bool} (hi : (i, pol) ∈ [(Instr.ffs, true), (Instr.ffc, false)]) {s : State}
    {l : List Input} (h : s.Starts i l 1) (hempty : ¬ s.scanStart < s.scanEnd) :
    ∃ t, s.CompletesWithin l t ∧ ScanEnds pol s t := by
  have hexec : ∀ u : State, u.phase = .busy .start → u.lat = s.lat → exec i u = .next (u.complete false ones64) := by
    intro u hp hl
    rw [exec_scan hi, scanStep_empty hp (by simpa only [State.scanStart, State.scanEnd, hl] using hempty)]
    rfl
  obtain ⟨t, hcomplete, hfound, hresult, hreads⟩ := completes_in_one_turn i false ones64 s.lat hexec l s h rfl
  exact ⟨t, hcomplete, .notFound (fun m hm hstop => absurd (hm.trans_lt hstop) hempty) hfound hresult
    (by rw [if_neg hempty]; exact hreads)⟩

/-- FFS and FFC, from acceptance on, complete with FIRST(pol) (R94). -/
theorem scan_completes {i : Instr} {pol : Bool} (hi : (i, pol) ∈ [(Instr.ffs, true), (Instr.ffc, false)]) {s : State}
    {l : List Input} (h : s.Starts i l ((s.lat.endOff.toNat - 1) / 8 - s.lat.start.toNat / 8 + 1))
    (hr : ∀ j, s.lat.start.toNat / 8 ≤ j → j ≤ (s.lat.endOff.toNat - 1) / 8 → s.Unraced l (s.addrA j)) :
    ∃ t, s.CompletesWithin l t ∧ ScanEnds pol s t := by
  have hfirst : s.lat.start.toNat / 8 = s.firstByte := s.firstByte_eq.symm
  have hlast : (s.lat.endOff.toNat - 1) / 8 = s.lastByte := s.lastByte_eq.symm
  rw [hfirst, hlast] at h hr
  by_cases hlt : s.scanStart < s.scanEnd
  · obtain ⟨rest, hin⟩ := h.due
    exact (ScanLoop.of_starts h hlt hr).completes hi h.command rest l hin h.answered h.turns
  · exact scan_empty_completes hi { h with turns := le_trans (Nat.le_add_left 1 _) h.turns } hlt

/-- Settles O30, from the loop invariant of SCAN. -/
theorem scanComputesFirstMatch : Obligations.ScanComputesFirstMatch := by
  intro i pol hi s l start stop ea readOf hstart hstop hea hread h hr
  subst hstart hstop hea hread
  obtain ⟨t, hcomplete, hend⟩ := scan_completes hi h hr
  refine ⟨t, hcomplete, ?_⟩
  rw [← show s.firstByte = s.lat.start.toNat / 8 from s.firstByte_eq,
    ← show s.lastByte = (s.lat.endOff.toNat - 1) / 8 from s.lastByte_eq]
  cases hend with
  | found n hn hfound hresult hreads => exact .inl ⟨n, hn, hfound, hresult, hreads⟩
  | notFound hnone hfound hresult hreads => exact .inr ⟨hnone, hfound, hresult, hreads⟩

/-- Two scans that match at the same indexes of one range end with the same FOUND and the same RESULT. -/
theorem ScanEnds.same_result {pol pol' : Bool} {s s' t t' : State} (h : ScanEnds pol s t) (h' : ScanEnds pol' s' t')
    (hstart : s'.scanStart = s.scanStart) (hend : s'.scanEnd = s.scanEnd)
    (hm : SameMatches pol pol' (bytesA s) (bytesA s') s.scanStart s.scanEnd) :
    t.x.status.found = t'.x.status.found ∧ t.x.result = t'.x.result := by
  cases h with
  | found n hn hfound hresult _ =>
    have hn' := hm.isFirstMatch hn
    cases h' with
    | found n' hfirst' hfound' hresult' _ =>
      rw [hstart, hend] at hfirst'
      exact ⟨hfound.trans hfound'.symm, BitVec.eq_of_toNat_eq (by rw [hresult, hresult', hn'.unique hfirst'])⟩
    | notFound hnone' _ _ _ =>
      rw [hstart, hend] at hnone'
      exact absurd hnone' hn'.not_noMatch
  | notFound hnone hfound hresult _ =>
    cases h' with
    | found n' hfirst' _ _ _ =>
      rw [hstart, hend] at hfirst'
      exact absurd (hm.noMatch hnone) hfirst'.not_noMatch
    | notFound _ hfound' hresult' _ => exact ⟨hfound.trans hfound'.symm, hresult.trans hresult'.symm⟩

/-- Settles O32: FIRST(1) of the bytes and FIRST(0) of their complements match at the same indexes. -/
theorem scanComplementSymmetry : Obligations.ScanComplementSymmetry := by
  intro s s' l l' start stop hstart hstop hlat hlat' h h' hbytes
  subst hstart hstop
  rw [← hlat, ← hlat'] at h'
  obtain ⟨t, hcomplete, hend⟩ := scan_completes (pol := true) (by simp) h fun j h1 h2 => (hbytes j h1 h2).1
  obtain ⟨t', hcomplete', hend'⟩ := scan_completes (pol := false) (by simp) h' fun j h1 h2 =>
    (hbytes j (by rwa [← hlat]) (by rwa [← hlat'])).2.1
  have hsame : SameMatches true false (bytesA s) (bytesA s') s.scanStart s.scanEnd :=
    .of_complement fun j h1 h2 => (hbytes j h1 h2).2.2
  exact ⟨t, t', hcomplete, hcomplete',
    hend.same_result hend' (congrArg BitVec.toNat hlat) (congrArg BitVec.toNat hlat') hsame⟩

/-- An index that a scan returns with FOUND = 1 is not before its range. -/
theorem ScanEnds.start_le_result {pol : Bool} {s t : State} (h : ScanEnds pol s t) (hf : t.x.status.found = true) :
    s.scanStart ≤ t.x.result.toNat := by
  cases h with
  | found n hn _ hresult _ => exact hresult ▸ hn.1
  | notFound _ hfound _ _ => cases hfound.symm.trans hf

/-- Settles O33: the second scan returns no index before its range. -/
theorem scanForwardProgress : Obligations.ScanForwardProgress := by
  intro i hi s s' l l' start start' stop hstart hstart' hstop hlat h h' hr hr'
  subst hstart hstart' hstop
  obtain ⟨pol, hpol⟩ : ∃ pol, (i, pol) ∈ [(Instr.ffs, true), (Instr.ffc, false)] := by
    simp only [List.mem_cons, List.not_mem_nil, or_false] at hi
    rcases hi with rfl | rfl
    · exact ⟨true, by simp⟩
    · exact ⟨false, by simp⟩
  rw [← hlat] at h' hr'
  obtain ⟨t, hcomplete, _⟩ := scan_completes hpol h hr
  obtain ⟨t', hcomplete', hend'⟩ := scan_completes hpol h' fun j h1 h2 => (hr' j h1 h2).1
  refine ⟨t, t', hcomplete, hcomplete', fun _ hnext hfound' => ?_⟩
  have hle : s'.lat.start.toNat ≤ t'.x.result.toNat := hend'.start_le_result hfound'
  omega

end Sys2Proof.Machine
end

section
/-! PROOFS. The word bit search (41_word_bitsearch.md R110 to R116): the machine's search functions against the closed form
of R110, then the four commands, the laws of R116 and the source's subdivision. -/

/-! ### Highest and lowest positions (R110) -/

namespace Sys2Proof.Reference

theorem IsHighest.eq_top_iff {w i : Nat} {a : BitVec w} (h : IsHighest a i) :
    i = w - 1 ↔ a.getLsbD (w - 1) = true := by
  obtain ⟨hi, hset, hmax⟩ := h
  constructor
  · rintro rfl
    exact hset
  · intro htop
    have hle := hmax (w - 1) (by omega) htop
    omega

theorem IsLowest.le_isHighest {w i k : Nat} {a : BitVec w} (hl : IsLowest a i) (hh : IsHighest a k) : i ≤ k :=
  hl.2.2 k hh.1 hh.2.1

end Sys2Proof.Reference

namespace Sys2Proof.Machine

open Sys2Proof.Reference

/-! ### HI_W and LO_W by the closed form of R110 -/

theorem isHighest_of_highestSetBit {w i : Nat} {a : BitVec w} (h : highestSetBit a = some i) : IsHighest a i := by
  obtain ⟨hi, hset, hclear⟩ := (highestSetBit_eq_some_iff a i).1 h
  refine ⟨hi, hset, fun j hj hbit => not_lt.1 fun hlt => ?_⟩
  cases (hclear j hj hlt).symm.trans hbit

theorem isLowest_of_lowestSetBit {w i : Nat} {a : BitVec w} (h : lowestSetBit a = some i) : IsLowest a i := by
  obtain ⟨hi, hset, hclear⟩ := (lowestSetBit_eq_some_iff a i).1 h
  refine ⟨hi, hset, fun j _ hbit => not_lt.1 fun hlt => ?_⟩
  cases (hclear j hlt).symm.trans hbit

theorem exists_highestSetBit {w : Nat} {a : BitVec w} (ha : a ≠ 0#w) : ∃ i, highestSetBit a = some i :=
  Option.ne_none_iff_exists'.1 (mt (highestSetBit_eq_none_iff a).1 ha)

theorem exists_lowestSetBit {w : Nat} {a : BitVec w} (ha : a ≠ 0#w) : ∃ i, lowestSetBit a = some i :=
  Option.ne_none_iff_exists'.1 (mt (lowestSetBit_eq_none_iff a).1 ha)

/-! ### The four commands -/

/-- The two ends of a search (R110): not found where the index is none, found at the index otherwise. -/
theorem State.completeSearch_outcome (s : State) {o : Option Nat} {Z : Prop} {P : Nat → Prop} (hnone : o = none → Z)
    (hsome : ∀ i, o = some i → P i) :
    (Z ∧ s.completeSearch o = s.complete false ones64) ∨
    ∃ i, P i ∧ s.completeSearch o = s.complete true (BitVec.ofNat 64 i) := by
  cases o with
  | none => exact .inl ⟨hnone rfl, rfl⟩
  | some i => exact .inr ⟨i, hsome i rfl, rfl⟩

theorem State.completeSearch_highestSetBit {w : Nat} (s : State) (a : BitVec w) :
    (a = 0#w ∧ s.completeSearch (highestSetBit a) = s.complete false ones64) ∨
    ∃ i, IsHighest a i ∧ s.completeSearch (highestSetBit a) = s.complete true (BitVec.ofNat 64 i) :=
  s.completeSearch_outcome (highestSetBit_eq_none_iff a).1 fun _ => isHighest_of_highestSetBit

theorem State.completeSearch_lowestSetBit {w : Nat} (s : State) (a : BitVec w) :
    (a = 0#w ∧ s.completeSearch (lowestSetBit a) = s.complete false ones64) ∨
    ∃ i, IsLowest a i ∧ s.completeSearch (lowestSetBit a) = s.complete true (BitVec.ofNat 64 i) :=
  s.completeSearch_outcome (lowestSetBit_eq_none_iff a).1 fun _ => isLowest_of_lowestSetBit

section
variable (s : State)

theorem exec_hibit32 : exec .hibit32 s = .next (s.completeSearch (highestSetBit (s.lat.opa.setWidth 32))) := rfl
theorem exec_hibit64 : exec .hibit64 s = .next (s.completeSearch (highestSetBit s.lat.opa)) := rfl
theorem exec_lobit32 : exec .lobit32 s = .next (s.completeSearch (lowestSetBit (s.lat.opa.setWidth 32))) := rfl
theorem exec_lobit64 : exec .lobit64 s = .next (s.completeSearch (lowestSetBit s.lat.opa)) := rfl

end

/-- Settles O17: each command completes with HI_W of its operand word. -/
theorem highestSetBitCommands : Obligations.HighestSetBitCommands := by
  intro s
  simp only [exec_hibit32, exec_hibit64, Host.Outcome.next.injEq]
  exact ⟨decode_encode .hibit32, decode_encode .hibit64, s.completeSearch_highestSetBit _,
    s.completeSearch_highestSetBit _⟩

/-- Settles O18: each command completes with LO_W of its operand word. -/
theorem lowestSetBitCommands : Obligations.LowestSetBitCommands := by
  intro s
  simp only [exec_lobit32, exec_lobit64, Host.Outcome.next.injEq]
  exact ⟨decode_encode .lobit32, decode_encode .lobit64, s.completeSearch_lowestSetBit _,
    s.completeSearch_lowestSetBit _⟩

/-! ### The bits of the word's value: the width of the word does not matter -/

/-- i is the highest position of the number n that holds a 1. -/
def HighestBitOf (n i : Nat) : Prop := n.testBit i = true ∧ ∀ j, i < j → n.testBit j = false

/-- i is the lowest position of the number n that holds a 1. -/
def LowestBitOf (n i : Nat) : Prop := n.testBit i = true ∧ ∀ j, j < i → n.testBit j = false

theorem highestSetBit_eq_some_iff_toNat {w : Nat} (a : BitVec w) (i : Nat) :
    highestSetBit a = some i ↔ HighestBitOf a.toNat i := by
  simp only [highestSetBit_eq_some_iff, HighestBitOf, BitVec.testBit_toNat]
  constructor
  · rintro ⟨_, hset, hclear⟩
    refine ⟨hset, fun j hij => ?_⟩
    by_cases hj : j < w
    · exact hclear j hj hij
    · exact BitVec.getLsbD_of_ge a j (not_lt.1 hj)
  · rintro ⟨hset, hclear⟩
    exact ⟨BitVec.lt_of_getLsbD hset, hset, fun j _ => hclear j⟩

theorem lowestSetBit_eq_some_iff_toNat {w : Nat} (a : BitVec w) (i : Nat) :
    lowestSetBit a = some i ↔ LowestBitOf a.toNat i := by
  simp only [lowestSetBit_eq_some_iff, LowestBitOf, BitVec.testBit_toNat]
  exact ⟨fun ⟨_, h⟩ => h, fun h => ⟨BitVec.lt_of_getLsbD h.1, h⟩⟩

/-- Zero-extension keeps HI_W. -/
theorem highestSetBit_setWidth {w m : Nat} (h : w ≤ m) (a : BitVec w) :
    highestSetBit (a.setWidth m) = highestSetBit a :=
  Option.ext fun i => by simp only [highestSetBit_eq_some_iff_toNat, BitVec.toNat_setWidth_of_le h]

/-- Zero-extension keeps LO_W. -/
theorem lowestSetBit_setWidth {w m : Nat} (h : w ≤ m) (a : BitVec w) :
    lowestSetBit (a.setWidth m) = lowestSetBit a :=
  Option.ext fun i => by simp only [lowestSetBit_eq_some_iff_toNat, BitVec.toNat_setWidth_of_le h]

/-! ### The laws of R116 -/

theorem highestSetBit_twoPow {w i : Nat} (hi : i < w) : highestSetBit (BitVec.twoPow w i) = some i := by
  simp only [highestSetBit_eq_some_iff, BitVec.getLsbD_twoPow, hi, decide_true, Bool.true_and, decide_eq_false_iff_not,
    true_and]
  exact fun j _ hij => hij.ne

theorem lowestSetBit_twoPow {w i : Nat} (hi : i < w) : lowestSetBit (BitVec.twoPow w i) = some i := by
  simp only [lowestSetBit_eq_some_iff, BitVec.getLsbD_twoPow, hi, decide_true, Bool.true_and, decide_eq_false_iff_not,
    true_and]
  exact fun j hji => hji.ne'

/-- a & (2^W - a) isolates the lowest set bit of a: negation keeps the bits up to it and inverts those above (R116). -/
theorem and_neg_eq_twoPow {w i : Nat} {a : BitVec w} (h : lowestSetBit a = some i) :
    a &&& (0#w - a) = BitVec.twoPow w i := by
  obtain ⟨hi, hset, hclear⟩ := (lowestSetBit_eq_some_iff a i).1 h
  refine BitVec.eq_of_getLsbD_eq fun j hj => ?_
  simp only [BitVec.zero_sub, BitVec.getLsbD_and, BitVec.getLsbD_neg, BitVec.getLsbD_twoPow, hi, hj, decide_true,
    Bool.true_and]
  rcases lt_trichotomy j i with hlt | rfl | hgt
  · simp [hclear j hlt, hlt.ne']
  · have hnone : ¬ ∃ k < j, a.getLsbD k = true := fun ⟨k, hk, hbit⟩ => by simp [hclear k hk] at hbit
    simp [hset, hnone]
  · have hsome : ∃ k < j, a.getLsbD k = true := ⟨i, hgt, hset⟩
    simp [hsome, hgt.ne]

/-- Settles O53: the laws of the two functions for every width, and the commands through them. -/
theorem bitSearchLaws : Obligations.BitSearchLaws := by
  refine ⟨fun w a ha => ?_, fun w i hi => ⟨highestSetBit_twoPow hi, lowestSetBit_twoPow hi⟩, fun s a hs => ?_⟩
  · obtain ⟨h, hh⟩ := exists_highestSetBit ha
    obtain ⟨l, hl⟩ := exists_lowestSetBit ha
    have hmax := isHighest_of_highestSetBit hh
    have hmin := isLowest_of_lowestSetBit hl
    refine ⟨h, l, hh, hl, hmin.le_isHighest hmax, hmax.eq_top_iff, ?_⟩
    rw [and_neg_eq_twoPow hl, highestSetBit_twoPow hmin.1]
  · have hlow : s.lat.opa.setWidth 32 = a := by
      rw [hs, BitVec.setWidth_setWidth_of_le a (by decide), BitVec.setWidth_eq]
    rw [exec_hibit32, exec_hibit64, exec_lobit32, exec_lobit64, hlow, hs, highestSetBit_setWidth (by decide),
      lowestSetBit_setWidth (by decide)]
    exact ⟨rfl, rfl⟩

/-! ### The source's subdivision (R115) -/

theorem HighestBitOf.two_pow_le_iff {n i : Nat} (h : HighestBitOf n i) (k : Nat) : 2 ^ k ≤ n ↔ k ≤ i := by
  obtain ⟨hset, hclear⟩ := h
  constructor
  · intro hle
    obtain ⟨j, hkj, hbit⟩ := Nat.exists_ge_and_testBit_of_ge_two_pow hle
    by_contra hlt
    cases (hclear j (by omega)).symm.trans hbit
  · intro hki
    exact (Nat.pow_le_pow_right (by decide) hki).trans (Nat.ge_two_pow_of_testBit hset)

theorem LowestBitOf.mod_two_pow_eq_zero_iff {n i : Nat} (h : LowestBitOf n i) (k : Nat) : n % 2 ^ k = 0 ↔ k ≤ i := by
  obtain ⟨hset, hclear⟩ := h
  constructor
  · intro hzero
    by_contra hlt
    have hbit : (n % 2 ^ k).testBit i = true := by simp [Nat.testBit_mod_two_pow, hset, not_le.1 hlt]
    simp [hzero] at hbit
  · intro hki
    refine Nat.zero_of_testBit_eq_false fun j => ?_
    by_cases hj : j < k
    · simp [Nat.testBit_mod_two_pow, hclear j (by omega)]
    · simp [Nat.testBit_mod_two_pow, hj]

theorem HighestBitOf.shiftRight {n i k : Nat} (h : HighestBitOf n i) (hk : k ≤ i) :
    HighestBitOf (n >>> k) (i - k) := by
  simp only [HighestBitOf, Nat.testBit_shiftRight, Nat.add_sub_cancel' hk]
  exact ⟨h.1, fun j hj => h.2 _ (by omega)⟩

theorem LowestBitOf.shiftRight {n i k : Nat} (h : LowestBitOf n i) (hk : k ≤ i) :
    LowestBitOf (n >>> k) (i - k) := by
  simp only [LowestBitOf, Nat.testBit_shiftRight, Nat.add_sub_cancel' hk]
  exact ⟨h.1, fun j hj => h.2 _ (by omega)⟩

/-- `loop` is a subdivision loop of R115 for the index that `At` describes: a probe of step k succeeds exactly when the
index is at least k, and then shifts the word by k and adds k to the result. -/
structure Subdivides (loop : List Nat → Nat → Nat → Nat) (At : Nat → Nat → Prop) : Prop where
  done : ∀ n r, loop [] n r = r
  hit : ∀ {n i k : Nat} (ks r), At n i → k ≤ i → loop (k :: ks) n r = loop ks (n >>> k) (r + k)
  miss : ∀ {n i k : Nat} (ks r), At n i → ¬ k ≤ i → loop (k :: ks) n r = loop ks n r
  shiftRight : ∀ {n i k : Nat}, At n i → k ≤ i → At (n >>> k) (i - k)

theorem subdivideHighest_subdivides : Subdivides subdivideHighest HighestBitOf where
  done _ _ := rfl
  hit _ _ h hk := if_pos ((h.two_pow_le_iff _).2 hk)
  miss _ _ h hk := if_neg (mt (h.two_pow_le_iff _).1 hk)
  shiftRight := HighestBitOf.shiftRight

theorem subdivideLowest_subdivides : Subdivides subdivideLowest LowestBitOf where
  done _ _ := rfl
  hit _ _ h hk := if_pos ((h.mod_two_pow_eq_zero_iff _).2 hk)
  miss _ _ h hk := if_neg (mt (h.mod_two_pow_eq_zero_iff _).1 hk)
  shiftRight := LowestBitOf.shiftRight

/-- No step is larger than one more than the sum of the steps after it, so that these reach every index below it. -/
def StepsReach : List Nat → Prop
  | [] => True
  | k :: ks => k ≤ ks.sum + 1 ∧ StepsReach ks

/-- The loop adds up to the index, whenever the steps sum to at least the index. -/
theorem Subdivides.eq_add {loop : List Nat → Nat → Nat → Nat} {At : Nat → Nat → Prop} (hloop : Subdivides loop At)
    {ks : List Nat} (hks : StepsReach ks) {n i : Nat} (r : Nat) (h : At n i) (hi : i ≤ ks.sum) :
    loop ks n r = r + i := by
  induction ks generalizing n i r with
  | nil =>
    rw [List.sum_nil, Nat.le_zero] at hi
    rw [hloop.done, hi, Nat.add_zero]
  | cons k ks ih =>
    obtain ⟨hk, hks⟩ := hks
    rw [List.sum_cons] at hi
    by_cases hki : k ≤ i
    · rw [hloop.hit ks r h hki, ih hks _ (hloop.shiftRight h hki) (by omega)]
      omega
    · rw [hloop.miss ks r h hki, ih hks _ h (by omega)]

theorem subdivisionSteps_reach (w : Nat) : StepsReach (subdivisionSteps w) := by
  unfold subdivisionSteps
  split <;> simp [StepsReach]

/-- The two loops of R115 from r = 0 give HI_W and LO_W, for every width whose indexes the steps reach. -/
theorem subdivision_finds {w : Nat} (hw : w ≤ (subdivisionSteps w).sum + 1) {a : BitVec w} (ha : a ≠ 0#w) :
    highestSetBit a = some (subdivideHighest (subdivisionSteps w) a.toNat 0) ∧
    lowestSetBit a = some (subdivideLowest (subdivisionSteps w) a.toNat 0) := by
  obtain ⟨h, hh⟩ := exists_highestSetBit ha
  obtain ⟨l, hl⟩ := exists_lowestSetBit ha
  have hhw := (isHighest_of_highestSetBit hh).1
  have hlw := (isLowest_of_lowestSetBit hl).1
  have hreach := subdivisionSteps_reach w
  rw [subdivideHighest_subdivides.eq_add hreach 0 ((highestSetBit_eq_some_iff_toNat a h).1 hh) (by omega),
    subdivideLowest_subdivides.eq_add hreach 0 ((lowestSetBit_eq_some_iff_toNat a l).1 hl) (by omega),
    Nat.zero_add, Nat.zero_add]
  exact ⟨hh, hl⟩

/-- Settles O57: the steps sum to 31 and to 63. -/
theorem subdivisionFindsTheBits : Obligations.SubdivisionFindsTheBits :=
  ⟨fun _ => subdivision_finds (by decide), fun _ => subdivision_finds (by decide)⟩

end Sys2Proof.Machine
end

section
/-! PROOFS. Parity and population count (42_count_parity.md R120 to R124): the machine's ones(a) is the number of elements of
the set of positions that hold a 1, and its parity is that number modulo 2; from there the two commands, the laws of R124
and the source's computations of R123. -/

namespace Sys2Proof.Machine

open Sys2Proof.Reference

/-! ### ones(a) is the size of the set of positions that hold a 1 (R12) -/

theorem onesBelow_eq_length_filter {w : Nat} (a : BitVec w) (n : Nat) :
    onesBelow a n = ((List.range n).filter fun i => a.getLsbD i).length := by
  induction n with
  | zero => rfl
  | succ n ih =>
    rw [onesBelow, ih, List.range_succ, List.filter_append, List.length_append]
    cases h : a.getLsbD n <;> simp [h]

theorem onesCount_eq_ones {w : Nat} (a : BitVec w) : onesCount a = ones a := (onesBelow_eq_length_filter a w).symm

/-- The positions of a that hold a 1. -/
def setBits {w : Nat} (a : BitVec w) : Finset Nat := ((List.range w).filter fun i => a.getLsbD i).toFinset

@[simp] theorem mem_setBits {w i : Nat} {a : BitVec w} : i ∈ setBits a ↔ a.getLsbD i = true := by
  simpa [setBits] using BitVec.lt_of_getLsbD

theorem ones_eq_card {w : Nat} (a : BitVec w) : ones a = (setBits a).card := by
  rw [setBits, List.toFinset_card_of_nodup (List.nodup_range.filter _)]
  exact onesBelow_eq_length_filter a w

theorem setBits_subset_range {w : Nat} (a : BitVec w) : setBits a ⊆ Finset.range w := fun _ hi =>
  Finset.mem_range.2 (BitVec.lt_of_getLsbD (mem_setBits.1 hi))

theorem ones_le {w : Nat} (a : BitVec w) : ones a ≤ w := by
  simpa [ones_eq_card] using Finset.card_le_card (setBits_subset_range a)

@[simp] theorem ones_zero (w : Nat) : ones 0#w = 0 := by
  rw [ones_eq_card, Finset.card_eq_zero]
  exact Finset.eq_empty_of_forall_notMem fun i => by simp

/-- Zero-extension keeps ones(a). -/
theorem ones_setWidth {w m : Nat} (h : w ≤ m) (a : BitVec w) : ones (a.setWidth m) = ones a := by
  have hset : setBits (a.setWidth m) = setBits a := by
    ext i
    simpa using fun hi => (BitVec.lt_of_getLsbD hi).trans_le h
  rw [ones_eq_card, ones_eq_card, hset]

/-! ### The laws of R124 -/

/-- A position holds a 1 in exactly one of a and ~a. -/
theorem ones_add_ones_not {w : Nat} (a : BitVec w) : ones a + ones (~~~a) = w := by
  have hset : setBits (~~~a) = Finset.range w \ setBits a := by
    ext i
    simp
  rw [ones_eq_card, ones_eq_card, hset, add_comm, Finset.card_sdiff_add_card_eq_card (setBits_subset_range a),
    Finset.card_range]

/-- a & (a - 1) clears the lowest set bit: a - 1 is the complement of -a, and a & -a isolates that bit (R116). -/
theorem and_sub_one_eq {w i : Nat} {a : BitVec w} (h : lowestSetBit a = some i) :
    a &&& (a - 1#w) = a &&& ~~~BitVec.twoPow w i := by
  rw [← and_neg_eq_twoPow h, BitVec.zero_sub, ← BitVec.not_neg]
  ext j hj
  simp only [BitVec.getElem_and, BitVec.getElem_not]
  cases a[j] <;> simp

theorem setBits_and_sub_one {w i : Nat} {a : BitVec w} (h : lowestSetBit a = some i) :
    setBits (a &&& (a - 1#w)) = (setBits a).erase i := by
  have hi := ((lowestSetBit_eq_some_iff a i).1 h).1
  ext j
  simp only [and_sub_one_eq h, mem_setBits, Finset.mem_erase, BitVec.getLsbD_and, BitVec.getLsbD_not,
    BitVec.getLsbD_twoPow, hi]
  by_cases hbit : a.getLsbD j = true
  · simp [hbit, BitVec.lt_of_getLsbD hbit, eq_comm (a := i)]
  · simp [hbit]

/-- Clearing the lowest set bit takes one from ones(a). -/
theorem ones_and_sub_one {w : Nat} {a : BitVec w} (ha : a ≠ 0#w) : ones (a &&& (a - 1#w)) + 1 = ones a := by
  obtain ⟨i, hi⟩ := exists_lowestSetBit ha
  have hmem : i ∈ setBits a := mem_setBits.2 ((lowestSetBit_eq_some_iff a i).1 hi).2.1
  rw [ones_eq_card, ones_eq_card, setBits_and_sub_one hi, Finset.card_erase_add_one hmem]

/-! ### The parity is ones(a) modulo 2 -/

theorem toNat_xorBelow {w : Nat} (a : BitVec w) (n : Nat) : (xorBelow a n).toNat = onesBelow a n % 2 := by
  induction n with
  | zero => rfl
  | succ n ih =>
    rw [xorBelow, onesBelow, Nat.add_mod, ← ih]
    cases xorBelow a n <;> cases a.getLsbD n <;> rfl

theorem toNat_b2v (c : Bool) : (b2v c).toNat = c.toNat := by cases c <;> rfl

theorem b2v_parityOf {w : Nat} (a : BitVec w) : b2v (parityOf a) = BitVec.ofNat 64 (ones a % 2) := by
  rw [← BitVec.toNat_inj, toNat_b2v, parityOf, toNat_xorBelow, BitVec.toNat_ofNat, ones]
  omega

/-! ### The two commands -/

theorem exec_parity32 (s : State) :
    exec .parity32 s = .next (s.complete false (BitVec.ofNat 64 (ones (s.lat.opa.setWidth 32) % 2))) := by
  rw [← b2v_parityOf]
  rfl

theorem exec_popcnt64 (s : State) : exec .popcnt64 s = .next (s.complete false (BitVec.ofNat 64 (ones s.lat.opa))) := rfl

/-- Settles O19: the machine's ones is the count of the reference, and its parity is ones modulo 2. -/
theorem parityAndPopulationCount : Obligations.ParityAndPopulationCount := by
  intro s
  rw [onesCount_eq_ones, onesCount_eq_ones]
  exact ⟨decode_encode .parity32, decode_encode .popcnt64, exec_parity32 s, ones_le _, exec_popcnt64 s⟩

/-- Settles O54: the count is ones, which zero-extension keeps. -/
theorem populationCountLaws : Obligations.PopulationCountLaws := by
  refine ⟨ones, exec_popcnt64, ones_le, ones_add_ones_not, fun a ha => ?_, fun s x hs => ?_⟩
  · rw [← ones_and_sub_one ha, Nat.add_sub_cancel]
  · refine ⟨_, _, exec_parity32 s, exec_popcnt64 s, ?_⟩
    have hlow : s.lat.opa.setWidth 32 = x := by
      rw [hs, BitVec.setWidth_setWidth_of_le x (by decide), BitVec.setWidth_eq]
    have hle := ones_le x
    rw [hlow, hs, ones_setWidth (by decide)]
    simp only [State.complete_x_result, BitVec.toNat_ofNat]
    omega

/-! ### The source's fold and its count loop (R123) -/

theorem xorBelow_xor {w : Nat} (a b : BitVec w) (n : Nat) : xorBelow (a ^^^ b) n = (xorBelow a n ^^ xorBelow b n) := by
  induction n with
  | zero => rfl
  | succ n ih => simp only [xorBelow, ih, BitVec.getLsbD_xor, Bool.xor_assoc, Bool.xor_left_comm]

/-- The low m + n bits are the low m, and the n above them shifted down. -/
theorem xorBelow_add {w : Nat} (a : BitVec w) (m n : Nat) :
    xorBelow a (m + n) = (xorBelow a m ^^ xorBelow (a >>> m) n) := by
  induction n with
  | zero => exact (Bool.xor_false _).symm
  | succ n ih => rw [← Nat.add_assoc, xorBelow, ih, xorBelow, BitVec.getLsbD_ushiftRight, Bool.xor_assoc]

/-- One step of the fold: the XOR of the two halves has the parity of the whole. -/
theorem xorBelow_fold {w : Nat} (a : BitVec w) (n : Nat) : xorBelow (a ^^^ (a >>> n)) n = xorBelow a (n + n) := by
  rw [xorBelow_xor, xorBelow_add]

theorem parityFold_eq_parityOf (a : BitVec 32) : parityFold a = parityOf a := by
  simp only [parityFold]
  rw [← Bool.false_xor (BitVec.getLsbD _ 0)]
  change xorBelow _ 1 = xorBelow a 32
  rw [xorBelow_fold _ 1, xorBelow_fold _ 2, xorBelow_fold _ 4, xorBelow_fold _ 8, xorBelow_fold _ 16]

/-- The count loop takes one of its turns for each 1 of the word. -/
theorem clearAndCount_eq_ones {fuel : Nat} {a : BitVec 64} (h : ones a ≤ fuel) : clearAndCount fuel a = ones a := by
  induction fuel generalizing a with
  | zero => exact (Nat.le_zero.1 h).symm
  | succ fuel ih =>
    rw [clearAndCount]
    by_cases ha : a = 0#64
    · rw [if_pos ha, ha, ones_zero]
    · have hclear := ones_and_sub_one ha
      rw [if_neg ha, ih (by omega), hclear]

/-- Settles O58: the fold is five halvings, and 64 turns of the loop are enough. -/
theorem foldAndClearCompute : Obligations.FoldAndClearCompute :=
  ⟨fun a => (parityFold_eq_parityOf a).symm, fun a => (clearAndCount_eq_ones (ones_le a)).symm⟩

end Sys2Proof.Machine
end

section
/-! PROOFS. Power-of-two rounding (43_pow2_round.md R130 to R136): off the zero cases of R130 the machine rounds up to
2^⌈log2 x⌉ and down to 2^⌊log2 x⌋, and ⌊log2 x⌋ is HI_W(x) (R110). The commands, R135 and the laws of R136 follow from
the library's facts about the two logarithms. -/

/-! ### The reference's power of two above and below (R130) -/

namespace Sys2Proof.Reference

theorem isPow2Ceil_two_pow_clog (x : Nat) : IsPow2Ceil x (2 ^ Nat.clog 2 x) :=
  ⟨⟨_, rfl⟩, Nat.le_pow_clog one_lt_two x, fun _ hn => Nat.pow_le_pow_right two_pos (Nat.clog_le_of_le_pow hn)⟩

theorem isPow2Floor_two_pow_log {x : Nat} (hx : x ≠ 0) : IsPow2Floor x (2 ^ Nat.log 2 x) :=
  ⟨⟨_, rfl⟩, Nat.pow_log_le_self 2 hx, fun _ hn => Nat.pow_le_pow_right two_pos (Nat.le_log_of_pow_le one_lt_two hn)⟩

end Sys2Proof.Reference

namespace Sys2Proof.Machine

open Sys2Proof.Reference

/-! ### What the machine's two searches find -/

theorem lowestIndex_le_two_pow {w x : Nat} (h : Nat.clog 2 x < w) :
    lowestIndex (fun n => decide (x ≤ 2 ^ n)) w = some (Nat.clog 2 x) := by
  simp only [lowestIndex_eq_some_iff, decide_eq_true_eq, decide_eq_false_iff_not, ← Nat.clog_le_iff_le_pow one_lt_two,
    not_le]
  exact ⟨h, le_rfl, fun _ hj => hj⟩

theorem highestIndex_two_pow_le {w x : Nat} (hx : x ≠ 0) (h : Nat.log 2 x < w) :
    highestIndex (fun n => decide (2 ^ n ≤ x)) w = some (Nat.log 2 x) := by
  simp only [highestIndex_eq_some_iff, decide_eq_true_eq, decide_eq_false_iff_not,
    ← Nat.le_log_iff_pow_le one_lt_two hx, not_le]
  exact ⟨h, le_rfl, fun _ _ hj => hj⟩

/-- The exclusion x[W-1] = 1 of R130, as a bound on x. -/
theorem testBit_top_iff {w x : Nat} (hx : x < 2 ^ w) : x.testBit (w - 1) = true ↔ 2 ^ (w - 1) ≤ x := by
  refine ⟨Nat.ge_two_pow_of_testBit, fun hle => ?_⟩
  obtain ⟨j, hj, hbit⟩ := Nat.exists_ge_and_testBit_of_ge_two_pow hle
  have hjw : j < w := (Nat.pow_lt_pow_iff_right one_lt_two).1 ((Nat.ge_two_pow_of_testBit hbit).trans_lt hx)
  rwa [show w - 1 = j by omega]

/-- Below the top bit the power of two at or above x still fits in W bits. -/
theorem clog_lt_width {w x : Nat} (h0 : x ≠ 0) (h : x < 2 ^ (w - 1)) : Nat.clog 2 x < w := by
  have hle := Nat.clog_le_of_le_pow h.le
  have hw : w ≠ 0 := by
    rintro rfl
    exact h0 (Nat.lt_one_iff.1 h)
  omega

/-! ### RUP_W and RDN_W in closed form: the zero cases of R130, and otherwise a logarithm -/

theorem roundUpPow2_eq {w x : Nat} (tz : Bool) (hx : x < 2 ^ w) :
    roundUpPow2 w tz x =
      if x = 0 ∨ 2 ^ (w - 1) ≤ x ∨ (tz = true ∧ 2 ^ (w - 2) < x) then 0 else 2 ^ Nat.clog 2 x := by
  unfold roundUpPow2
  by_cases h0 : x = 0
  · simp [h0]
  by_cases htop : 2 ^ (w - 1) ≤ x
  · simp [htop, (testBit_top_iff hx).2 htop]
  · simp [h0, htop, testBit_top_iff hx, lowestIndex_le_two_pow (clog_lt_width h0 (not_le.1 htop))]

theorem roundDownPow2_eq {w x : Nat} (hx : x < 2 ^ w) :
    roundDownPow2 w x = if x = 0 ∨ 2 ^ (w - 1) ≤ x then 0 else 2 ^ Nat.log 2 x := by
  unfold roundDownPow2
  by_cases h0 : x = 0
  · simp [h0]
  by_cases htop : 2 ^ (w - 1) ≤ x
  · simp [htop, (testBit_top_iff hx).2 htop]
  · simp [h0, htop, testBit_top_iff hx, highestIndex_two_pow_le h0 (Nat.log_lt_of_lt_pow h0 hx)]

theorem isRoundUp_roundUpPow2 {w x : Nat} (tz : Bool) (hx : x < 2 ^ w) : IsRoundUp w tz x (roundUpPow2 w tz x) := by
  rw [roundUpPow2_eq tz hx, IsRoundUp]
  split
  · rfl
  · exact isPow2Ceil_two_pow_clog x

theorem isRoundDown_roundDownPow2 {w x : Nat} (hx : x < 2 ^ w) : IsRoundDown w x (roundDownPow2 w x) := by
  rw [roundDownPow2_eq hx, IsRoundDown]
  split
  case isTrue => rfl
  case isFalse h => exact isPow2Floor_two_pow_log (not_or.1 h).1

theorem roundUpPow2_lt {w x : Nat} (tz : Bool) (hx : x < 2 ^ w) : roundUpPow2 w tz x < 2 ^ w := by
  rw [roundUpPow2_eq tz hx]
  split
  case isTrue => exact Nat.two_pow_pos w
  case isFalse h =>
    obtain ⟨h0, hrest⟩ := not_or.1 h
    exact Nat.pow_lt_pow_right one_lt_two (clog_lt_width h0 (not_le.1 (not_or.1 hrest).1))

theorem roundDownPow2_lt {w x : Nat} (hx : x < 2 ^ w) : roundDownPow2 w x < 2 ^ w := by
  rw [roundDownPow2_eq hx]
  split
  case isTrue => exact Nat.two_pow_pos w
  case isFalse h => exact (Nat.pow_log_le_self 2 (not_or.1 h).1).trans_lt hx

/-! ### The four commands (R131 to R134) -/

section
variable (s : State)

theorem exec_rup32 : exec .rup32 s =
    .next (s.complete false (BitVec.ofNat 64 (roundUpPow2 32 s.cfg.rupTopbitZero (s.lat.opa.setWidth 32).toNat))) := rfl
theorem exec_rup64 : exec .rup64 s =
    .next (s.complete false (BitVec.ofNat 64 (roundUpPow2 64 s.cfg.rupTopbitZero s.lat.opa.toNat))) := rfl
theorem exec_rdn32 : exec .rdn32 s =
    .next (s.complete false (BitVec.ofNat 64 (roundDownPow2 32 (s.lat.opa.setWidth 32).toNat))) := rfl
theorem exec_rdn64 : exec .rdn64 s =
    .next (s.complete false (BitVec.ofNat 64 (roundDownPow2 64 s.lat.opa.toNat))) := rfl

end

/-- Settles O20: each command completes with RUP_W of its operand word, by its closed form. -/
theorem roundUpCommands : Obligations.RoundUpCommands := fun s =>
  ⟨decode_encode .rup32, decode_encode .rup64,
    ⟨_, isRoundUp_roundUpPow2 _ (BitVec.isLt _), roundUpPow2_lt _ (BitVec.isLt _), exec_rup32 s⟩,
    ⟨_, isRoundUp_roundUpPow2 _ (BitVec.isLt _), roundUpPow2_lt _ (BitVec.isLt _), exec_rup64 s⟩⟩

/-- Settles O21: each command completes with RDN_W of its operand word, by its closed form. -/
theorem roundDownCommands : Obligations.RoundDownCommands := fun s =>
  ⟨decode_encode .rdn32, decode_encode .rdn64,
    ⟨_, isRoundDown_roundDownPow2 (BitVec.isLt _), roundDownPow2_lt (BitVec.isLt _), exec_rdn32 s⟩,
    ⟨_, isRoundDown_roundDownPow2 (BitVec.isLt _), roundDownPow2_lt (BitVec.isLt _), exec_rdn64 s⟩⟩

/-! ### The two logarithms: HI_W, and how far apart they are -/

theorem HighestBitOf.eq_log {n i : Nat} (h : HighestBitOf n i) : i = Nat.log 2 n := by
  have hn : n ≠ 0 := by
    rintro rfl
    cases (Nat.zero_testBit i).symm.trans h.1
  exact eq_of_forall_le_iff fun k => (h.two_pow_le_iff k).symm.trans (Nat.le_log_iff_pow_le one_lt_two hn).symm

theorem eq_log_of_highestSetBit {w i : Nat} {a : BitVec w} (h : highestSetBit a = some i) : i = Nat.log 2 a.toNat :=
  ((highestSetBit_eq_some_iff_toNat a i).1 h).eq_log

theorem clog_eq_log_sub_one_add_one {x : Nat} (hx : 2 ≤ x) : Nat.clog 2 x = Nat.log 2 (x - 1) + 1 :=
  eq_of_forall_ge_iff fun k => by
    rw [Nat.clog_le_iff_le_pow one_lt_two, Nat.succ_le_iff, Nat.log_lt_iff_lt_pow one_lt_two (by omega)]
    omega

theorem two_pow_clog_eq_two_pow_log_iff {x : Nat} (hx : x ≠ 0) :
    2 ^ Nat.clog 2 x = 2 ^ Nat.log 2 x ↔ ∃ n, x = 2 ^ n := by
  constructor
  · intro h
    exact ⟨Nat.log 2 x, ((Nat.le_pow_clog one_lt_two x).trans_eq h).antisymm (Nat.pow_log_le_self 2 hx)⟩
  · rintro ⟨n, rfl⟩
    rw [Nat.clog_pow 2 n one_lt_two, Nat.log_pow one_lt_two]

theorem two_pow_clog_of_not_two_pow {x : Nat} (hx : x ≠ 0) (h : ¬ ∃ n, x = 2 ^ n) :
    2 ^ Nat.clog 2 x = 2 * 2 ^ Nat.log 2 x := by
  have hne : Nat.clog 2 x ≠ Nat.log 2 x := fun he => h ((two_pow_clog_eq_two_pow_log_iff hx).1 (congrArg _ he))
  have hle : Nat.clog 2 x ≤ Nat.log 2 x + 1 := Nat.clog_le_of_le_pow (Nat.lt_pow_succ_log_self one_lt_two x).le
  have hge := Nat.log_le_clog 2 x
  rw [show Nat.clog 2 x = Nat.log 2 x + 1 by omega, pow_succ']

/-! ### The laws of R135 and R136 -/

theorem lt_two_pow_of_lt_top {w x : Nat} (h : x < 2 ^ (w - 1)) : x < 2 ^ w :=
  h.trans_le (Nat.pow_le_pow_right two_pos (Nat.sub_le w 1))

theorem roundDownPow2_of_lt_top {w x : Nat} (h0 : x ≠ 0) (h : x < 2 ^ (w - 1)) :
    roundDownPow2 w x = 2 ^ Nat.log 2 x := by
  rw [roundDownPow2_eq (lt_two_pow_of_lt_top h), if_neg (by simp [h0, h])]

theorem roundUpPow2_of_lt_top {w x : Nat} {tz : Bool} (h0 : x ≠ 0) (h : x < 2 ^ (w - 1))
    (htz : tz = true → x ≤ 2 ^ (w - 2)) : roundUpPow2 w tz x = 2 ^ Nat.clog 2 x := by
  rw [roundUpPow2_eq tz (lt_two_pow_of_lt_top h), if_neg (by simpa [h0, h] using htz)]

theorem roundUpPow2_of_ne_zero {w x : Nat} {tz : Bool} (hx : x < 2 ^ w) (h : roundUpPow2 w tz x ≠ 0) :
    roundUpPow2 w tz x = 2 ^ Nat.clog 2 x := by
  rw [roundUpPow2_eq tz hx] at h ⊢
  exact if_neg fun hz => h (if_pos hz)

/-- A power of two below 2^(W-1) is at most 2^(W-2), so RUP_TOPBIT_ZERO does not touch it. -/
theorem roundUpPow2_two_pow {w k : Nat} (tz : Bool) (h : 2 ^ k < 2 ^ (w - 1)) : roundUpPow2 w tz (2 ^ k) = 2 ^ k := by
  have hk : k < w - 1 := (Nat.pow_lt_pow_iff_right one_lt_two).1 h
  have hle : 2 ^ k ≤ 2 ^ (w - 2) := Nat.pow_le_pow_right two_pos (by omega)
  rw [roundUpPow2_of_lt_top (Nat.two_pow_pos k).ne' h fun _ => hle, Nat.clog_pow 2 k one_lt_two]

theorem roundUpPow2_top {w : Nat} (tz : Bool) (hw : 0 < w) : roundUpPow2 w tz (2 ^ (w - 1)) = 0 := by
  rw [roundUpPow2_eq tz (Nat.pow_lt_pow_right one_lt_two (by omega)), if_pos (.inr (.inl le_rfl))]

theorem roundDownPow2_two_pow {w k : Nat} (h : 2 ^ k < 2 ^ (w - 1)) : roundDownPow2 w (2 ^ k) = 2 ^ k := by
  rw [roundDownPow2_of_lt_top (Nat.two_pow_pos k).ne' h, Nat.log_pow one_lt_two]

theorem toNat_ne_zero {w : Nat} {x : BitVec w} (hx : x ≠ 0#w) : x.toNat ≠ 0 := by
  simpa using BitVec.toNat_ne_iff_ne.2 hx

/-- R135 for x >= 2: HI_W(x - 1) is one below ⌈log2 x⌉. -/
theorem clog_eq_of_highestSetBit_sub_one {w h : Nat} {x : BitVec w} (hw : 0 < w) (hx : x ≠ 0#w)
    (hh : highestSetBit (x - 1#w) = some h) : Nat.clog 2 x.toNat = h + 1 := by
  have hone : (1#w).toNat = 1 := BitVec.toNat_one hw
  have hpos := toNat_ne_zero hx
  have hsub : (x - 1#w).toNat = x.toNat - 1 := by
    rw [BitVec.toNat_sub_of_le (by rw [BitVec.le_def, hone]; omega), hone]
  have hne : (x - 1#w).toNat ≠ 0 := toNat_ne_zero fun hz => by
    rw [(highestSetBit_eq_none_iff _).2 hz] at hh
    cases hh
  rw [clog_eq_log_sub_one_add_one (by omega), eq_log_of_highestSetBit hh, hsub]

/-- Settles O55: RDN is 2^⌊log2 x⌋, and RUP, where it is not 0, is 2^⌈log2 x⌉. -/
theorem roundingLaws : Obligations.RoundingLaws := by
  rintro w x tz up down hw hx htop rfl rfl
  have hpos : 0 < w := Nat.pos_of_ne_zero fun hzero => by simp [hzero] at hw
  have h0 : x.toNat ≠ 0 := toNat_ne_zero hx
  have hlt : x.toNat < 2 ^ (w - 1) := by
    rw [← not_le, ← testBit_top_iff x.isLt, BitVec.testBit_toNat, htop]
    exact Bool.false_ne_true
  have hfloor : 2 ^ Nat.log 2 x.toNat ≤ x.toNat := Nat.pow_log_le_self 2 h0
  rw [roundDownPow2_of_lt_top h0 hlt]
  refine ⟨?_, ?_, ?_, fun hup => ?_⟩
  · obtain ⟨h, hh⟩ := exists_highestSetBit hx
    exact ⟨h, hh, by rw [eq_log_of_highestSetBit hh]⟩
  · rintro rfl rfl
    rw [roundUpPow2_of_lt_top h0 hlt (absurd · Bool.false_ne_true), BitVec.toNat_one hpos, Nat.clog_one_right, pow_zero]
  · rintro h hh rfl
    rw [roundUpPow2_of_lt_top h0 hlt (absurd · Bool.false_ne_true), clog_eq_of_highestSetBit_sub_one hpos hx hh]
  · rw [roundUpPow2_of_ne_zero x.isLt hup]
    refine ⟨hfloor, Nat.le_pow_clog one_lt_two _, two_pow_clog_eq_two_pow_log_iff h0, two_pow_clog_of_not_two_pow h0,
      roundDownPow2_two_pow (hfloor.trans_lt hlt), roundUpPow2_two_pow tz, fun he => ?_⟩
    rw [he, roundUpPow2_top tz hpos]

end Sys2Proof.Machine
end

section
/-! PROOFS. Prefix equality (44_prefix_equal.md R140 to R149): the word commands compare the first min(k, W) bits; one engine
step of a buffer comparison reads A[j], or reads B[j] and compares the part of the two bytes that lies below k; the loop keeps
that the bytes compared so far agree, and the whole run is PFXB. -/

/-! ### Word prefixes (R140, R148, R149) -/

namespace Sys2Proof.Machine

open Sys2Proof.Reference

section
variable {w : Nat} (a b : BitVec w)

theorem wordPrefixEq_zero (order : BitOrder) : wordPrefixEq order a b 0 = true := rfl

theorem wordPrefixEq_of_lt (order : BitOrder) {k : Nat} (h0 : 0 < k) (hk : k < w) :
    wordPrefixEq order a b k = shiftedEq order a b k := by
  rw [wordPrefixEq, if_neg h0.ne', if_pos hk]

theorem wordPrefixEq_of_width_le (order : BitOrder) {k : Nat} (h0 : 0 < k) (hk : w ≤ k) :
    wordPrefixEq order a b k = (a == b) := by
  rw [wordPrefixEq, if_neg h0.ne', if_neg (Nat.not_lt.mpr hk)]

/-- In every case PEQW compares the first min(k, W) bits. -/
theorem wordPrefixEq_eq_shiftedEq_min (order : BitOrder) (k : Nat) :
    wordPrefixEq order a b k = shiftedEq order a b (min k w) := by
  rcases Nat.eq_zero_or_pos k with rfl | h0
  · cases order <;> simp [wordPrefixEq_zero, shiftedEq, BitVec.ushiftRight_eq_zero]
  · rcases Nat.lt_or_ge k w with hk | hk
    · rw [wordPrefixEq_of_lt a b order h0 hk, Nat.min_eq_left hk.le]
    · rw [wordPrefixEq_of_width_le a b order h0 hk, Nat.min_eq_right hk]
      cases order <;> simp [shiftedEq]

/-- PEQW(W, MSB) is PFX_MSB_W. -/
theorem wordPrefixEq_msb_iff (k : Nat) : wordPrefixEq .msb a b k = true ↔ PrefixMsb a b k := by
  rw [wordPrefixEq_eq_shiftedEq_min, shiftedEq_msb_iff, PrefixMsb]

/-- PEQW(W, LSB) is PFX_LSB_W. -/
theorem wordPrefixEq_lsb_iff (k : Nat) : wordPrefixEq .lsb a b k = true ↔ PrefixLsb a b k := by
  rw [wordPrefixEq_eq_shiftedEq_min, shiftedEq_lsb_iff a b (Nat.min_le_right k w), PrefixLsb]

theorem wordPrefixEq_comm (order : BitOrder) (k : Nat) : wordPrefixEq order a b k = wordPrefixEq order b a k := by
  rw [wordPrefixEq_eq_shiftedEq_min, wordPrefixEq_eq_shiftedEq_min]
  cases order <;> exact Bool.beq_comm

end

theorem wordPrefixEq_mono {w : Nat} {a b : BitVec w} {order : BitOrder} {k k' : Nat} (hk : k' ≤ k)
    (h : wordPrefixEq order a b k = true) : wordPrefixEq order a b k' = true := by
  cases order with
  | msb =>
    rw [wordPrefixEq_msb_iff] at h ⊢
    exact fun i hi hlow => h i hi (by omega)
  | lsb =>
    rw [wordPrefixEq_lsb_iff] at h ⊢
    exact fun i hi => h i (by omega)

/-- Settles O56: PEQW's own cases, and the prefixes it compares. -/
theorem wordPrefixLaws : Obligations.WordPrefixLaws := fun _ order a b k =>
  ⟨wordPrefixEq_zero a b order, wordPrefixEq_of_width_le a b order, wordPrefixEq_comm a b order k,
    fun _ hk => wordPrefixEq_mono hk.le⟩

/-! ### The four word commands (R144 to R147) -/

section
variable (s : State)

theorem exec_peq32Msb : exec .peq32Msb s =
    .next (s.complete false (b2v (wordPrefixEq .msb (s.lat.opa.setWidth 32) (s.lat.opb.setWidth 32) s.lat.k.toNat))) := rfl
theorem exec_peq32Lsb : exec .peq32Lsb s =
    .next (s.complete false (b2v (wordPrefixEq .lsb (s.lat.opa.setWidth 32) (s.lat.opb.setWidth 32) s.lat.k.toNat))) := rfl
theorem exec_peq64Msb : exec .peq64Msb s =
    .next (s.complete false (b2v (wordPrefixEq .msb s.lat.opa s.lat.opb s.lat.k.toNat))) := rfl
theorem exec_peq64Lsb : exec .peq64Lsb s =
    .next (s.complete false (b2v (wordPrefixEq .lsb s.lat.opa s.lat.opb s.lat.k.toNat))) := rfl

end

/-- Settles O22: each command completes with PEQW(W, MSB) of its operand words. -/
theorem wordPrefixMsbCommands : Obligations.WordPrefixMsbCommands := fun s =>
  ⟨decode_encode .peq32Msb, decode_encode .peq64Msb, ⟨_, wordPrefixEq_msb_iff _ _ _, exec_peq32Msb s⟩,
    ⟨_, wordPrefixEq_msb_iff _ _ _, exec_peq64Msb s⟩⟩

/-- Settles O23: each command completes with PEQW(W, LSB) of its operand words. -/
theorem wordPrefixLsbCommands : Obligations.WordPrefixLsbCommands := fun s =>
  ⟨decode_encode .peq32Lsb, decode_encode .peq64Lsb, ⟨_, wordPrefixEq_lsb_iff _ _ _, exec_peq32Lsb s⟩,
    ⟨_, wordPrefixEq_lsb_iff _ _ _, exec_peq64Lsb s⟩⟩

end Sys2Proof.Machine

/-! ### Buffer prefixes, byte by byte (R140) -/

namespace Sys2Proof.Reference

open Sys2Proof.Machine

theorem streamBit_of_byte {b : Nat → Byte} {j n : Nat} (hn : n / 8 = j) (order : BitOrder) :
    streamBit order (fun _ => b j) n = streamBit order b n := by
  subst hn
  cases order <;> rfl

/-- Two buffers agree in the stream bits of byte j that lie below k. -/
def ByteAgrees (order : BitOrder) (a b : Nat → Byte) (k j : Nat) : Prop :=
  ∀ n, n / 8 = j → n < k → streamBit order a n = streamBit order b n

section
variable {order : BitOrder} {a b : Nat → Byte} {j k m : Nat}

theorem BufferPrefix.byteAgrees (h : BufferPrefix order a b m) (hm : min k (8 * (j + 1)) ≤ m) :
    ByteAgrees order a b k j := fun n _ _ => h n (by omega)

theorem BufferPrefix.append (h : BufferPrefix order a b (8 * j)) (hj : ByteAgrees order a b k j) :
    BufferPrefix order a b (min k (8 * (j + 1))) := by
  intro n hn
  rcases Nat.lt_or_ge n (8 * j) with hlt | hge
  · exact h n hlt
  · exact hj n (by omega) (by omega)

end

end Sys2Proof.Reference

/-! ### One engine step (R143) -/

namespace Sys2Proof.Machine

open Sys2Proof.Reference

/-- PEQB_MSB is PEQB(MSB) and PEQB_LSB is PEQB(LSB) (R141, R142). -/
theorem exec_pair {i : Instr} {order : BitOrder}
    (h : (i, order) ∈ [(Instr.peqbMsb, BitOrder.msb), (Instr.peqbLsb, BitOrder.lsb)]) (s : State) :
    exec i s = pairStep order s := by
  simp only [List.mem_cons, Prod.mk.injEq, List.not_mem_nil, or_false] at h
  rcases h with ⟨rfl, rfl⟩ | ⟨rfl, rfl⟩ <;> rfl

theorem exists_order_of_pair {i : Instr} (h : i ∈ [Instr.peqbMsb, Instr.peqbLsb]) :
    ∃ order, (i, order) ∈ [(Instr.peqbMsb, BitOrder.msb), (Instr.peqbLsb, BitOrder.lsb)] := by
  simp only [List.mem_cons, List.not_mem_nil, or_false] at h
  rcases h with rfl | rfl
  · exact ⟨.msb, by simp⟩
  · exact ⟨.lsb, by simp⟩

section
variable {s : State} {j p : Nat} (hu : s.unanswered = none) (ha : s.answer = .data p) (order : BitOrder)
include hu ha

/-- The engine step of PEQB whose read of A[j] is answered with data. -/
theorem pairStep_dataA (h : s.AtPairA j) : pairStep order s =
    .next ((s.logRead (s.addrA j) (some (s.byteSeen (s.addrA j) p))).goto (.pairB j (s.byteSeen (s.addrA j) p))) := by
  rw [pairStep_atA h, State.memRead_data hu ha]
  rfl

/-- The engine step of PEQB whose read of B[j] is answered with data. -/
theorem pairStep_dataB {u : Byte} (h : s.phase = .busy (.pairB j u)) : pairStep order s =
    .next (pairAfterB order j u (s.byteSeen (s.addrB j) p)
      (s.logRead (s.addrB j) (some (s.byteSeen (s.addrB j) p)))) := by
  rw [pairStep_atB h, State.memRead_data hu ha]

end

/-- What PEQB does after the read of B[j], by whether the two bytes agree below k. -/
theorem pairAfterB_outcome {s w : State} {j : Nat} (hj : j < s.prefixBytes) (hw : w.lat = s.lat) (order : BitOrder)
    (a b : Nat → Byte) :
    (ByteAgrees order a b s.prefixLen j ∧ pairAfterB order j (a j) (b j) w =
      if j + 1 < s.prefixBytes then w.goto (.pairA (j + 1)) else w.complete false 1#64) ∨
    (¬ByteAgrees order a b s.prefixLen j ∧ pairAfterB order j (a j) (b j) w = w.complete false 0#64) := by
  have hagree : s.pairEq order j (a j) (b j) = true ↔ ByteAgrees order a b s.prefixLen j := by
    rw [State.pairEq_iff hj]
    refine forall₂_congr fun n hn => ?_
    rw [streamBit_of_byte hn, streamBit_of_byte hn]
  have hcases := pairAfterB_cases order j (a j) (b j) w
  rw [pairEq_of_lat hw, prefixBytes_of_lat hw] at hcases
  rcases hcases with ⟨heq, hnext, he⟩ | ⟨heq, hlast, he⟩ | ⟨hne, he⟩
  · exact .inl ⟨hagree.1 heq, by rw [he, if_pos hnext]⟩
  · exact .inl ⟨hagree.1 heq, by rw [he, if_neg hlast]⟩
  · exact .inr ⟨fun h => Bool.false_ne_true (hne.symm.trans (hagree.2 h)), he⟩

/-- Settles O26: the test of k comes before any read, and the A byte is held until B[j] is read. -/
theorem bufferPrefixReadsA : Obligations.BufferPrefixReadsA := by
  intro i hi s
  obtain ⟨order, horder⟩ := exists_order_of_pair hi
  rw [exec_pair horder]
  refine ⟨fun hp hk => pairStep_zero hp hk order, fun p j hu ha hat addr u haddr hbyte => ?_⟩
  have hatA : s.AtPairA j := hat.imp_left fun ⟨hp, hk, hj⟩ => ⟨hp, hk.ne', hj⟩
  subst haddr hbyte
  exact pairStep_dataA hu ha order hatA

/-- Settles O27: the step is the read and what follows it, and the bytes agree below k or they do not. -/
theorem bufferPrefixComparesPair : Obligations.BufferPrefixComparesPair := by
  intro i order hi s p j u hu ha hp hk addr v t haddr hv ht
  have hj : j < s.prefixBytes := (s.lt_prefixBytes_iff j).2 hk
  have hstep : exec i s = .next (pairAfterB order j u v t) := by
    subst haddr hv ht
    exact (exec_pair hi s).trans (pairStep_dataB hu ha order hp)
  have hnext : 8 * (j + 1) < s.lat.k.toNat ↔ j + 1 < s.prefixBytes := (s.lt_prefixBytes_iff (j + 1)).symm
  simp only [hnext, hstep]
  rcases pairAfterB_outcome hj (w := t) (by rw [ht]) order (fun _ => u) (fun _ => v) with ⟨hagree, he⟩ | ⟨hdiffer, he⟩
  · exact ⟨fun _ => congrArg _ he, fun n hn hlt hne => absurd (hagree n hn hlt) hne⟩
  · exact ⟨fun hagree => absurd hagree hdiffer, fun _ _ _ _ => congrArg _ he⟩

/-! ### The loop (R143) -/

/-- The byte at address a is v, and no store has raced or will race a read of it while the inputs l are due. -/
def State.Keeps (s : State) (l : List Input) (a : Nat) (v : Byte) : Prop := s.Unraced l a ∧ Memory.read s.mem a = v

section
variable {s : State} {a : Nat} {v : Byte}

theorem State.Keeps.byteSeen {l : List Input} (h : s.Keeps l a v) (p : Nat) : s.byteSeen a p = v := by
  obtain ⟨hrace, hbyte⟩ := h
  exact (hrace.byteSeen p).trans hbyte

theorem State.Keeps.host {u : State} {x : Input} {l : List Input} (h : s.Keeps (x :: l) a v) (hm : HostMove s u x l) :
    u.Keeps l a v := by
  obtain ⟨hrace, hbyte⟩ := h
  obtain ⟨hrace', hsame⟩ := hm.byte a hrace
  exact ⟨hrace', hsame.trans hbyte⟩

theorem State.Keeps.engine {u : State} {x : Input} {l : List Input} (h : s.Keeps (x :: l) a v) (hm : u.mem = s.mem)
    (hh : u.held = s.held) (hp : u.unpublished = s.unpublished) : u.Keeps l a v := by
  obtain ⟨hrace, hbyte⟩ := h
  exact ⟨hrace.tail hh hp, by rw [hm, hbyte]⟩

end

/-- The read of A[j] as the memory stands in s. -/
def State.readA (s : State) (j : Nat) : PortRead := { addr := s.addrA j, answer := some (bytesA s j) }

/-- The read of B[j] as the memory stands in s. -/
def State.readB (s : State) (j : Nat) : PortRead := { addr := s.addrB j, answer := some (bytesB s j) }

/-- The reads of the first m byte pairs, A before B, newest first. -/
def State.pairReads (s : State) (m : Nat) : List PortRead :=
  ((List.range m).flatMap fun j => [s.readA j, s.readB j]).reverse

theorem State.pairReads_succ (s : State) (m : Nat) : s.pairReads (m + 1) = s.readB m :: s.readA m :: s.pairReads m := by
  simp [State.pairReads, List.range_succ]

/-- s after an engine's turn that took its input off the list and performed the read r, answered with data. -/
def State.afterRead (s : State) (rest : List Input) (p : Nat) (r : PortRead) : State :=
  { s with inputs := rest, answer := .data p, reads := r :: s.reads }

/-- What a buffer comparison accepted in s₀ leaves in t when it completes: PFXB (R140), and the reads it performed (R143). -/
inductive PairEnds (order : BitOrder) (s₀ t : State) : Prop
  | equal (agree : BufferPrefix order (bytesA s₀) (bytesB s₀) s₀.prefixLen) (found : t.x.status.found = false)
      (result : t.x.result = 1#64) (reads : t.reads = s₀.pairReads s₀.prefixBytes ++ s₀.reads)
  | differ (j : Nat) (index : j < s₀.prefixBytes) (before : BufferPrefix order (bytesA s₀) (bytesB s₀) (8 * j))
      (differ : ¬ByteAgrees order (bytesA s₀) (bytesB s₀) s₀.prefixLen j) (found : t.x.status.found = false)
      (result : t.x.result = 0#64) (reads : t.reads = s₀.pairReads (j + 1) ++ s₀.reads)

/-- Where a comparison accepted in s₀ stands in s at byte index j, and the reads it has performed, by how many bytes of
index j it has read. -/
inductive PairPoint (s₀ s : State) (j : Nat) : Nat → Prop
  | beforeA (atA : s.AtPairA j) (reads : s.reads = s₀.pairReads j ++ s₀.reads) : PairPoint s₀ s j 0
  | beforeB (atB : s.phase = .busy (.pairB j (bytesA s₀ j)))
      (reads : s.reads = s₀.readA j :: s₀.pairReads j ++ s₀.reads) : PairPoint s₀ s j 1

/-- The loop invariant of a comparison accepted in s₀ that stands in s at byte index j, n bytes of which it has read, with
the inputs l due: the bytes before j agree, and both prefixes still hold the bytes they held at acceptance. -/
structure PairLoop (order : BitOrder) (s₀ s : State) (l : List Input) (j n : Nat) : Prop where
  point : PairPoint s₀ s j n
  lat : s.lat = s₀.lat
  cfg : s.cfg = s₀.cfg
  busy : s.x.status.busy = true
  answering : s.unanswered = none
  index : j < s₀.prefixBytes
  agree : BufferPrefix order (bytesA s₀) (bytesB s₀) (8 * j)
  keepsA : ∀ i, i < s₀.prefixBytes → s.Keeps l (s₀.addrA i) (bytesA s₀ i)
  keepsB : ∀ i, i < s₀.prefixBytes → s.Keeps l (s₀.addrB i) (bytesB s₀ i)

/-- Acceptance of a comparison with k > 0 stands at the loop's first read. -/
theorem PairLoop.of_starts {i : Instr} {order : BitOrder} {s : State} {l : List Input} {n : Nat} (h : s.Starts i l n)
    (hk : s.prefixLen ≠ 0) (hr : ∀ j, j < s.prefixBytes → s.Unraced l (s.addrA j) ∧ s.Unraced l (s.addrB j)) :
    PairLoop order s s l 0 0 where
  point := .beforeA (.inl ⟨h.phase, hk, rfl⟩) rfl
  lat := rfl
  cfg := rfl
  busy := h.busy
  answering := h.answering
  index := (s.lt_prefixBytes_iff 0).2 (Nat.pos_of_ne_zero hk)
  agree n hn := absurd hn (Nat.not_lt_zero n)
  keepsA j hj := ⟨(hr j hj).1, rfl⟩
  keepsB j hj := ⟨(hr j hj).2, rfl⟩

section
variable {s₀ s : State} {j n : Nat}

theorem PairPoint.exists_phase (h : PairPoint s₀ s j n) : ∃ q, s.phase = .busy q := by
  cases h with
  | beforeA hat _ => exact hat.elim (fun hstart => ⟨_, hstart.1⟩) fun hp => ⟨_, hp⟩
  | beforeB hp _ => exact ⟨_, hp⟩

theorem PairPoint.le_one (h : PairPoint s₀ s j n) : n ≤ 1 := by cases h <;> decide

theorem PairPoint.congr {u : State} (h : PairPoint s₀ s j n) (hp : u.phase = s.phase) (hl : u.lat = s.lat)
    (hr : u.reads = s.reads) : PairPoint s₀ u j n := by
  cases h with
  | beforeA hat hreads =>
    refine .beforeA ?_ (hr.trans hreads)
    rwa [State.AtPairA, State.prefixLen, hp, hl]
  | beforeB hat hreads => exact .beforeB (hp.trans hat) (hr.trans hreads)

variable {order : BitOrder}

theorem PairLoop.isBusy {l : List Input} (h : PairLoop order s₀ s l j n) : s.phase.isBusy = true := by
  obtain ⟨q, hq⟩ := h.point.exists_phase
  rw [hq]
  rfl

/-- The hosts and the memory's writers keep the loop invariant (R28). -/
theorem PairLoop.host {u : State} {x : Input} {l : List Input} (h : PairLoop order s₀ s (x :: l) j n)
    (hm : HostMove s u x l) : PairLoop order s₀ u l j n where
  point := h.point.congr hm.phase hm.lat hm.reads
  lat := hm.lat.trans h.lat
  cfg := hm.cfg.trans h.cfg
  busy := hm.busy
  answering := hm.unanswered.trans h.answering
  index := h.index
  agree := h.agree
  keepsA i hi := (h.keepsA i hi).host hm
  keepsB i hi := (h.keepsB i hi).host hm

/-- The loop invariant after an engine step that performed a read and moved on to another point of the loop. -/
theorem PairLoop.goto {x : Input} {l rest : List Input} {p j' n' : Nat} {r : PortRead} {q : Progress}
    (h : PairLoop order s₀ s (x :: l) j n) (hpoint : PairPoint s₀ ((s.afterRead rest p r).goto q) j' n')
    (hindex : j' < s₀.prefixBytes) (hagree : BufferPrefix order (bytesA s₀) (bytesB s₀) (8 * j')) :
    PairLoop order s₀ ((s.afterRead rest p r).goto q) l j' n' where
  point := hpoint
  lat := h.lat
  cfg := h.cfg
  busy := h.busy
  answering := h.answering
  index := hindex
  agree := hagree
  keepsA i hi := (h.keepsA i hi).engine rfl rfl rfl
  keepsB i hi := (h.keepsB i hi).engine rfl rfl rfl

/-- After the read of B[j], the reads performed are those of the byte pairs up to j. -/
theorem PairLoop.reads_after {l : List Input} (h : PairLoop order s₀ s l j 1) :
    s₀.readB j :: s.reads = s₀.pairReads (j + 1) ++ s₀.reads := by
  obtain _ | ⟨_, hreads⟩ := h.point
  rw [hreads, State.pairReads_succ]
  rfl

section
variable {i : Instr} {p : Nat} {l rest : List Input}
  (hi : (i, order) ∈ [(Instr.peqbMsb, BitOrder.msb), (Instr.peqbLsb, BitOrder.lsb)]) (hd : s₀.runsCommand i)
  (hin : s.inputs = .engine (.data p) :: rest)
include hi hd hin

/-- The engine's turn in the loop is a step of PEQB. -/
theorem PairLoop.step_eq (h : PairLoop order s₀ s l j n) :
    step s = pairStep order (State.withAnswer { s with inputs := rest } (.data p)) := by
  obtain ⟨q, hq⟩ := h.point.exists_phase
  have hcommand : decode s.lat.cmd = .command i := by rw [h.lat]; exact hd
  rw [step_engine hq hcommand hin, exec_pair hi]

/-- The engine's turn before A[j] reads the byte it held at acceptance, and goes on to B[j]. -/
theorem PairLoop.engineA (h : PairLoop order s₀ s (.engine (.data p) :: l) j 0) :
    ∃ u, step s = .next u ∧ PairLoop order s₀ u l j 1 ∧ u.inputs = rest := by
  obtain ⟨hat, hreads⟩ | _ := h.point
  have haddr : s.addrA j = s₀.addrA j := by rw [State.addrA, State.addrA, h.cfg, h.lat]
  have hseen : s.byteSeen (s₀.addrA j) p = bytesA s₀ j := (h.keepsA j h.index).byteSeen p
  have hdata := pairStep_dataA (s := State.withAnswer { s with inputs := rest } (.data p)) h.answering rfl order hat
  have hstep : step s = .next ((s.afterRead rest p (s₀.readA j)).goto (.pairB j (bytesA s₀ j))) := by
    rw [h.step_eq hi hd hin, hdata, State.readA, ← hseen, ← haddr]
    rfl
  exact ⟨_, hstep, h.goto (.beforeB rfl (congrArg (s₀.readA j :: ·) hreads)) h.index h.agree, rfl⟩

/-- The engine's turn before B[j] is the read of the byte it held at acceptance, and what follows it. -/
theorem PairLoop.step_eqB (h : PairLoop order s₀ s (.engine (.data p) :: l) j 1) :
    step s = .next (pairAfterB order j (bytesA s₀ j) (bytesB s₀ j) (s.afterRead rest p (s₀.readB j))) := by
  obtain _ | ⟨hat, _⟩ := h.point
  have haddr : s.addrB j = s₀.addrB j := by rw [State.addrB, State.addrB, h.cfg, h.lat]
  have hseen : s.byteSeen (s₀.addrB j) p = bytesB s₀ j := (h.keepsB j h.index).byteSeen p
  have hdata := pairStep_dataB (s := State.withAnswer { s with inputs := rest } (.data p)) h.answering rfl order hat
  rw [h.step_eq hi hd hin, hdata, State.readB, ← hseen, ← haddr]
  rfl

/-- The engine's turn before B[j] ends the comparison, or goes on to A[j + 1]. -/
theorem PairLoop.engineB (h : PairLoop order s₀ s (.engine (.data p) :: l) j 1) :
    ∃ u, step s = .next u ∧
      ((s.CompletesWithin (.engine (.data p) :: l) u ∧ PairEnds order s₀ u) ∨
       (PairLoop order s₀ u l (j + 1) 0 ∧ u.inputs = rest)) := by
  have hstep := h.step_eqB hi hd hin
  have hreads : (s.afterRead rest p (s₀.readB j)).reads = s₀.pairReads (j + 1) ++ s₀.reads := h.reads_after
  refine ⟨_, hstep, ?_⟩
  rcases pairAfterB_outcome h.index (w := s.afterRead rest p (s₀.readB j)) h.lat order (bytesA s₀) (bytesB s₀) with
    ⟨hagree, he⟩ | ⟨hdiffer, he⟩
  · have hprefix := h.agree.append hagree
    split at he
    · next hnext =>
      have hfull : 8 * (j + 1) ≤ s₀.prefixLen := ((s₀.lt_prefixBytes_iff (j + 1)).1 hnext).le
      rw [Nat.min_eq_right hfull] at hprefix
      rw [he]
      exact .inr ⟨h.goto (.beforeA (.inr rfl) hreads) hnext hprefix, rfl⟩
    · next hlast =>
      have hend : s₀.prefixLen ≤ 8 * (j + 1) := Nat.not_lt.mp (mt (s₀.lt_prefixBytes_iff (j + 1)).2 hlast)
      have hbytes : j + 1 = s₀.prefixBytes := le_antisymm h.index (Nat.not_lt.mp hlast)
      rw [Nat.min_eq_left hend] at hprefix
      rw [he] at hstep ⊢
      exact .inl ⟨.of_step _ l hstep h.isBusy rfl rfl,
        .equal hprefix (Status.completed_found ..) rfl (hbytes ▸ hreads)⟩
  · rw [he] at hstep ⊢
    exact .inl ⟨.of_step _ l hstep h.isBusy rfl rfl,
      .differ j h.index h.agree hdiffer (Status.completed_found ..) rfl hreads⟩

/-- The engine's turn in the loop ends the comparison, or keeps the loop invariant after one more read. -/
theorem PairLoop.engine (h : PairLoop order s₀ s (.engine (.data p) :: l) j n) :
    ∃ u, step s = .next u ∧
      ((s.CompletesWithin (.engine (.data p) :: l) u ∧ PairEnds order s₀ u) ∨
       (∃ j' n', PairLoop order s₀ u l j' n' ∧ 2 * j' + n' = 2 * j + n + 1 ∧ u.inputs = rest)) := by
  cases h.point with
  | beforeA _ _ =>
    obtain ⟨u, hs, hloop, huin⟩ := h.engineA hi hd hin
    exact ⟨u, hs, .inr ⟨j, 1, hloop, rfl, huin⟩⟩
  | beforeB _ _ =>
    obtain ⟨u, hs, hend | ⟨hloop, huin⟩⟩ := h.engineB hi hd hin
    · exact ⟨u, hs, .inl hend⟩
    · exact ⟨u, hs, .inr ⟨j + 1, 0, hloop, rfl, huin⟩⟩

end

end

theorem exists_data_of_answered {a : MemAnswer} (h : isAnsweredInput (.engine a) = true) : ∃ p, a = .data p := by
  cases a with
  | data p => exact ⟨p, rfl⟩
  | error => cases h
  | never => cases h

/-- From the loop on, a comparison completes within inputs that hold a turn for each read still to come: by induction on
the inputs, each of which keeps the loop invariant or ends the comparison. -/
theorem PairLoop.completes {i : Instr} {order : BitOrder} {s₀ : State}
    (hi : (i, order) ∈ [(Instr.peqbMsb, BitOrder.msb), (Instr.peqbLsb, BitOrder.lsb)]) (hd : s₀.runsCommand i)
    (rest l : List Input) :
    ∀ {s : State} {j n : Nat}, PairLoop order s₀ s l j n → s.inputs = l ++ rest → (∀ x ∈ l, isAnsweredInput x = true) →
      2 * s₀.prefixBytes ≤ countEngineTurns l + (2 * j + n) → ∃ t, s.CompletesWithin l t ∧ PairEnds order s₀ t := by
  induction l with
  | nil =>
    intro s j n h _ _ ht
    have hindex := h.index
    have hle := h.point.le_one
    rw [countEngineTurns] at ht
    omega
  | cons x l ih =>
    intro s j n h hin ha ht
    have hx := ha x List.mem_cons_self
    have hal : ∀ y ∈ l, isAnsweredInput y = true := fun y hy => ha y (List.mem_cons_of_mem x hy)
    by_cases he : ∃ a, x = .engine a
    · obtain ⟨a, rfl⟩ := he
      obtain ⟨p, rfl⟩ := exists_data_of_answered hx
      obtain ⟨u, hs, ⟨hcomplete, hend⟩ | ⟨j', n', hloop, hread, huin⟩⟩ := h.engine hi hd hin
      · exact ⟨u, hcomplete, hend⟩
      · rw [countEngineTurns] at ht
        obtain ⟨t, hcomplete, hend⟩ := ih hloop huin hal (by omega)
        exact ⟨t, .cons _ hs h.isBusy (hloop.lat.trans h.lat.symm) hcomplete, hend⟩
    · have hne : ∀ a, x ≠ .engine a := fun a hxa => he ⟨a, hxa⟩
      obtain ⟨u, hs, hm, huin⟩ := step_host_move h.busy hin hx hne
      obtain ⟨t, hcomplete, hend⟩ := ih (h.host hm) huin hal (countEngineTurns_of_host hne l ▸ ht)
      exact ⟨t, .cons _ hs h.isBusy hm.lat hcomplete, hend⟩

/-! ### The whole run -/

section
variable {i : Instr} {order : BitOrder} (hi : (i, order) ∈ [(Instr.peqbMsb, BitOrder.msb), (Instr.peqbLsb, BitOrder.lsb)])
  {s : State} {l : List Input}
include hi

/-- A comparison of no bits completes in its first turn. -/
theorem pair_zero_completes (h : s.Starts i l 1) (hk : s.prefixLen = 0) :
    ∃ t, s.CompletesWithin l t ∧ PairEnds order s t := by
  have hexec : ∀ u : State, u.phase = .busy .start → u.lat = s.lat → exec i u = .next (u.complete false 1#64) := by
    intro u hp hl
    rw [exec_pair hi, pairStep_zero hp (by rw [State.prefixLen, hl]; exact hk)]
    rfl
  obtain ⟨t, hcomplete, hfound, hresult, hreads⟩ := completes_in_one_turn i false 1#64 s.lat hexec l s h rfl
  have hbytes : s.prefixBytes = 0 := by rw [State.prefixBytes_eq, hk]
  exact ⟨t, hcomplete, .equal (fun n hn => by omega) hfound hresult (by rw [hbytes]; exact hreads)⟩

/-- PEQB_MSB and PEQB_LSB, from acceptance on, complete with PFXB (R140). -/
theorem pair_completes (h : s.Starts i l (max 1 (2 * s.prefixBytes)))
    (hr : ∀ j, j < s.prefixBytes → s.Unraced l (s.addrA j) ∧ s.Unraced l (s.addrB j)) :
    ∃ t, s.CompletesWithin l t ∧ PairEnds order s t := by
  have hturns := h.turns
  by_cases hk : s.prefixLen = 0
  · exact pair_zero_completes hi { h with turns := by omega } hk
  · obtain ⟨rest, hin⟩ := h.due
    exact (PairLoop.of_starts h hk hr).completes hi h.command rest l hin h.answered (by omega)

end

/-- Settles O31, from the loop invariant of PEQB. -/
theorem bufferPrefixComparesStreams : Obligations.BufferPrefixComparesStreams := by
  intro i order hi s l k eaA eaB readsOf hk heaA heaB hreadsOf h hr
  subst hk heaA heaB hreadsOf
  have hbytes : (s.lat.k.toNat + 7) / 8 = s.prefixBytes := s.prefixBytes_eq.symm
  rw [hbytes] at h hr ⊢
  obtain ⟨t, hcomplete, hend⟩ := pair_completes hi h hr
  cases hend with
  | equal hagree hfound hresult hreads =>
    exact ⟨t, s.prefixBytes, hcomplete, hfound, hreads, .inl ⟨hagree, hresult, rfl⟩⟩
  | differ j hj hbefore hdiffer hfound hresult hreads =>
    exact ⟨t, j + 1, hcomplete, hfound, hreads, .inr ⟨fun hall => hdiffer (hall.byteAgrees (Nat.min_le_left _ _)),
      hresult, Nat.succ_pos j, hj, hbefore, fun hpart => hdiffer (hpart.byteAgrees le_rfl)⟩⟩

end Sys2Proof.Machine
end

section
/-! PROOFS. The error cases (60_exceptions.md R161, R162, R164): the end of an illegal command, the end of a command whose read
answers `error`, and the transactions the register port does not accept. -/

namespace Sys2Proof.Machine

/-! ### The two errors a command ends with -/

/-- Settles O6: the engine's step of an illegal word is fail(1, 0), whatever else the state holds. -/
theorem illegalCommandCompletes : Obligations.IllegalCommandCompletes := by
  intro s p why a rest hp hd hi
  exact ⟨_, step_engine_illegal hp hd hi, by simp [State.raiseIllegalCommand, errIllegalCmd]⟩

/-- An address of the engine memory space fits in 64 bits (R6, R39). -/
theorem memSize_le (c : Config) : c.memSize ≤ 2 ^ 64 :=
  Nat.pow_le_pow_right Nat.two_pos c.addrWidthPred.isLt

theorem effectiveAddr_lt (c : Config) (b : Word) (j : Nat) : effectiveAddr c b j < c.memSize :=
  Nat.mod_lt _ (Nat.two_pow_pos c.pAddrW)

/-- Every read is of an address in the engine memory space. -/
theorem ReadPoint.lt_memSize {i : Instr} {s : State} {a : Nat} (h : ReadPoint i s a) : a < s.cfg.memSize := by
  cases h with
  | scan | pairA | pairB => exact effectiveAddr_lt s.cfg _ _

/-- A read that the memory answers with `error` is logged and ends the command (R162). -/
theorem ReadPoint.exec_error {i : Instr} {s : State} {a : Nat} (h : ReadPoint i s a) (hu : s.unanswered = none)
    (ha : s.answer = .error) : exec i s = .next ((s.logRead a none).raiseBusError a) := by
  obtain ⟨k, he⟩ := h.exec_eq
  rw [he, State.memRead_error hu ha]

/-- RESULT of a bus error is the failing address, none of whose bits zext_64 drops. -/
theorem ReadPoint.raiseBusError_result {i : Instr} {s : State} {a : Nat} (h : ReadPoint i s a) (t : State) :
    (t.raiseBusError a).x.result.toNat = a :=
  (BitVec.toNat_ofNat a 64).trans (Nat.mod_eq_of_lt (h.lt_memSize.trans_le (memSize_le s.cfg)))

/-- Settles O28: at a read point an `error` answer is fail(2, addr) after the read is logged. -/
theorem busErrorEndsTheCommand : Obligations.BusErrorEndsTheCommand := by
  intro s i addr hu ha hat
  have hread : ReadPoint i s addr := by
    rcases hat with ⟨hmem, hscan⟩ | ⟨hmem, hpair⟩
    · exact .of_scan hmem hscan
    · exact .of_pair hmem hpair
  exact ⟨_, hread.exec_error hu ha, Status.failed_err _ _, Status.failed_errcode _ _, hread.raiseBusError_result _,
    Status.failed_found _ _, Status.failed_done _ _, Status.failed_busy _ _, rfl, rfl, rfl, rfl⟩

/-! ### The register port -/

/-- Every offset of the window that is a multiple of 8 is a register's (R20). -/
theorem exists_reg_of_offset {off : Nat} (hlt : off < 0x40) (h8 : off % 8 = 0) : ∃ r : Reg, r.offset = off := by
  rcases (by omega : off = 0x00 ∨ off = 0x08 ∨ off = 0x10 ∨ off = 0x18 ∨ off = 0x20 ∨ off = 0x28 ∨ off = 0x30 ∨
    off = 0x38) with rfl | rfl | rfl | rfl | rfl | rfl | rfl | rfl
  exacts [⟨.cmd, rfl⟩, ⟨.status, rfl⟩, ⟨.opa, rfl⟩, ⟨.opb, rfl⟩, ⟨.start, rfl⟩, ⟨.endOff, rfl⟩, ⟨.k, rfl⟩,
    ⟨.result, rfl⟩]

theorem Reg.offset_mod_eight (r : Reg) : r.offset % 8 = 0 := by cases r <;> rfl

/-- Any other offset is no register's. -/
theorem regAtOffset_of_misaligned {off : Nat} (h8 : off % 8 ≠ 0) : regAtOffset off = none := by
  cases hr : regAtOffset off with
  | none => rfl
  | some r => exact absurd (offset_of_regAtOffset hr ▸ r.offset_mod_eight) h8

theorem windowOffset_of_lt (c : Config) {off : Nat} (hlt : off < 0x40) : windowOffset c (c.regBase + off) = some off := by
  rw [windowOffset, if_pos ⟨Nat.le_add_right _ _, Nat.add_lt_add_left hlt _⟩, Nat.add_sub_cancel_left]

/-- A transaction of another size, or at an offset that is no register's, gets a host bus error (R27, R164). -/
theorem State.busAccess_refused (s : State) {off bits : Nat} (op : BusOp) (hlt : off < 0x40)
    (h : bits ≠ 64 ∨ off % 8 ≠ 0) :
    s.busAccess { addr := s.cfg.regBase + off, bits := bits, op := op } = s.answerHost .busError := by
  simp only [State.busAccess, windowOffset_of_lt s.cfg hlt]
  rcases h with hbits | h8
  · cases regAtOffset off with
    | none => rfl
    | some r => exact if_neg hbits
  · rw [regAtOffset_of_misaligned h8]

/-- A read of a register's offset, accepted by the port (R27). -/
theorem step_busRead {s : State} {r : Reg} {rest : List Input}
    (hi : s.inputs = .bus { addr := s.cfg.regBase + r.offset, bits := 64, op := .read } :: rest) :
    step s = .next (State.answerHost { s with inputs := rest } (.data (s.regValue r))) := by
  rw [step_of_inputs_cons hi]
  exact congrArg Host.Outcome.next (State.busAccess_reg { s with inputs := rest } r .read)

/-- What a read answers, in the table of R20. -/
theorem State.regValue_mem_window (s : State) (r : Reg) :
    (r.offset, s.regValue r) ∈ [(0x00, s.x.cmd), (0x08, s.x.status), (0x10, s.x.opa), (0x18, s.x.opb),
      (0x20, s.x.start), (0x28, s.x.endOff), (0x30, s.x.k), (0x38, s.x.result)] := by
  cases r <;> simp [Reg.offset, State.regValue]

/-- Settles O12: an aligned offset is a register's, whose 64-bit access is accepted; the port refuses the rest. -/
theorem portAcceptsWholeAlignedRegisters : Obligations.PortAcceptsWholeAlignedRegisters := by
  intro s off bits op rest hlt hi
  refine ⟨fun hbits h8 => ?_, fun hrefused => ?_⟩
  · obtain ⟨r, rfl⟩ := exists_reg_of_offset hlt h8
    subst hbits
    refine ⟨?_, ?_, ?_⟩
    · rintro rfl
      exact ⟨s.regValue r, s.regValue_mem_window r, step_busRead hi⟩
    · rintro v rfl
      exact ⟨r, rfl, step_busWrite hi⟩
    · rintro v rfl hresult
      rw [hresult] at hi
      exact step_busWrite (r := .result) hi
  · rw [step_of_inputs_cons hi]
    exact congrArg Host.Outcome.next (State.busAccess_refused { s with inputs := rest } op hlt hrefused)

end Sys2Proof.Machine
end

section
/-! PROOFS. What an idle block keeps (70_reset_and_hazards.md R190): the engine writes nothing while IDLE, and of the register
writes only that of CMD starts a command. -/

namespace Sys2Proof.Machine

theorem State.phase_ne_idle_of_isBusy {s : State} (hb : s.phase.isBusy = true) : s.phase ≠ .idle := by
  intro hp
  rw [hp] at hb
  cases hb

/-- A completion starts from a running command. -/
theorem State.completesInto.phase_ne_idle {s t : State} (h : s.completesInto t) : s.phase ≠ .idle := by
  obtain ⟨_, hb, _, _⟩ := h
  exact State.phase_ne_idle_of_isBusy hb

/-- Only a write of CMD moves the phase (R31). -/
theorem State.writeReg_phase (s : State) {r : Reg} (hr : r ≠ .cmd) (v : Word) : (s.writeReg r v).phase = s.phase := by
  cases r with
  | cmd => exact absurd rfl hr
  | _ => rfl

/-- Only a write of CMD takes the block out of IDLE. -/
theorem step_phase_of_idle {s t : State} (hp : s.phase = .idle) (h : step s = .next t)
    (hw : ∀ v, ¬s.writesReg .cmd v) : t.phase = .idle := by
  rcases step_block_cases h with hs | ⟨r, v, hwr, hs⟩ | ⟨a, _, he⟩ | ⟨_, hs⟩
  · exact hs.phase.trans hp
  · have hr : r ≠ .cmd := fun hr => hw v (hr ▸ hwr)
    exact (hs.phase.trans (s.writeReg_phase hr v)).trans hp
  · rcases engineTurn_outcomes he with ⟨hidle, rfl⟩ | ⟨hb, _⟩
    · exact hidle
    · exact absurd hp (State.phase_ne_idle_of_isBusy hb)
  · exact hs.phase

/-- Settles O50: RESULT and the fields of STATUS change by a completion, a write of CMD or reset, and an idle block has no
command to complete. -/
theorem resultIsStableWhileIdle : Obligations.ResultIsStableWhileIdle := by
  intro s t hp h hw hr
  have hnone : ¬ s.completesInto t := fun hc => hc.phase_ne_idle hp
  have hresult : t.x.result = s.x.result := by
    by_contra hne
    rcases step_result h hne with ⟨hc, _⟩ | ⟨hd, _⟩
    · exact hnone hc
    · exact hr hd
  refine ⟨step_phase_of_idle hp h hw, hresult, ?_⟩
  rcases step_status_cases h with hs | ⟨v, hwr, _⟩ | ⟨v, hwr, _⟩ | ⟨v, _, hs⟩ | ⟨hc, _⟩ | ⟨hd, _⟩
  · simp only [hs, and_self]
  · exact absurd hwr (hw v)
  · exact absurd hwr (hw v)
  · simp only [hs, Status.hostWrite_found, Status.hostWrite_err, Status.hostWrite_errcode, and_self]
  · exact absurd hc hnone
  · exact absurd hd hr

end Sys2Proof.Machine
end
